-- ==== Sys2Proof/Word.lean ====
section
/-! DEFINITION. The data unit of VCORE, the 32-bit word (20_memory.md R108), and the names of the two signal paths
(00_scope.md R27). -/

namespace Sys2Proof

/-- The unit every transaction moves and every register holds (20_memory.md R102, R108). -/
abbrev Word := BitVec 32

/-- One byte lane of a word (20_memory.md R108). -/
abbrev Byte := BitVec 8

/-- A signal path: MOD = 0 (modulator), CAR = 1 (carrier) (00_scope.md R27). -/
inductive Path where
  | mod
  | car
deriving DecidableEq, Repr, Inhabited

/-- What a command's PATH field selects: 0 MOD, 1 CAR, 2 BOTH. The value 3 is reserved and selects nothing, so it has
no constructor (00_scope.md R27). -/
inductive PathSel where
  | mod
  | car
  | both
deriving DecidableEq, Repr, Inhabited

end Sys2Proof
end

