-- ==== Sys2Proof/Syntax.lean ====
section
/-! DEFINITION. The command set VCORE-1: one constructor per row of the opcode map (30_encoding.md R133). -/

namespace Sys2Proof

/-- A decoded command. `path` is the command's PATH field, `band` its BAND field as it stands in the word, w[15:8]
(30_encoding.md R131, R138). Whether the band exists depends on the build's N and is checked when the command executes
(R136). -/
inductive Instr where
  /-- 0x00, 43_control.md R260. -/
  | nop
  /-- 0x01, 40_biquad.md R160. -/
  | setBandpass (path : PathSel) (band : BitVec 8)
  /-- 0x02, 40_biquad.md R170. -/
  | writeCoef (path : PathSel) (band : BitVec 8)
  /-- 0x03, 40_biquad.md R180. -/
  | filter (path : PathSel) (band : BitVec 8)
  /-- 0x04, 41_filterbank.md R200. -/
  | buildBank (path : PathSel)
  /-- 0x05, 42_engine.md R220. -/
  | envelope (band : BitVec 8)
  /-- 0x06, 42_engine.md R225. -/
  | modulate (band : BitVec 8)
  /-- 0x07, 42_engine.md R230. -/
  | mix
  /-- 0x08, 42_engine.md R233. -/
  | makeup
  /-- 0x09, 42_engine.md R240. -/
  | generate
  /-- 0x0A, 42_engine.md R245. -/
  | clearOut
deriving DecidableEq, Repr, Inhabited

end Sys2Proof
end

