-- ==== Sys2Proof/Decode.lean ====
section
/-! DEFINITION. Decoding a command word (30_encoding.md R130 to R136) and encoding a command (R131, R133, R140). Every
command is one 32-bit word (R132), so the decoder never works out a length. -/

namespace Sys2Proof

/-- The opcodes of the map (30_encoding.md R133). -/
inductive Op where
  | nop | setBandpass | writeCoef | filter | buildBank | envelope | modulate | mix | makeup | generate | clearOut
deriving DecidableEq, Repr, Inhabited

/-- Why a word is no command, with the name of the error it raises (30_encoding.md R134, R135). -/
inductive DecodeError where
  /-- OP is 0x0B to 0x3F: E_ILLEGAL_OP (R134). -/
  | illegalOp
  /-- RSV ≠ 0, PATH = 3, or a non-zero field the command does not take: E_RESERVED_FIELD (R135). -/
  | reservedField
deriving DecidableEq, Repr, Inhabited

/-- OP = w[5:0] (30_encoding.md R131). -/
def opField (w : Word) : BitVec 6 := w.extractLsb' 0 6

/-- PATH = w[7:6] (30_encoding.md R131). -/
def pathField (w : Word) : BitVec 2 := w.extractLsb' 6 2

/-- BAND = w[15:8] (30_encoding.md R131). -/
def bandField (w : Word) : BitVec 8 := w.extractLsb' 8 8

/-- RSV = w[31:16] (30_encoding.md R131). -/
def rsvField (w : Word) : BitVec 16 := w.extractLsb' 16 16

/-- The OP value of each command (30_encoding.md R133). -/
def Op.code : Op → BitVec 6
  | .nop => 0x00
  | .setBandpass => 0x01
  | .writeCoef => 0x02
  | .filter => 0x03
  | .buildBank => 0x04
  | .envelope => 0x05
  | .modulate => 0x06
  | .mix => 0x07
  | .makeup => 0x08
  | .generate => 0x09
  | .clearOut => 0x0A

/-- Column "takes PATH" of the map (30_encoding.md R133). -/
def Op.takesPath : Op → Bool
  | .setBandpass | .writeCoef | .filter | .buildBank => true
  | .nop | .envelope | .modulate | .mix | .makeup | .generate | .clearOut => false

/-- Column "takes BAND" of the map (30_encoding.md R133). -/
def Op.takesBand : Op → Bool
  | .setBandpass | .writeCoef | .filter | .envelope | .modulate => true
  | .nop | .buildBank | .mix | .makeup | .generate | .clearOut => false

/-- The opcodes of the map, in its order. -/
def allOps : List Op :=
  [.nop, .setBandpass, .writeCoef, .filter, .buildBank, .envelope, .modulate, .mix, .makeup, .generate, .clearOut]

/-- The opcode with this OP value; none for 0x0B to 0x3F (30_encoding.md R134). -/
def decodeOp (code : BitVec 6) : Option Op := allOps.find? (fun op => op.code == code)

/-- The paths a PATH value selects; none for the reserved 3 (00_scope.md R27). -/
def decodePath (v : BitVec 2) : Option PathSel :=
  if v = 0 then some .mod else if v = 1 then some .car else if v = 2 then some .both else none

/-- The command of an opcode with its two fields. -/
def Op.instr (op : Op) (path : PathSel) (band : BitVec 8) : Instr :=
  match op with
  | .nop => .nop
  | .setBandpass => .setBandpass path band
  | .writeCoef => .writeCoef path band
  | .filter => .filter path band
  | .buildBank => .buildBank path
  | .envelope => .envelope band
  | .modulate => .modulate band
  | .mix => .mix
  | .makeup => .makeup
  | .generate => .generate
  | .clearOut => .clearOut

/-- The decode checks of `Execute(w)` in their order (30_encoding.md R130), up to the band range, which needs the build's
N and is checked by the command (`withBand`, log entry 8). -/
def decode (w : Word) : Except DecodeError Instr :=
  match decodeOp (opField w) with
  | none => .error .illegalOp
  | some op =>
    if rsvField w ≠ 0 then .error .reservedField
    else if op.takesPath = false ∧ pathField w ≠ 0 then .error .reservedField
    else
      match decodePath (pathField w) with
      | none => .error .reservedField
      | some path =>
        if op.takesBand = false ∧ bandField w ≠ 0 then .error .reservedField
        else .ok (op.instr path (bandField w))

/-- The PATH value of a selection (00_scope.md R27). -/
def PathSel.code : PathSel → BitVec 2
  | .mod => 0
  | .car => 1
  | .both => 2

/-- The opcode of a command. -/
def Instr.op : Instr → Op
  | .nop => .nop
  | .setBandpass _ _ => .setBandpass
  | .writeCoef _ _ => .writeCoef
  | .filter _ _ => .filter
  | .buildBank _ => .buildBank
  | .envelope _ => .envelope
  | .modulate _ => .modulate
  | .mix => .mix
  | .makeup => .makeup
  | .generate => .generate
  | .clearOut => .clearOut

/-- The PATH field of a command: 0 where it takes none (30_encoding.md R133). -/
def Instr.pathCode : Instr → BitVec 2
  | .setBandpass path _ | .writeCoef path _ | .filter path _ | .buildBank path => path.code
  | .nop | .envelope _ | .modulate _ | .mix | .makeup | .generate | .clearOut => 0

/-- The BAND field of a command: 0 where it takes none (30_encoding.md R133). -/
def Instr.bandCode : Instr → BitVec 8
  | .setBandpass _ band | .writeCoef _ band | .filter _ band | .envelope band | .modulate band => band
  | .nop | .buildBank _ | .mix | .makeup | .generate | .clearOut => 0

/-- The word of a command: RSV = 0, then BAND, PATH and OP (30_encoding.md R131; R140 writes the same word as
OP | (PATH << 6) | (BAND << 8)). -/
def encode (i : Instr) : Word := (0 : BitVec 16) ++ i.bandCode ++ i.pathCode ++ i.op.code

/-- One row of the match and mask table of 30_encoding.md R133: the word w selects `op` when w & mask = match. -/
structure OpcodeRow where
  op : Op
  pattern : Word
  mask : Word
deriving DecidableEq, Repr

/-- The match and mask table of 30_encoding.md R133, in its order. -/
def opcodeTable : List OpcodeRow :=
  [⟨.nop, 0x00000000#32, 0xFFFFFFFF#32⟩, ⟨.setBandpass, 0x00000001#32, 0xFFFF003F#32⟩,
   ⟨.writeCoef, 0x00000002#32, 0xFFFF003F#32⟩, ⟨.filter, 0x00000003#32, 0xFFFF003F#32⟩,
   ⟨.buildBank, 0x00000004#32, 0xFFFFFF3F#32⟩, ⟨.envelope, 0x00000005#32, 0xFFFF00FF#32⟩] ++
  [⟨.modulate, 0x00000006#32, 0xFFFF00FF#32⟩, ⟨.mix, 0x00000007#32, 0xFFFFFFFF#32⟩,
   ⟨.makeup, 0x00000008#32, 0xFFFFFFFF#32⟩, ⟨.generate, 0x00000009#32, 0xFFFFFFFF#32⟩,
   ⟨.clearOut, 0x0000000A#32, 0xFFFFFFFF#32⟩]

/-- The word w selects the row. -/
def OpcodeRow.selects (r : OpcodeRow) (w : Word) : Bool := w &&& r.mask == r.pattern

/-- What the decoder reads from a row of spec/opcode_table.json whose bits are `w`: a command is one 32-bit word, so a
wider row is none; the bits above `nbits` are 0. -/
def decodeTableWord (nbits w : Nat) : Option Instr :=
  if nbits ≤ 32 then (decode (BitVec.ofNat 32 (w % 2 ^ nbits))).toOption else none

end Sys2Proof
end

