-- ==== Sys2Proof/Config.lean ====
section
/-! DEFINITION. The parameters of a VCORE build (00_scope.md R9) and the open values, which are constants without a body:
nothing in Lean can evaluate one or prove a value of it. -/

namespace Sys2Proof

/-- COEF_RESET ∈ ZERO, IDENTITY (00_scope.md R9; 10_state.md R57). -/
inductive CoefReset where
  | zero
  | identity
deriving DecidableEq, Repr, Inhabited

/-- OPEN parameter Tan (00_scope.md R9, R24): a total deterministic function of which nothing else may be assumed. -/
opaque Config.tan : Word → Word

/-- OPEN parameter Exp (00_scope.md R9, R24). -/
opaque Config.exp : Word → Word

/-- OPEN parameter Ln, the natural logarithm (00_scope.md R9, R24). -/
opaque Config.ln : Word → Word

/-- OPEN parameter COEF_RESET of the default build (00_scope.md R9; 90_conflicts.md C6). -/
opaque Config.coefReset : CoefReset

/-- Which multiple of 2^20 the OPEN parameter BASE is (00_scope.md R9). -/
opaque Config.baseIndex : Nat

/-- BASE, the byte address of the window on the host bus: a multiple of 2^20 (00_scope.md R9; 20_memory.md R101). -/
def Config.base : Nat := Config.baseIndex * 2 ^ 20

/-- N_MAX: band slots in the address map (00_scope.md R9). -/
def Config.nMax : Nat := 64

/-- FRAMES_MAX: sample slots in the address map, which is also the band stride of the scratch (00_scope.md R9;
10_state.md R61). -/
def Config.framesMax : Nat := 1024

/-- The build parameters of one VCORE instance, fixed for its lifetime (00_scope.md R9, R12).

DESIGN CHOICE (log entry 2): a parameter that is a function is given as plain data, a finite table of (operand, result)
pairs that overrides the constant of Config without a body; an empty table leaves the whole function open. -/
structure Build where
  /-- N, the band count of each path. -/
  n : Nat
  /-- FRAMES, the samples of a block. -/
  frames : Nat
  /-- FS_RESET, the reset value of FS. -/
  fsReset : Word
  /-- G, the makeup gain. -/
  g : Word
  /-- COEF_RESET. -/
  coefReset : CoefReset
  /-- The results of Tan that this build fixes. -/
  tanTable : List (Word × Word)
  /-- The results of Exp that this build fixes. -/
  expTable : List (Word × Word)
  /-- The results of Ln that this build fixes. -/
  lnTable : List (Word × Word)
deriving DecidableEq, Repr, Inhabited

/-- The build a model takes when none is given: the defaults of 00_scope.md R9, and every OPEN parameter left open. -/
def Build.default : Build where
  n := 30
  frames := 256
  fsReset := 0x472C4400#32
  g := 0x41A00000#32
  coefReset := Config.coefReset
  tanTable := []
  expTable := []
  lnTable := []

end Sys2Proof
end

