-- ==== Sys2Proof/Machine/State.lean ====
section
/-! DEFINITION. The state of VCORE as plain data (10_state.md R67) and its reset values (70_reset_and_hazards.md R310). -/

namespace Sys2Proof.Machine

/-- The errors of VCORE (60_exceptions.md R280); their codes are `ErrCode.code`. -/
inductive ErrCode where
  | illegalOp
  | reservedField
  | bandRange
  | locked
  | unconfigured
  | cfgRange
  | blockRange
  | bus
deriving DecidableEq, Repr, Inhabited

/-- Five binary32 coefficients: feed-forward a0, a1, a2 and feedback b1, b2 (10_state.md R57). The staging registers
STG_A0 to STG_B2 have the same shape (R55). -/
structure Coef where
  a0 : Word
  a1 : Word
  a2 : Word
  b1 : Word
  b2 : Word
deriving DecidableEq, Repr, Inhabited

/-- Four binary32 state scalars: the last and second-to-last input and output samples (10_state.md R58). -/
structure FiltState where
  x1 : Word
  x2 : Word
  y1 : Word
  y2 : Word
deriving DecidableEq, Repr, Inhabited

/-- One band (p, i): COEF[p][i], ST[p][i] and CONF[p][i] (10_state.md R49, R57, R58). -/
structure Band where
  coef : Coef
  st : FiltState
  conf : Bool
deriving DecidableEq, Repr, Inhabited

/-- What the outside world can put at the port. An address is the 20-bit byte offset from BASE (20_memory.md R101);
every transaction moves one 32-bit word (R102). -/
inductive PortEvent where
  /-- `MemRead(addr, 4)` (00_scope.md R15). -/
  | read (addr : BitVec 20)
  /-- `MemWrite(addr, 4, v)` (00_scope.md R15). -/
  | write (addr : BitVec 20) (v : Word)
  /-- The reset input `rst`, ordered with the transactions (70_reset_and_hazards.md R310). -/
  | rst
deriving DecidableEq, Repr, Inhabited

/-- What the port answered to the event served last. -/
inductive Reply where
  /-- Nothing: no transaction has been served since the start or since the last `rst` event. -/
  | idle
  /-- The acknowledge of a write (20_memory.md R100). -/
  | ack
  /-- The word a read returned (20_memory.md R103, R104). -/
  | data (w : Word)
deriving DecidableEq, Repr, Inhabited

/-- The complete state (10_state.md R67), the build's parameters (00_scope.md R9), and the port (log entries 5 and 6).
Everything R67 lists and nothing else is VCORE's. -/
structure State where
  /-- The build's parameters, which nothing changes (00_scope.md R12). -/
  build : Build
  /-- CTRL.IRQ_EN (10_state.md R44). -/
  irqEn : Bool
  /-- CMD (10_state.md R46). -/
  cmd : Word
  /-- ERR.CAUSE; none is the value 0, no error pending (10_state.md R47; log entry 11). -/
  errCause : Option ErrCode
  /-- ERR.OVF (10_state.md R47). -/
  errOvf : Bool
  /-- ERRCMD (10_state.md R48). -/
  errCmd : Word
  /-- ERRINFO (10_state.md R48). -/
  errInfo : Word
  /-- ARG0 (10_state.md R50). -/
  arg0 : Word
  /-- ARG1 (10_state.md R50). -/
  arg1 : Word
  /-- FS (10_state.md R51). -/
  fs : Word
  /-- BLKOFF.OFF (10_state.md R53). -/
  blkOff : BitVec 11
  /-- BLKLEN.LEN (10_state.md R54). -/
  blkLen : BitVec 12
  /-- STG_A0, STG_A1, STG_A2, STG_B1, STG_B2 (10_state.md R55). -/
  stg : Coef
  /-- ENV[0 .. N−1] (10_state.md R56). -/
  env : List Word
  /-- The N bands of path MOD (10_state.md R57, R58, R49). -/
  modBands : List Band
  /-- The N bands of path CAR. -/
  carBands : List Band
  /-- IN, OUT and SCR as bytes of the window (10_state.md R61 to R63; 20_memory.md R108, R110): addresses strictly
  rising, no entry equal to 0, which is what an unlisted address reads as. -/
  mem : List Host.Cell
  /-- The model's port: the events not yet served, oldest first (20_memory.md R100; log entry 5). -/
  port : List PortEvent
  /-- The model's port: the answer to the event served last (log entry 6). -/
  reply : Reply
deriving DecidableEq, Repr, Inhabited

/-- No fault stops VCORE: an error is captured in ERR, ERRCMD and ERRINFO and the machine goes on
(60_exceptions.md R286, R289). So no constructor stands here, nothing raises one, and that is safe: it forbids nothing. -/
inductive Fault
deriving DecidableEq, Repr

/-- Why an instruction has no meaning. No step answers with one. -/
inductive Refusal where
  /-- Raised by an arm of `exec` whose instruction has no meaning yet; safe. No arm is left that does. -/
  | notModelled (mnemonic : String)
deriving DecidableEq, Repr

/-- The reset value of a band's coefficients (10_state.md R57). -/
def Coef.reset : CoefReset → Coef
  | .zero => ⟨0, 0, 0, 0, 0⟩
  | .identity => ⟨0x3F800000, 0, 0, 0, 0⟩

/-- Zero state (10_state.md R58). -/
def FiltState.zero : FiltState := ⟨0, 0, 0, 0⟩

/-- An unconfigured band with zero state (10_state.md R49, R57, R58). -/
def Band.reset (c : CoefReset) : Band := ⟨Coef.reset c, FiltState.zero, false⟩

/-- Every state of 10_state.md R67 at its reset value, for a given build (70_reset_and_hazards.md R310), with nothing at
the port. -/
def State.resetOf (b : Build) : State where
  build := b
  irqEn := false
  cmd := 0
  errCause := none
  errOvf := false
  errCmd := 0
  errInfo := 0
  arg0 := 0
  arg1 := 0
  fs := b.fsReset
  blkOff := 0
  blkLen := BitVec.ofNat 12 b.frames
  stg := ⟨0, 0, 0, 0, 0⟩
  env := List.replicate b.n 0
  modBands := List.replicate b.n (Band.reset b.coefReset)
  carBands := List.replicate b.n (Band.reset b.coefReset)
  mem := []
  port := []
  reply := .idle

/-- The machine right after reset, built with the defaults of 00_scope.md R9. -/
def State.reset : State := State.resetOf Build.default

end Sys2Proof.Machine
end

