-- ==== Sys2Proof/Machine/Ops.lean ====
section
/-! DEFINITION. The named operations over memory and registers, and the error capture, VCORE's form of taking an exception
(60_exceptions.md R286), with the return from it (R288) and the reset (70_reset_and_hazards.md R310). -/

namespace Sys2Proof.Machine

/-! ### Bytes and words of memory -/

/-- The canonical form: addresses strictly rising, no entry equal to what an unlisted address reads as. -/
abbrev Memory.wf (m : List Host.Cell) : Prop :=
  m.Pairwise (fun c d => c.1 < d.1) ∧ ∀ c ∈ m, c.2 ≠ 0

/-- The byte at an address; an unlisted one reads 0: the buffers reset to +0.0 (10_state.md R61 to R63) and every other
byte of the window is reserved and reads 0 (R69). -/
def Memory.byte (m : List Host.Cell) (a : Nat) : Byte :=
  match m.find? (fun c => c.1 == a) with
  | some c => c.2
  | none => 0

/-- The cells of a run of bytes from address `a`, without those that are 0. -/
def Memory.cells (a : Nat) : List Byte → List Host.Cell
  | [] => []
  | b :: bs => if b = 0 then Memory.cells (a + 1) bs else (a, b) :: Memory.cells (a + 1) bs

/-- Store a run of bytes at address `a` and the following ones. -/
def Memory.store (m : List Host.Cell) (a : Nat) (bs : List Byte) : List Host.Cell :=
  m.filter (fun c => decide (c.1 < a)) ++ Memory.cells a bs ++ m.filter (fun c => decide (a + bs.length ≤ c.1))

/-- The four byte lanes of a word: byte j is bits 8j+7 .. 8j (20_memory.md R108). -/
def wordBytes (w : Word) : List Byte :=
  [w.extractLsb' 0 8, w.extractLsb' 8 8, w.extractLsb' 16 8, w.extractLsb' 24 8]

/-- The word whose byte lanes stand at `a` .. `a` + 3 (20_memory.md R108). -/
def Memory.loadWord (m : List Host.Cell) (a : Nat) : Word :=
  Memory.byte m (a + 3) ++ Memory.byte m (a + 2) ++ Memory.byte m (a + 1) ++ Memory.byte m a

/-- `k` consecutive words from address `a`. -/
def Memory.loadWords (m : List Host.Cell) (a k : Nat) : List Word :=
  (List.range k).map (fun j => Memory.loadWord m (a + 4 * j))

/-- Store consecutive words from address `a`. -/
def Memory.storeWords (m : List Host.Cell) (a : Nat) (ws : List Word) : List Host.Cell :=
  Memory.store m a (ws.flatMap wordBytes)

/-! ### Where the buffers stand in the window (20_memory.md R110) -/

/-- The number of a path (00_scope.md R27). -/
def pathNum : Path → Nat
  | .mod => 0
  | .car => 1

/-- The offset of IN[p][n] (10_state.md R63). -/
def inAddr (p : Path) (n : Nat) : Nat := 0x04000 + 0x01000 * pathNum p + 4 * n

/-- The offset of OUT[n] (10_state.md R62). -/
def outAddr (n : Nat) : Nat := 0x06000 + 4 * n

/-- The offset of SCR[p][i][n]; the band stride is FRAMES_MAX words (10_state.md R61). -/
def scrAddr (p : Path) (i n : Nat) : Nat :=
  0x40000 + 0x40000 * pathNum p + 4 * (i * Config.framesMax + n)

/-! ### Reading and writing the state -/

/-- The bands of a path. -/
def State.bands (s : State) : Path → List Band
  | .mod => s.modBands
  | .car => s.carBands

/-- Band (p, i). -/
def State.band (s : State) (p : Path) (i : Nat) : Band := (s.bands p).getD i (Band.reset s.build.coefReset)

/-- Replace band (p, i). -/
def State.setBand (s : State) (p : Path) (i : Nat) (b : Band) : State :=
  match p with
  | .mod => { s with modBands := s.modBands.set i b }
  | .car => { s with carBands := s.carBands.set i b }

/-- Replace the buffers' bytes. -/
def State.setMem (s : State) (m : List Host.Cell) : State := { s with mem := m }

/-- ENV[i] (10_state.md R56). -/
def State.envAt (s : State) (i : Nat) : Word := s.env.getD i 0

/-- ENV[i] <- e. -/
def State.setEnv (s : State) (i : Nat) (e : Word) : State := { s with env := s.env.set i e }

/-- IN[p][n] (10_state.md R63). -/
def State.inp (s : State) (p : Path) (n : Nat) : Word := Memory.loadWord s.mem (inAddr p n)

/-- OUT[n] (10_state.md R62). -/
def State.out (s : State) (n : Nat) : Word := Memory.loadWord s.mem (outAddr n)

/-- SCR[p][i][n] (10_state.md R61). -/
def State.scr (s : State) (p : Path) (i n : Nat) : Word := Memory.loadWord s.mem (scrAddr p i n)

/-- IN[p][off .. off+len−1]. -/
def State.inBlock (s : State) (p : Path) (off len : Nat) : List Word :=
  Memory.loadWords s.mem (inAddr p off) len

/-- SCR[p][i][0 .. FRAMES−1]. -/
def State.scrBlock (s : State) (p : Path) (i : Nat) : List Word :=
  Memory.loadWords s.mem (scrAddr p i 0) s.build.frames

/-- OUT[0 .. FRAMES−1]. -/
def State.outBlock (s : State) : List Word := Memory.loadWords s.mem (outAddr 0) s.build.frames

/-- SCR[p][i][off ..] <- ys. -/
def State.storeScr (s : State) (p : Path) (i off : Nat) (ys : List Word) : State :=
  s.setMem (Memory.storeWords s.mem (scrAddr p i off) ys)

/-- OUT[0 ..] <- ys. -/
def State.storeOut (s : State) (ys : List Word) : State := s.setMem (Memory.storeWords s.mem (outAddr 0) ys)

/-! ### Errors (60_exceptions.md) -/

/-- `Capture(code, cmdword, info)` (60_exceptions.md R286): the first error since the last clear is kept, a later one only
sets OVF. Nothing else is saved: VCORE has no program counter, no mode and no mask. -/
def capture (code : ErrCode) (cmdword info : Word) (s : State) : State :=
  match s.errCause with
  | none => { s with errCause := some code, errCmd := cmdword, errInfo := info }
  | some _ => { s with errOvf := true }

/-- `raise E_NAME(info)` inside a command (00_scope.md R16): the command ends and only the capture happens. ERRCMD holds the
command word (60_exceptions.md R281), which CMD holds since the write that started the command (10_state.md R46; log entry 9). -/
def raise (code : ErrCode) (info : Word) (s : State) : Host.Outcome State Fault Refusal :=
  .next (capture code s.cmd info s)

/-- ClearErr, the return from an error (43_control.md R263; 60_exceptions.md R288). -/
def clearErr (s : State) : State :=
  { s with errCause := none, errOvf := false, errCmd := 0, errInfo := 0 }

/-! ### Reset (70_reset_and_hazards.md R310; 43_control.md R262) -/

/-- Every state of 10_state.md R67 takes its reset value; the build and the port are not among them (log entry 7). -/
def resetCore (s : State) : State :=
  { State.resetOf s.build with port := s.port, reply := s.reply }

/-! ### The port (20_memory.md R100) -/

/-- The oldest event at the port, and the state with it taken out. -/
def takeEvent (s : State) : Option (PortEvent × State) :=
  match s.port with
  | [] => none
  | e :: rest => some (e, { s with port := rest })

end Sys2Proof.Machine
end

