-- ==== Sys2Proof/Machine/Control.lean ====
section
/-! DEFINITION. The control command NOP (43_control.md R260). Soft reset and ClearErr, the other two control operations, are
register writes and stand in Bus.lean. -/

namespace Sys2Proof.Machine

/-- NOP (43_control.md R260): nothing changes. The CMD readback is left by the write that starts the command
(10_state.md R46). -/
def execNop (s : State) : Host.Outcome State Fault Refusal := .next s

end Sys2Proof.Machine
end

