-- ==== Sys2Proof/Machine/Binary32.lean ====
section
/-! DEFINITION. IEEE 754 binary32 on words (00_scope.md R17 to R26): every operation computes exactly, on integers that
count units of 2^-149 (the least subnormal), and rounds once. -/

namespace Sys2Proof.Machine

/-- Bit 31, the sign (00_scope.md R17). -/
def signBit (w : Word) : Bool := w.getLsbD 31

/-- Bits 30:23, the biased exponent (00_scope.md R17). -/
def expField (w : Word) : Nat := (w.extractLsb' 23 8).toNat

/-- Bits 22:0, the fraction (00_scope.md R17). -/
def fracField (w : Word) : Nat := (w.extractLsb' 0 23).toNat

/-- The word holds a NaN. -/
def isNaN (w : Word) : Bool := expField w == 255 && fracField w != 0

/-- The word holds +∞ or −∞. -/
def isInf (w : Word) : Bool := expField w == 255 && fracField w == 0

/-- Exponent field ≠ 0xFF (40_biquad.md R161). -/
def isFinite (w : Word) : Bool := expField w != 255

/-- The word holds +0.0 or −0.0. -/
def isZero (w : Word) : Bool := expField w == 0 && fracField w == 0

/-- The canonical NaN (00_scope.md R21). -/
def nan32 : Word := 0x7FC00000

/-- The magnitude bits of ∞. -/
def infMag : Nat := 0x7F800000

/-- 1.0. -/
def one32 : Word := 0x3F800000

/-- 2.0. -/
def two32 : Word := 0x40000000

/-- 0.5. -/
def half32 : Word := 0x3F000000

/-- PI32 (00_scope.md R25). -/
def pi32 : Word := 0x40490FDB

/-- The magnitude of a finite value in units of 2^-149; subnormals are kept (00_scope.md R20). For ∞ the same formula gives
2^277 units, above every finite value, so that comparisons rank it rightly. -/
def magUnits (w : Word) : Nat :=
  if expField w = 0 then fracField w else (2 ^ 23 + fracField w) * 2 ^ (expField w - 1)

/-- The signed value in units of 2^-149. -/
def units (w : Word) : Int := if signBit w then -(magUnits w : Int) else (magUnits w : Int)

/-- The word with this sign and these magnitude bits 30:0. -/
def pack (neg : Bool) (mag : Nat) : Word := BitVec.ofNat 32 ((if neg then 2 ^ 31 else 0) + mag)

/-- num / den rounded to an integer, to nearest with ties to even. -/
def roundHalfEven (num den : Nat) : Nat :=
  let q := num / den
  let r := num % den
  if 2 * r < den then q else if den < 2 * r then q + 1 else if q % 2 = 0 then q else q + 1

/-- The magnitude bits of num / den units rounded to binary32, to nearest with ties to even; overflow gives ∞
(00_scope.md R18). With 24 significant bits kept above exponent `e`, the rounded significand added to e·2^23 is the encoding,
a carry into the next binade included; below the normal range e is 0 and the encoding is the number of units (R20). -/
def roundMag (num den : Nat) : Nat :=
  let e := Nat.log2 (num / den) - 23
  min (e * 2 ^ 23 + roundHalfEven num (den * 2 ^ e)) infMag

/-- IEEE 754 addition (00_scope.md R18, R21). An exactly zero sum of operands with opposite signs is +0. -/
def fadd (a b : Word) : Word :=
  if isNaN a || isNaN b then nan32
  else if isInf a then (if isInf b && (signBit a != signBit b) then nan32 else a)
  else if isInf b then b
  else
    let z := units a + units b
    if z = 0 then pack (signBit a && signBit b) 0
    else pack (z < 0) (roundMag z.natAbs 1)

/-- Inverts bit 31 of a non-NaN operand; a NaN gives the canonical NaN (00_scope.md R23). -/
def fneg (a : Word) : Word := if isNaN a then nan32 else a ^^^ 0x80000000

/-- IEEE 754 subtraction (00_scope.md R18): a − b = a + (−b). -/
def fsub (a b : Word) : Word := fadd a (fneg b)

/-- IEEE 754 multiplication (00_scope.md R18, R21). -/
def fmul (a b : Word) : Word :=
  let neg := signBit a != signBit b
  if isNaN a || isNaN b then nan32
  else if isInf a || isInf b then (if isZero a || isZero b then nan32 else pack neg infMag)
  else pack neg (roundMag (magUnits a * magUnits b) (2 ^ 149))

/-- IEEE 754 division (00_scope.md R18, R21). -/
def fdiv (a b : Word) : Word :=
  let neg := signBit a != signBit b
  if isNaN a || isNaN b then nan32
  else if isInf a then (if isInf b then nan32 else pack neg infMag)
  else if isInf b then pack neg 0
  else if isZero b then (if isZero a then nan32 else pack neg infMag)
  else pack neg (roundMag (magUnits a * 2 ^ 149) (magUnits b))

/-- The quiet comparison a < b (00_scope.md R22): false with a NaN, and +0 = −0. -/
def flt (a b : Word) : Bool := !isNaN a && !isNaN b && decide (units a < units b)

/-- a > b (00_scope.md R22). -/
def fgt (a b : Word) : Bool := flt b a

/-- a ≤ b: a < b or a = b (00_scope.md R22). -/
def fle (a b : Word) : Bool := !isNaN a && !isNaN b && decide (units a ≤ units b)

/-- num / den, negated when `neg`, rounded to binary32: a decimal literal (30_encoding.md R141). -/
def f32OfRatio (neg : Bool) (num den : Nat) : Word := pack neg (roundMag (num * 2 ^ 149) den)

/-- An integer converted to binary32 (00_scope.md R26). -/
def f32 (k : Nat) : Word := f32OfRatio false k 1

/-- A function of the build: the result its table gives, else the open constant's (00_scope.md R24; log entry 2). -/
def applyTable (table : List (Word × Word)) (rest : Word → Word) (x : Word) : Word :=
  match table.find? (fun e => e.1 == x) with
  | some e => e.2
  | none => rest x

/-- Tan (00_scope.md R24). -/
def tan32 (b : Build) (x : Word) : Word := applyTable b.tanTable Config.tan x

/-- Exp (00_scope.md R24). -/
def exp32 (b : Build) (x : Word) : Word := applyTable b.expTable Config.exp x

/-- Ln (00_scope.md R24). -/
def ln32 (b : Build) (x : Word) : Word := applyTable b.lnTable Config.ln x

end Sys2Proof.Machine
end

