-- ==== Sys2Proof/Machine/Operands.lean ====
section
/-! DEFINITION. The operand forms of a command: the bands its PATH and BAND fields select, the registers it reads
(30_encoding.md R138), and the checks that come before any write (60_exceptions.md R284). -/

namespace Sys2Proof.Machine

/-- `paths(PATH)`, in the order a rule acts on them: MOD first (00_scope.md R27). -/
def pathsOf : PathSel → List Path
  | .mod => [.mod]
  | .car => [.car]
  | .both => [.mod, .car]

/-- Band i of each selected path. -/
def targets (p : PathSel) (i : Nat) : List (Path × Nat) := (pathsOf p).map (fun q => (q, i))

/-- Bands 0 .. n−1 of each selected path: MOD before CAR, then ascending i (40_biquad.md R162; 41_filterbank.md R200). -/
def bankTargets (p : PathSel) (n : Nat) : List (Path × Nat) :=
  (pathsOf p).flatMap (fun q => (List.range n).map (fun i => (q, i)))

/-- (p << 8) | i, the information word that names a band (60_exceptions.md R281). -/
def bandInfo (t : Path × Nat) : Word := BitVec.ofNat 32 (pathNum t.1 * 256 + t.2)

/-- (OFF << 16) | LEN, the information word of E_BLOCK_RANGE (60_exceptions.md R281). -/
def windowInfo (s : State) : Word := (s.blkOff.setWidth 16) ++ (s.blkLen.setWidth 16)

/-- The information word of E_CFG_RANGE for the command's own arguments (60_exceptions.md R281). -/
def argInfo : Word := 0x0000FFFF

/-- The last decode check, then the rest of the command on the band index: E_BAND_RANGE(BAND) when BAND ≥ N
(30_encoding.md R130, R136; compared as unsigned integers, 60_exceptions.md R283). -/
def withBand (band : BitVec 8) (s : State) (run : Nat → Host.Outcome State Fault Refusal) :
    Host.Outcome State Fault Refusal :=
  if s.build.n ≤ band.toNat then raise .bandRange (band.setWidth 32) s else run band.toNat

/-- The first of the bands that is configured (40_biquad.md R162). -/
def firstConfigured (ts : List (Path × Nat)) (s : State) : Option (Path × Nat) :=
  ts.find? (fun t => (s.band t.1 t.2).conf)

/-- The first of the bands that is not configured (40_biquad.md R180; 42_engine.md R240). -/
def firstUnconfigured (ts : List (Path × Nat)) (s : State) : Option (Path × Nat) :=
  ts.find? (fun t => !(s.band t.1 t.2).conf)

/-- E_LOCKED when one of the bands is configured, else the rest of the command (40_biquad.md R162). -/
def ifUnlocked (ts : List (Path × Nat)) (s : State) (run : Host.Outcome State Fault Refusal) :
    Host.Outcome State Fault Refusal :=
  match firstConfigured ts s with
  | some t => raise .locked (bandInfo t) s
  | none => run

/-- E_UNCONFIGURED when one of the bands is not configured, else the rest of the command (40_biquad.md R180). -/
def ifConfigured (ts : List (Path × Nat)) (s : State) (run : Host.Outcome State Fault Refusal) :
    Host.Outcome State Fault Refusal :=
  match firstUnconfigured ts s with
  | some t => raise .unconfigured (bandInfo t) s
  | none => run

/-- LEN ≥ 2 and OFF + LEN ≤ FRAMES, on unbounded integers (40_biquad.md R180; 60_exceptions.md R283). -/
def windowOk (s : State) : Bool :=
  2 ≤ s.blkLen.toNat && s.blkOff.toNat + s.blkLen.toNat ≤ s.build.frames

end Sys2Proof.Machine
end

