-- ==== Sys2Proof/Machine/Biquad.lean ====
section
/-! DEFINITION. The biquad filter commands SET_BANDPASS, WRITE_COEF and FILTER (40_biquad.md). -/

namespace Sys2Proof.Machine

/-! ### Configuration -/

/-- `BandpassValid(fc, q, fs)` (40_biquad.md R161). -/
def bandpassValid (fc q fs : Word) : Bool :=
  isFinite fs && fgt fs 0 && fgt fc 0 && flt fc (fmul fs half32) && isFinite q && fgt q 0

/-- `Bandpass(fc, q, fs)`: the operations of 40_biquad.md R163, one rounding each, with the build's Tan. -/
def bandpass (b : Build) (fc q fs : Word) : Coef :=
  let t := fdiv (fmul pi32 fc) fs
  let w0 := tan32 b t
  let wq := fdiv w0 q
  let w2 := fmul w0 w0
  let norm := fdiv one32 (fadd (fadd one32 wq) w2)
  let a0 := fmul wq norm
  let b1 := fmul (fmul two32 (fsub w2 one32)) norm
  let b2 := fmul (fadd (fsub one32 wq) w2) norm
  ⟨a0, 0, fneg a0, b1, b2⟩

/-- COEF[p][i] <- c and CONF[p][i] <- 1; ST is unchanged (40_biquad.md R160, R170). -/
def configure (t : Path × Nat) (c : Coef) (s : State) : State :=
  s.setBand t.1 t.2 { s.band t.1 t.2 with coef := c, conf := true }

/-- Configure several bands, each with the coefficients of its index. -/
def configureAll (ts : List (Path × Nat)) (c : Nat → Coef) (s : State) : State :=
  ts.foldl (fun s t => configure t (c t.2) s) s

/-- SET_BANDPASS.P i (40_biquad.md R160): the lock of every target, then the validity of the arguments, then the writes. -/
def execSetBandpass (path : PathSel) (band : BitVec 8) (s : State) : Host.Outcome State Fault Refusal :=
  withBand band s fun i =>
    ifUnlocked (targets path i) s <|
      if bandpassValid s.arg0 s.arg1 s.fs then
        .next (configureAll (targets path i) (fun _ => bandpass s.build s.arg0 s.arg1 s.fs) s)
      else raise .cfgRange argInfo s

/-- WRITE_COEF.P i (40_biquad.md R170): bit-exact copies of the staging registers, whose values are not checked. -/
def execWriteCoef (path : PathSel) (band : BitVec 8) (s : State) : Host.Outcome State Fault Refusal :=
  withBand band s fun i =>
    ifUnlocked (targets path i) s <| .next (configureAll (targets path i) (fun _ => s.stg) s)

/-! ### Filtering -/

/-- One sample of the recurrence: the five products and four sums of 40_biquad.md R181, in its order. -/
def biquadOut (c : Coef) (st : FiltState) (x : Word) : Word :=
  let acc := fmul c.a0 x
  let acc := fadd acc (fmul c.a1 st.x1)
  let acc := fadd acc (fmul c.a2 st.x2)
  let acc := fsub acc (fmul c.b1 st.y1)
  fsub acc (fmul c.b2 st.y2)

/-- The carried values after one sample (40_biquad.md R181). -/
def biquadNext (c : Coef) (st : FiltState) (x : Word) : FiltState :=
  ⟨x, st.x1, biquadOut c st x, st.y1⟩

/-- The outputs for a run of input samples, in ascending order. -/
def biquadOuts (c : Coef) (st : FiltState) : List Word → List Word
  | [] => []
  | x :: xs => biquadOut c st x :: biquadOuts c (biquadNext c st x) xs

/-- The carried values after a run of input samples. -/
def biquadState (c : Coef) (st : FiltState) (xs : List Word) : FiltState := xs.foldl (biquadNext c) st

/-- `FilterWindow(p, i, off, len)` (40_biquad.md R181). The rule reads IN and writes SCR, which are different bytes, so
reading the whole window before writing it changes nothing. -/
def filterWindow (t : Path × Nat) (off len : Nat) (s : State) : State :=
  let b := s.band t.1 t.2
  let xs := s.inBlock t.1 off len
  (s.setBand t.1 t.2 { b with st := biquadState b.coef b.st xs }).storeScr t.1 t.2 off (biquadOuts b.coef b.st xs)

/-- FilterWindow over the same window for several bands, in order. -/
def filterAll (ts : List (Path × Nat)) (off len : Nat) (s : State) : State :=
  ts.foldl (fun s t => filterWindow t off len s) s

/-- FILTER.P i (40_biquad.md R180): every target configured, then the window's range, then the filtering, MOD first. -/
def execFilter (path : PathSel) (band : BitVec 8) (s : State) : Host.Outcome State Fault Refusal :=
  withBand band s fun i =>
    ifConfigured (targets path i) s <|
      if windowOk s then .next (filterAll (targets path i) s.blkOff.toNat s.blkLen.toNat s)
      else raise .blockRange (windowInfo s) s

end Sys2Proof.Machine
end

