-- ==== Sys2Proof/Machine/Engine.lean ====
section
/-! DEFINITION. The engine pipeline commands ENVELOPE, MODULATE, MIX, MAKEUP, GENERATE and CLEAR_OUT (42_engine.md). -/

namespace Sys2Proof.Machine

/-! ### Step 2: the envelope -/

/-- One sample of `Peak`: replace the running peak only when the sample is greater (42_engine.md R221). -/
def peakStep (e x : Word) : Word := if fgt x e then x else e

/-- `Peak(s[0 .. L−1])`, from +0.0 in ascending order (42_engine.md R221). -/
def peak (xs : List Word) : Word := xs.foldl peakStep 0

/-- ENV[i] <- Peak(SCR[MOD][i]) (42_engine.md R220). -/
def envelopeBand (i : Nat) (s : State) : State := s.setEnv i (peak (s.scrBlock .mod i))

/-- ENVELOPE i (42_engine.md R220): it reads no coefficients, so CONF is not checked. -/
def execEnvelope (band : BitVec 8) (s : State) : Host.Outcome State Fault Refusal :=
  withBand band s fun i => .next (envelopeBand i s)

/-! ### Step 3: modulation -/

/-- SCR[CAR][i][n] <- SCR[CAR][i][n] · ENV[i] for every sample (42_engine.md R225). -/
def modulateBand (i : Nat) (s : State) : State :=
  s.storeScr .car i 0 ((s.scrBlock .car i).map (fun x => fmul x (s.envAt i)))

/-- MODULATE i (42_engine.md R225): CONF is not checked. -/
def execModulate (band : BitVec 8) (s : State) : Host.Outcome State Fault Refusal :=
  withBand band s fun i => .next (modulateBand i s)

/-! ### Step 4: mixing -/

/-- OUT[n] with every carrier band added one at a time, in ascending band order (42_engine.md R230). -/
def mixSample (s : State) (n : Nat) : Word :=
  (List.range s.build.n).foldl (fun acc i => fadd acc (s.scr .car i n)) (s.out n)

/-- OUT[n] <- the mix, for every sample (42_engine.md R230). -/
def mixOut (s : State) : State := s.storeOut ((List.range s.build.frames).map (mixSample s))

/-- MIX (42_engine.md R230). -/
def execMix (s : State) : Host.Outcome State Fault Refusal := .next (mixOut s)

/-! ### Step 5: makeup gain -/

/-- g = G / N, computed first (42_engine.md R233). -/
def makeupGain (b : Build) : Word := fdiv b.g (f32 b.n)

/-- OUT[n] <- OUT[n] · g for every sample (42_engine.md R233). -/
def makeupOut (s : State) : State := s.storeOut (s.outBlock.map (fun x => fmul x (makeupGain s.build)))

/-- MAKEUP (42_engine.md R233). -/
def execMakeup (s : State) : Host.Outcome State Fault Refusal := .next (makeupOut s)

/-! ### The whole pipeline -/

/-- Step 1 for one band: MOD, then CAR, over the whole block (42_engine.md R240). -/
def filterBand (i : Nat) (s : State) : State :=
  filterWindow (.car, i) 0 s.build.frames (filterWindow (.mod, i) 0 s.build.frames s)

/-- An operation on each band index 0 .. n−1, ascending. -/
def eachBand (n : Nat) (op : Nat → State → State) (s : State) : State := (List.range n).foldl (fun s i => op i s) s

/-- Steps 1 to 5 (42_engine.md R240). -/
def generateBlock (s : State) : State :=
  let s1 := eachBand s.build.n filterBand s
  let s2 := eachBand s.build.n envelopeBand s1
  let s3 := eachBand s.build.n modulateBand s2
  makeupOut (mixOut s3)

/-- GENERATE (42_engine.md R240): every band of MOD, then of CAR, must be configured. BLKOFF and BLKLEN are not used. -/
def execGenerate (s : State) : Host.Outcome State Fault Refusal :=
  ifConfigured (bankTargets .both s.build.n) s <| .next (generateBlock s)

/-- OUT[n] <- +0.0 for every sample (42_engine.md R245). -/
def clearOut (s : State) : State := s.storeOut (List.replicate s.build.frames 0)

/-- CLEAR_OUT (42_engine.md R245). -/
def execClearOut (s : State) : Host.Outcome State Fault Refusal := .next (clearOut s)

end Sys2Proof.Machine
end

