-- ==== Sys2Proof/Machine/FilterBank.lean ====
section
/-! DEFINITION. Filter bank construction, BUILD_BANK (41_filterbank.md). -/

namespace Sys2Proof.Machine

/-- `RangeValid(low, high, fs)` (41_filterbank.md R202). -/
def rangeValid (low high fs : Word) : Bool :=
  isFinite low && isFinite high && isFinite fs && fgt low 0 && flt low high && fgt fs 0

/-- Δ = (logHigh − logLow) / N (41_filterbank.md R203). -/
def bankStep (b : Build) (low high : Word) : Word := fdiv (fsub (ln32 b high) (ln32 b low)) (f32 b.n)

/-- exp(logLow + k·Δ): the lower edge of band k and the upper edge of band k − 1 (41_filterbank.md R203, R205). -/
def bankEdge (b : Build) (low high : Word) (k : Nat) : Word :=
  exp32 b (fadd (ln32 b low) (fmul (f32 k) (bankStep b low high)))

/-- fc[i] = (from + to) / 2 (41_filterbank.md R203). -/
def bankCenter (b : Build) (low high : Word) (i : Nat) : Word :=
  fdiv (fadd (bankEdge b low high i) (bankEdge b low high (i + 1))) two32

/-- Q[i] = 2 · (fc / (to − from)) (41_filterbank.md R203). -/
def bankQ (b : Build) (low high : Word) (i : Nat) : Word :=
  fmul two32 (fdiv (bankCenter b low high i) (fsub (bankEdge b low high (i + 1)) (bankEdge b low high i)))

/-- The computed arguments of band i satisfy BandpassValid (41_filterbank.md R204). -/
def bankBandValid (b : Build) (low high fs : Word) (i : Nat) : Bool :=
  bandpassValid (bankCenter b low high i) (bankQ b low high i) fs

/-- The coefficients of band i (41_filterbank.md R200). -/
def bankCoef (b : Build) (low high fs : Word) (i : Nat) : Coef :=
  bandpass b (bankCenter b low high i) (bankQ b low high i) fs

/-- BUILD_BANK.P (41_filterbank.md R200): every lock, then the range, then every band's arguments, then the writes. -/
def execBuildBank (path : PathSel) (s : State) : Host.Outcome State Fault Refusal :=
  ifUnlocked (bankTargets path s.build.n) s <|
    if rangeValid s.arg0 s.arg1 s.fs then
      match (List.range s.build.n).find? (fun i => !bankBandValid s.build s.arg0 s.arg1 s.fs i) with
      | some i => raise .cfgRange (BitVec.ofNat 32 i) s
      | none => .next (configureAll (bankTargets path s.build.n) (bankCoef s.build s.arg0 s.arg1 s.fs) s)
    else raise .cfgRange argInfo s

end Sys2Proof.Machine
end

