-- ==== Sys2Proof/Machine/Dispatch.lean ====
section
/-! DEFINITION. The meaning of each command, one arm per constructor (30_encoding.md R133). -/

namespace Sys2Proof.Machine

def exec (i : Instr) (s : State) : Host.Outcome State Fault Refusal :=
  match i with
  | .nop => Sys2Proof.Machine.execNop s
  | .setBandpass path band => Sys2Proof.Machine.execSetBandpass path band s
  | .writeCoef path band => Sys2Proof.Machine.execWriteCoef path band s
  | .filter path band => Sys2Proof.Machine.execFilter path band s
  | .buildBank path => Sys2Proof.Machine.execBuildBank path s
  | .envelope band => Sys2Proof.Machine.execEnvelope band s
  | .modulate band => Sys2Proof.Machine.execModulate band s
  | .mix => Sys2Proof.Machine.execMix s
  | .makeup => Sys2Proof.Machine.execMakeup s
  | .generate => Sys2Proof.Machine.execGenerate s
  | .clearOut => Sys2Proof.Machine.execClearOut s

end Sys2Proof.Machine
end

