-- ==== Sys2Proof/Machine/Flags.lean ====
section
/-! DEFINITION. VCORE's only flags: the STATUS bits, computed from other state, and the fields of ERR (10_state.md R45, R47,
R65), with the cause codes (60_exceptions.md R280) and the interrupt output (R290). -/

namespace Sys2Proof.Machine

/-- The cause codes of 60_exceptions.md R280. -/
def ErrCode.code : ErrCode → BitVec 8
  | .illegalOp => 0x01
  | .reservedField => 0x02
  | .bandRange => 0x03
  | .locked => 0x04
  | .unconfigured => 0x05
  | .cfgRange => 0x06
  | .blockRange => 0x07
  | .bus => 0x08

/-- ERR.CAUSE: 0 means no error is pending (10_state.md R47). -/
def causeCode : Option ErrCode → BitVec 8
  | none => 0
  | some c => c.code

/-- STATUS.ERRPEND: ERR.CAUSE ≠ 0 (10_state.md R45). -/
def State.errPend (s : State) : Bool := s.errCause.isSome

/-- STATUS.MOD_READY and STATUS.CAR_READY: every band of the path is configured (10_state.md R45). -/
def State.ready (s : State) (p : Path) : Bool := (List.range s.build.n).all (fun i => (s.band p i).conf)

/-- The interrupt output: CTRL.IRQ_EN ∧ ERR.CAUSE ≠ 0 (10_state.md R64; 60_exceptions.md R290). -/
def State.irq (s : State) : Bool := s.irqEn && s.errPend

/-- STATUS: bit 0 ERRPEND, bit 1 MOD_READY, bit 2 CAR_READY, bit 3 IRQ, bits 31:4 zero (10_state.md R45). -/
def statusWord (s : State) : Word :=
  (0 : BitVec 28) ++ BitVec.ofBool s.irq ++ BitVec.ofBool (s.ready .car) ++ BitVec.ofBool (s.ready .mod) ++
    BitVec.ofBool s.errPend

/-- ERR: bits 7:0 CAUSE, bit 8 OVF, bits 31:9 zero (10_state.md R47). -/
def errWord (s : State) : Word := (0 : BitVec 23) ++ BitVec.ofBool s.errOvf ++ causeCode s.errCause

end Sys2Proof.Machine
end

