-- ==== Sys2Proof/Machine/Bus.lean ====
section
/-! DEFINITION. The address map and the bus transactions (10_state.md, 20_memory.md), executing a command word
(30_encoding.md R130), and serving one event of the port. -/

namespace Sys2Proof.Machine

/-! ### The address map -/

/-- A word of a band's file (10_state.md R60). -/
inductive BandReg where
  | a0 | a1 | a2 | b1 | b2 | x1 | x2 | y1 | y2 | bstat
deriving DecidableEq, Repr, Inhabited

/-- A staging register (10_state.md R55). -/
inductive StgReg where
  | a0 | a1 | a2 | b1 | b2
deriving DecidableEq, Repr, Inhabited

/-- What an aligned offset of the window names (10_state.md, register table and R60 to R63; 20_memory.md R110). -/
inductive Loc where
  | id | cfg | ctrl | status | cmd | err | errCmd | errInfo | arg0 | arg1 | fs | gain | blkOff | blkLen
  | stg (k : StgReg)
  | env (i : Nat)
  | bandWord (p : Path) (i : Nat) (k : BandReg)
  | inp (p : Path) (n : Nat)
  | out (n : Nat)
  | scr (p : Path) (i n : Nat)
  | reserved
deriving DecidableEq, Repr, Inhabited

/-- The control registers and their offsets (10_state.md, register table). -/
def controlRegs : List (Nat × Loc) :=
  [(0x000, .id), (0x004, .cfg), (0x008, .ctrl), (0x00C, .status), (0x010, .cmd), (0x014, .err), (0x018, .errCmd),
   (0x01C, .errInfo), (0x020, .arg0), (0x024, .arg1), (0x028, .fs), (0x02C, .gain), (0x030, .blkOff), (0x034, .blkLen)] ++
  [(0x040, .stg .a0), (0x044, .stg .a1), (0x048, .stg .a2), (0x04C, .stg .b1), (0x050, .stg .b2)]

/-- The words of a band's file and their offsets in it (10_state.md R60). -/
def bandRegs : List (Nat × BandReg) :=
  [(0x00, .a0), (0x04, .a1), (0x08, .a2), (0x0C, .b1), (0x10, .b2), (0x14, .x1), (0x18, .x2), (0x1C, .y1), (0x20, .y2),
   (0x24, .bstat)]

/-- The control region 0x00000–0x00FFF: the registers, ENV[i] at 0x100 + 4·i, the rest reserved. -/
def locateControl (b : Build) (a : Nat) : Loc :=
  match controlRegs.find? (fun e => e.1 == a) with
  | some e => e.2
  | none =>
    if 0x100 ≤ a ∧ (a - 0x100) / 4 < b.n then .env ((a - 0x100) / 4) else .reserved

/-- A band file region: 0x40 bytes a band, the slots of bands N .. 63 reserved (10_state.md R60). `r` is the offset in the
region. -/
def locateBand (b : Build) (p : Path) (r : Nat) : Loc :=
  match bandRegs.find? (fun e => e.1 == r % 0x40) with
  | some e => if r / 0x40 < b.n then .bandWord p (r / 0x40) e.2 else .reserved
  | none => .reserved

/-- A scratch region: 1024 words a band; slots with i ≥ N or n ≥ FRAMES reserved (10_state.md R61). `r` is the offset in
the region. -/
def locateScr (b : Build) (p : Path) (r : Nat) : Loc :=
  let i := r / 4 / Config.framesMax
  let n := r / 4 % Config.framesMax
  if i < b.n ∧ n < b.frames then .scr p i n else .reserved

/-- The address map (20_memory.md R110), on the offset of an aligned word. -/
def locate (b : Build) (addr : BitVec 20) : Loc :=
  let a := addr.toNat
  if a < 0x01000 then locateControl b a
  else if a < 0x02000 then locateBand b .mod (a - 0x01000)
  else if a < 0x03000 then locateBand b .car (a - 0x02000)
  else if a < 0x04000 then .reserved
  else if a < 0x05000 then (if (a - 0x04000) / 4 < b.frames then .inp .mod ((a - 0x04000) / 4) else .reserved)
  else if a < 0x06000 then (if (a - 0x05000) / 4 < b.frames then .inp .car ((a - 0x05000) / 4) else .reserved)
  else if a < 0x07000 then (if (a - 0x06000) / 4 < b.frames then .out ((a - 0x06000) / 4) else .reserved)
  else if a < 0x40000 then .reserved
  else if a < 0x80000 then locateScr b .mod (a - 0x40000)
  else if a < 0xC0000 then locateScr b .car (a - 0x80000)
  else .reserved

/-- A transaction is misaligned when addr[1:0] ≠ 0 (20_memory.md R103). -/
def misaligned (addr : BitVec 20) : Bool := addr.extractLsb' 0 2 != 0

/-! ### Reading -/

/-- CFG: bits 7:0 N, bits 19:8 FRAMES, bits 31:20 zero (10_state.md R42). -/
def cfgWord (b : Build) : Word := (0 : BitVec 12) ++ BitVec.ofNat 12 b.frames ++ BitVec.ofNat 8 b.n

/-- A word of a band's file; BSTAT is CONF in bit 0 (10_state.md R60). -/
def bandWord (b : Band) : BandReg → Word
  | .a0 => b.coef.a0
  | .a1 => b.coef.a1
  | .a2 => b.coef.a2
  | .b1 => b.coef.b1
  | .b2 => b.coef.b2
  | .x1 => b.st.x1
  | .x2 => b.st.x2
  | .y1 => b.st.y1
  | .y2 => b.st.y2
  | .bstat => (BitVec.ofBool b.conf).setWidth 32

/-- A staging register (10_state.md R55). -/
def stgWord (c : Coef) : StgReg → Word
  | .a0 => c.a0
  | .a1 => c.a1
  | .a2 => c.a2
  | .b1 => c.b1
  | .b2 => c.b2

/-- The current value of a location, with its unimplemented bits as 0; a reserved one reads 0 (20_memory.md R104). -/
def readLoc (s : State) : Loc → Word
  | .id => 0x564F4331
  | .cfg => cfgWord s.build
  | .ctrl => (BitVec.ofBool s.irqEn).setWidth 32
  | .status => statusWord s
  | .cmd => s.cmd
  | .err => errWord s
  | .errCmd => s.errCmd
  | .errInfo => s.errInfo
  | .arg0 => s.arg0
  | .arg1 => s.arg1
  | .fs => s.fs
  | .gain => s.build.g
  | .blkOff => s.blkOff.setWidth 32
  | .blkLen => s.blkLen.setWidth 32
  | .stg k => stgWord s.stg k
  | .env i => s.envAt i
  | .bandWord p i k => bandWord (s.band p i) k
  | .inp p n => s.inp p n
  | .out n => s.out n
  | .scr p i n => s.scr p i n
  | .reserved => 0

/-- The word `MemRead(addr, 4)` returns (20_memory.md R103, R104). -/
def readWord (s : State) (addr : BitVec 20) : Word :=
  if misaligned addr then 0 else readLoc s (locate s.build addr)

/-- `MemRead(addr, 4)`: the word goes back over the port; only a misaligned read changes the state, by the capture of
E_BUS(addr) with 0 in ERRCMD (20_memory.md R103, R104; 60_exceptions.md R281). -/
def busRead (addr : BitVec 20) (s : State) : Host.Outcome State Fault Refusal :=
  let s' := { s with reply := .data (readWord s addr) }
  if misaligned addr then .next (capture .bus 0 (addr.setWidth 32) s') else .next s'

/-! ### Writing -/

/-- `Execute(w)` (30_encoding.md R130): the decode checks, then the command. `s` already holds w in CMD. -/
def execute (w : Word) (s : State) : Host.Outcome State Fault Refusal :=
  match decode w with
  | .error .illegalOp => raise .illegalOp 0 s
  | .error .reservedField => raise .reservedField 0 s
  | .ok i => exec i s

/-- A staging register <- v (10_state.md R55). -/
def setStg (c : Coef) (k : StgReg) (v : Word) : Coef :=
  match k with
  | .a0 => { c with a0 := v }
  | .a1 => { c with a1 := v }
  | .a2 => { c with a2 := v }
  | .b1 => { c with b1 := v }
  | .b2 => { c with b2 := v }

/-- The effect of an aligned write of v at a location (20_memory.md R105). CTRL with bit 1 set is the soft reset, whatever
the other bits hold (43_control.md R262). A write to a read-only or reserved location is ignored (10_state.md R69). -/
def writeLoc (l : Loc) (v : Word) (s : State) : Host.Outcome State Fault Refusal :=
  match l with
  | .ctrl => if v.getLsbD 1 then .next (resetCore s) else .next { s with irqEn := v.getLsbD 0 }
  | .cmd => execute v { s with cmd := v }
  | .err => .next (clearErr s)
  | .arg0 => .next { s with arg0 := v }
  | .arg1 => .next { s with arg1 := v }
  | .fs => .next { s with fs := v }
  | .blkOff => .next { s with blkOff := v.setWidth 11 }
  | .blkLen => .next { s with blkLen := v.setWidth 12 }
  | .stg k => .next { s with stg := setStg s.stg k v }
  | .inp p n => .next (s.setMem (Memory.storeWords s.mem (inAddr p n) [v]))
  | .out n => .next (s.setMem (Memory.storeWords s.mem (outAddr n) [v]))
  | .id => .next s
  | .cfg => .next s
  | .status => .next s
  | .errCmd => .next s
  | .errInfo => .next s
  | .gain => .next s
  | .env _ => .next s
  | .bandWord _ _ _ => .next s
  | .scr _ _ _ => .next s
  | .reserved => .next s

/-- `MemWrite(addr, 4, v)` (20_memory.md R103, R105): a misaligned write only raises E_BUS(addr), with 0 in ERRCMD. -/
def busWrite (addr : BitVec 20) (v : Word) (s : State) : Host.Outcome State Fault Refusal :=
  let s' := { s with reply := .ack }
  if misaligned addr then .next (capture .bus 0 (addr.setWidth 32) s') else writeLoc (locate s.build addr) v s'

/-- Serve one event of the port, with the whole of any command it starts (20_memory.md R100; 70_reset_and_hazards.md R310). -/
def serve (e : PortEvent) (s : State) : Host.Outcome State Fault Refusal :=
  match e with
  | .read addr => busRead addr s
  | .write addr v => busWrite addr v s
  | .rst => .next (resetCore { s with reply := .idle })

/-! ### The platform's view -/

/-- The effective address of an offset: BASE + addr, the only addressing mode (20_memory.md R101). -/
def effectiveAddress (addr : BitVec 20) : Nat := Config.base + addr.toNat

/-- The offset a platform address decodes to, when it lies in the window BASE .. BASE + 0xFFFFF (20_memory.md R101). -/
def offsetOf (a : Nat) : Option (BitVec 20) :=
  if Config.base ≤ a ∧ a < Config.base + 2 ^ 20 then some (BitVec.ofNat 20 (a - Config.base)) else none

/-- The byte at BASE + k of a window presented as bytes: bits 8j+7 .. 8j of word k / 4, with j = k mod 4
(20_memory.md R108). -/
def windowByte (s : State) (k : BitVec 20) : Byte :=
  (readWord s (k &&& 0xFFFFC)).extractLsb' (8 * (k.toNat % 4)) 8

end Sys2Proof.Machine
end

