-- ==== Sys2Proof/Machine/Step.lean ====
section
/-! DEFINITION. One step of the machine: the oldest event at the port is served to its end (00_scope.md R28;
20_memory.md R100, R106). -/

namespace Sys2Proof.Machine

/-- With nothing at the port VCORE does nothing (60_exceptions.md R300). -/
def step (s : State) : Host.Outcome State Fault Refusal :=
  match takeEvent s with
  | none => .next s
  | some (e, s') => serve e s'

/-- `s` with the command word `w` as the next transaction of the port: a MemWrite to CMD (30_encoding.md R130; log entry 5).
The bits above `nbits` are 0. -/
def State.withFetchWord (s : State) (nbits w : Nat) : State :=
  { s with port := .write 0x010 (BitVec.ofNat 32 (w % 2 ^ nbits)) :: s.port }

end Sys2Proof.Machine
end

