-- ==== Sys2Proof/Machine/Asm.lean ====
section
/-! DEFINITION. The assembly syntax of host programs as data, one constructor per form of line, and what it expands to
(30_encoding.md R139 to R141). The text of a line and its comment are not modelled (log entry 16). -/

namespace Sys2Proof.Machine

/-- A decimal literal: ± num / den, with den a power of ten (30_encoding.md R141). -/
structure Decimal where
  neg : Bool
  num : Nat
  den : Nat
deriving DecidableEq, Repr, Inhabited

/-- The literal rounded to binary32 with ties to even (30_encoding.md R141). -/
def Decimal.bits (f : Decimal) : Word := f32OfRatio f.neg f.num f.den

/-- A line of a host program (30_encoding.md R139 to R141). -/
inductive AsmLine where
  /-- `wr <offset>, <word>`. -/
  | wr (offset : BitVec 20) (word : Word)
  /-- `rd <offset>`. -/
  | rd (offset : BitVec 20)
  /-- `<mnemonic>[.<path>] [<band>]`. -/
  | command (op : Op) (path : Option PathSel) (band : Option Nat)
  /-- `wrf R, f`. -/
  | wrf (offset : BitVec 20) (f : Decimal)
  /-- `bandpass.P i, fc, q`. -/
  | bandpass (path : PathSel) (band : Nat) (fc q : Decimal)
  /-- `coef.P i, a0, a1, a2, b1, b2`. -/
  | coef (path : PathSel) (band : Nat) (a0 a1 a2 b1 b2 : Decimal)
  /-- `bank.P low, high`. -/
  | bank (path : PathSel) (low high : Decimal)
  /-- `window off, len`. -/
  | window (off len : Word)
  /-- `load.mod k, v0, v1, …` and `load.car k, v0, v1, …`. -/
  | load (p : Path) (k : Nat) (vs : List Decimal)
  /-- `clrerr`. -/
  | clrerr
  /-- `irqen`. -/
  | irqen
  /-- `srst`. -/
  | srst
deriving DecidableEq, Repr

/-- A host program: lines in order, with `repeat k` of a body, the only host-side control flow (30_encoding.md R141). -/
inductive AsmProgram where
  | done
  | line (l : AsmLine) (rest : AsmProgram)
  | repeated (k : Nat) (body rest : AsmProgram)
deriving DecidableEq, Repr

/-- The mnemonics in lower case (30_encoding.md R140). -/
def Op.mnemonic : Op → String
  | .nop => "nop"
  | .setBandpass => "set_bandpass"
  | .writeCoef => "write_coef"
  | .filter => "filter"
  | .buildBank => "build_bank"
  | .envelope => "envelope"
  | .modulate => "modulate"
  | .mix => "mix"
  | .makeup => "makeup"
  | .generate => "generate"
  | .clearOut => "clear_out"

/-- The word of a command line; none for a line that the assembler refuses: a suffix or a band missing or too many, or a
band it knows to be ≥ N (30_encoding.md R140). -/
def assembleCommand (n : Nat) (op : Op) (path : Option PathSel) (band : Option Nat) : Option Word :=
  if op.takesPath ≠ path.isSome then none
  else if op.takesBand ≠ band.isSome then none
  else if band.any (fun k => n ≤ k) then none
  else some (encode (op.instr (path.getD .mod) (BitVec.ofNat 8 (band.getD 0))))

/-- `wr CMD, w` for a command line. -/
def commandEvents (n : Nat) (op : Op) (path : Option PathSel) (band : Option Nat) : Option (List PortEvent) :=
  (assembleCommand n op path band).map (fun w => [.write 0x010 w])

/-- Writes of literals to consecutive words. -/
def loadEvents (a : Nat) : List Decimal → List PortEvent
  | [] => []
  | v :: vs => .write (BitVec.ofNat 20 a) v.bits :: loadEvents (a + 4) vs

/-- The transactions a line expands to, for a chip with `n` bands (30_encoding.md R139 to R141). -/
def assembleLine (n : Nat) : AsmLine → Option (List PortEvent)
  | .wr offset word => some [.write offset word]
  | .rd offset => some [.read offset]
  | .command op path band => commandEvents n op path band
  | .wrf offset f => some [.write offset f.bits]
  | .bandpass path band fc q =>
    (commandEvents n .setBandpass (some path) (some band)).map
      (fun c => [.write 0x020 fc.bits, .write 0x024 q.bits] ++ c)
  | .coef path band a0 a1 a2 b1 b2 =>
    (commandEvents n .writeCoef (some path) (some band)).map
      (fun c => [.write 0x040 a0.bits, .write 0x044 a1.bits, .write 0x048 a2.bits, .write 0x04C b1.bits,
        .write 0x050 b2.bits] ++ c)
  | .bank path low high =>
    (commandEvents n .buildBank (some path) none).map
      (fun c => [.write 0x020 low.bits, .write 0x024 high.bits] ++ c)
  | .window off len => some [.write 0x030 off, .write 0x034 len]
  | .load p k vs => some (loadEvents (inAddr p k) vs)
  | .clrerr => some [.write 0x014 0]
  | .irqen => some [.write 0x008 0x00000001]
  | .srst => some [.write 0x008 0x00000002]

/-- `k` copies of a list of transactions, one after another. -/
def copies (k : Nat) (es : List PortEvent) : List PortEvent := (List.replicate k es).flatten

/-- The transactions of a program; none when the assembler refuses a line, or a `repeat` whose k is not positive. -/
def assemble (n : Nat) : AsmProgram → Option (List PortEvent)
  | .done => some []
  | .line l rest =>
    match assembleLine n l, assemble n rest with
    | some es, some fs => some (es ++ fs)
    | _, _ => none
  | .repeated k body rest =>
    if k = 0 then none
    else
      match assemble n body, assemble n rest with
      | some es, some fs => some (copies k es ++ fs)
      | _, _ => none

end Sys2Proof.Machine
end

