-- ==== Sys2Proof/WellFormed.lean ====
section
/-! DEFINITION. Which builds are a VCORE (00_scope.md R9 to R11) and which commands name a band that a build has
(30_encoding.md R136). -/

namespace Sys2Proof

/-- A band index of a build with `n` bands: 0 ≤ i < N (30_encoding.md R131). -/
def bandExists (n : Nat) (band : BitVec 8) : Bool := band.toNat < n

/-- The command names only bands that a build with `n` bands has. -/
def Instr.wf (n : Nat) : Instr → Bool
  | .nop => true
  | .setBandpass _ band => bandExists n band
  | .writeCoef _ band => bandExists n band
  | .filter _ band => bandExists n band
  | .buildBank _ => true
  | .envelope band => bandExists n band
  | .modulate band => bandExists n band
  | .mix => true
  | .makeup => true
  | .generate => true
  | .clearOut => true

/-- 1 ≤ N ≤ N_MAX (00_scope.md R9, R11). -/
def Build.bandCountOk (b : Build) : Bool := 1 ≤ b.n && b.n ≤ Config.nMax

/-- 2 ≤ FRAMES ≤ FRAMES_MAX (00_scope.md R9, R10). -/
def Build.frameCountOk (b : Build) : Bool := 2 ≤ b.frames && b.frames ≤ Config.framesMax

/-- FS_RESET is finite and > 0 (00_scope.md R9): its word lies between +0.0 and +∞. -/
def Build.fsResetOk (b : Build) : Bool := 0 < b.fsReset.toNat && b.fsReset.toNat < 0x7F800000

/-- The build is a VCORE: every constraint of 00_scope.md R9 holds. -/
def Build.wf (b : Build) : Bool := b.bandCountOk && b.frameCountOk && b.fsResetOk

end Sys2Proof
end

