-- ==== Sys2Proof/Safety.lean ====
section
/-! DEFINITION. What counts as a safe run: a state whose parts belong together (`State.Inv`), steps that keep it so, and the
terms that claims about the machine are stated in. -/

namespace Sys2Proof.Machine

/-! ### The invariant -/

/-- Both paths have N bands, and there are N envelope registers (00_scope.md R11; 10_state.md R67). -/
abbrev State.SizesOk (s : State) : Prop :=
  s.modBands.length = s.build.n ∧ s.carBands.length = s.build.n ∧ s.env.length = s.build.n

/-- Byte `a` of the window belongs to a word of IN, OUT or SCR that the build implements (20_memory.md R110). -/
def bufferByte (b : Build) (a : Nat) : Bool :=
  decide (a < 2 ^ 20) &&
    match locate b (BitVec.ofNat 20 (a / 4 * 4)) with
    | .inp _ _ => true
    | .out _ => true
    | .scr _ _ _ => true
    | _ => false

/-- Memory is in canonical form and lists only bytes of implemented buffer words. -/
abbrev State.MemOk (s : State) : Prop := Memory.wf s.mem ∧ ∀ c ∈ s.mem, bufferByte s.build c.1 = true

/-- Without a pending error nothing is captured, and a bus error holds no command word (10_state.md R47, R48;
60_exceptions.md R281). -/
abbrev State.CaptureOk (s : State) : Prop :=
  (s.errCause = none → s.errOvf = false ∧ s.errCmd = 0 ∧ s.errInfo = 0) ∧ (s.errCause = some .bus → s.errCmd = 0)

/-- An unconfigured band has its reset coefficients and zero state (10_state.md R57; 40_biquad.md R166). -/
abbrev State.FreshOk (s : State) : Prop :=
  ∀ b ∈ s.modBands ++ s.carBands, b.conf = false → b = Band.reset s.build.coefReset

/-- An envelope is never NaN, never negative and never −0.0 (42_engine.md R221). -/
abbrev State.EnvOk (s : State) : Prop := s.env.all (fun e => !isNaN e && !signBit e) = true

/-- The parts of the state belong together. -/
abbrev State.Inv (s : State) : Prop :=
  s.build.wf = true ∧ s.SizesOk ∧ s.MemOk ∧ s.CaptureOk ∧ s.FreshOk ∧ s.EnvOk

/-! ### Terms of claims -/

/-- The bands are all configured. -/
abbrev State.Configured (s : State) (ts : List (Path × Nat)) : Prop := ∀ t ∈ ts, (s.band t.1 t.2).conf = true

/-- None of the bands is configured. -/
abbrev State.Unconfigured (s : State) (ts : List (Path × Nat)) : Prop := ∀ t ∈ ts, (s.band t.1 t.2).conf = false

/-- The event resets the machine: the reset input (70_reset_and_hazards.md R310), or an aligned write to CTRL with bit 1 set
(43_control.md R262). -/
def isReset : PortEvent → Bool
  | .read _ => false
  | .write addr v => addr == 0x008 && v.getLsbD 1
  | .rst => true

/-- The state without what the error capture writes and without CTRL.IRQ_EN. -/
def forgetErrors (s : State) : State :=
  { s with irqEn := false, errCause := none, errOvf := false, errCmd := 0, errInfo := 0 }

/-- The state without the port. -/
def forgetPort (s : State) : State := { s with port := [], reply := .idle }

/-- The commands one after another, each started as the write to CMD starts it but for the port. -/
def execAll : List Instr → State → Host.Outcome State Fault Refusal
  | [], s => .next s
  | i :: is, s =>
    match exec i s with
    | .next t => execAll is t
    | .fault r => .fault r
    | .refused r => .refused r

/-- The sequence GENERATE is defined to be: FILTER.BOTH 0 … N−1, ENVELOPE 0 … N−1, MODULATE 0 … N−1, MIX, MAKEUP
(42_engine.md R240). -/
def pipeline (n : Nat) : List Instr :=
  (List.range n).map (fun i => .filter .both (BitVec.ofNat 8 i)) ++
    (List.range n).map (fun i => .envelope (BitVec.ofNat 8 i)) ++
    (List.range n).map (fun i => .modulate (BitVec.ofNat 8 i)) ++ [.mix, .makeup]

/-- `f[k − d]` of a sequence f[0], f[1], … that continues one whose last two values were `last` = f[−1] and `second` = f[−2]
(40_biquad.md R181). -/
def delayed (last second : Word) (f : Nat → Word) (k d : Nat) : Word :=
  if d ≤ k then f (k - d) else if d = k + 1 then last else second

/-- A run of `k` steps that ends in a state, with neither a fault nor a refusal. -/
def State.SafeFor (k : Nat) (s : State) : Prop := ∃ t, Host.Core.run Sys2Proof.core k s = .next t

end Sys2Proof.Machine
end

