-- ==== Sys2Proof/Certificates/Slice0/Obligations.lean ====
section
/-! DEFINITION. The statements about VCORE, each with the rule of spec/ it formalises. Addresses, codes and bit positions are
written here as the spec writes them, not through the model's tables. -/

open Sys2Proof Sys2Proof.Machine

/-! ### Encoding -/

/-- The words that 30_encoding.md R140 and the examples of the command rules give, one for every command. -/
def Obligations.SpecWordsDecode : Prop :=
  decode 0x00000000#32 = .ok .nop ∧ decode 0x00001D81#32 = .ok (.setBandpass .both 29) ∧
  decode 0x00000142#32 = .ok (.writeCoef .car 1) ∧ decode 0x00000343#32 = .ok (.filter .car 3) ∧
  decode 0x00000084#32 = .ok (.buildBank .both) ∧ decode 0x00000505#32 = .ok (.envelope 5) ∧
  decode 0x00000106#32 = .ok (.modulate 1) ∧ decode 0x00000007#32 = .ok .mix ∧
  decode 0x00000008#32 = .ok .makeup ∧ decode 0x00000009#32 = .ok .generate ∧
  decode 0x0000000A#32 = .ok .clearOut

/-- Decoding the encoding of a command gives it back, for every PATH and every BAND the format admits
(30_encoding.md R131, R133). -/
def Obligations.DecodeInvertsEncode : Prop := ∀ i : Instr, decode (encode i) = .ok i

/-- Every word that decodes is the one encoding of its command: no word executes as a different command
(30_encoding.md R132, R135). -/
def Obligations.EncodeInvertsDecode : Prop := ∀ (w : Word) (i : Instr), decode w = .ok i → encode i = w

/-- `Execute(w)`'s decode checks on the fields of the word, OP = w[5:0], PATH = w[7:6], BAND = w[15:8], RSV = w[31:16]: which
words raise E_ILLEGAL_OP and which E_RESERVED_FIELD (30_encoding.md R130, R134, R135; the columns "takes PATH" and "takes BAND"
of R133). The third clause, that every other word decodes, one with BAND ≥ N too, is the model's split of R130's checks: BAND
against N is checked in `exec` (DESIGN CHOICE, log entry 8). -/
def Obligations.DecodeChecksRaise : Prop :=
  ∀ (w : Word) (s : State),
    let op := w.toNat % 64
    let path := w.toNat / 64 % 4
    let band := w.toNat / 256 % 256
    let rsv := w.toNat / 65536
    let takesPath := op = 1 ∨ op = 2 ∨ op = 3 ∨ op = 4
    let takesBand := op = 1 ∨ op = 2 ∨ op = 3 ∨ op = 5 ∨ op = 6
    let reserved := rsv ≠ 0 ∨ path = 3 ∨ (¬ takesPath ∧ path ≠ 0) ∨ (¬ takesBand ∧ band ≠ 0)
    (0x0B ≤ op → execute w s = .next (capture .illegalOp s.cmd 0 s)) ∧
    (op < 0x0B → reserved → execute w s = .next (capture .reservedField s.cmd 0 s)) ∧
    (op < 0x0B → ¬ reserved → ∃ i, decode w = .ok i ∧ execute w s = exec i s)

/-- A word selects a command by the (match, mask) pair of the opcode map, PATH = 3 apart, exactly when the decoder reads that
command from it (30_encoding.md R133). -/
def Obligations.OpcodeMapSelectsCommand : Prop :=
  ∀ r ∈ opcodeTable, ∀ w : Word,
    (w &&& r.mask = r.pattern ∧ (r.op.takesPath = true → w.toNat / 64 % 4 ≠ 3)) ↔ ∃ i, decode w = .ok i ∧ i.op = r.op

/-- Which command lines the assembler of a chip of `n` bands accepts, and so which it refuses: exactly the lines that have a path
suffix where the command takes PATH and only there, a band where it takes BAND and only there, and no band ≥ N. An accepted line
assembles to the word OP | (PATH << 6) | (BAND << 8), which decodes to that command with its path and its band
(30_encoding.md R140; the characters of a line are not modelled, log entry 16). -/
def Obligations.AssembledCommandDecodes : Prop :=
  ∀ (n : Nat) (op : Op) (path : Option PathSel) (band : Option Nat),
    let takesPath := op ∈ [.setBandpass, .writeCoef, .filter, .buildBank]
    let takesBand := op ∈ [.setBandpass, .writeCoef, .filter, .envelope, .modulate]
    let pathBits := match path with
      | none => 0
      | some .mod => 0
      | some .car => 1
      | some .both => 2
    ((∃ w, assembleCommand n op path band = some w) ↔
      ((∃ p, path = some p) ↔ takesPath) ∧ ((∃ k, band = some k) ↔ takesBand) ∧ ∀ k, band = some k → k < n) ∧
    (n ≤ 64 → ∀ w, assembleCommand n op path band = some w →
      w.toNat = op.code.toNat + 64 * pathBits + 256 * band.getD 0 ∧
      ∃ i : Instr, decode w = .ok i ∧ i.op = op ∧ i.wf n = true ∧
        (∀ p, path = some p → i.pathCode = p.code) ∧ (∀ k, band = some k → i.bandCode.toNat = k))

/-! ### The step -/

/-- A write of a word to CMD that decodes runs exactly that command, with CMD holding the word (30_encoding.md R130;
10_state.md R46). That the write is acknowledged and the transaction taken from the port is the model's port, log entries 5
and 6. -/
def Obligations.StepRunsDecodedCommand : Prop :=
  ∀ (s : State) (w : Word) (i : Instr) (rest : List PortEvent),
    s.port = .write 0x010 w :: rest → decode w = .ok i →
      step s = exec i { s with port := rest, reply := .ack, cmd := w }

/-- The port serves its events one at a time, oldest first, and with none VCORE does nothing (20_memory.md R100;
60_exceptions.md R300). The list of events is the model's port, log entry 5. -/
def Obligations.StepServesOldestEvent : Prop :=
  ∀ s : State, (s.port = [] → step s = .next s) ∧
    (∀ e rest, s.port = e :: rest → step s = serve e { s with port := rest })

/-- No run ever stops: every transaction of any host completes, an error pending or not (20_memory.md R100;
60_exceptions.md R289). A step with nothing at the port is the model's, log entry 5. -/
def Obligations.EveryRunCompletes : Prop := ∀ (k : Nat) (s : State), s.SafeFor k

/-- Every step keeps the invariant: the build stays a VCORE, the sizes fit it, memory stays canonical and inside the
implemented buffers, the error capture stays consistent, unconfigured bands stay at reset, envelopes stay legal. -/
def Obligations.StepKeepsInvariant : Prop := ∀ s t : State, s.Inv → step s = .next t → t.Inv

/-- The invariant holds at reset, for the default build and for every build that is a VCORE. -/
def Obligations.InvariantAtReset : Prop :=
  State.reset.Inv ∧ ∀ b : Build, b.wf = true → (State.resetOf b).Inv

/-! ### Errors and interrupt -/

/-- The error capture (60_exceptions.md R286). -/
def Obligations.CaptureKeepsFirstError : Prop :=
  ∀ (code : ErrCode) (cmdword info : Word) (s : State),
    (s.errCause = none →
      capture code cmdword info s = { s with errCause := some code, errCmd := cmdword, errInfo := info }) ∧
    (s.errCause ≠ none → capture code cmdword info s = { s with errOvf := true })

/-- A write to CMD leaves the word in CMD (10_state.md R46), and either leaves the error registers alone or changes nothing but
CMD and the capture of one error other than E_BUS with its word (60_exceptions.md R287; the acknowledge is the port's). -/
def Obligations.CommandErrorsArePrecise : Prop :=
  ∀ (s t : State) (w : Word), serve (.write 0x010 w) s = .next t → t.cmd = w ∧ readWord t 0x010 = w ∧
    ((t.errCause = s.errCause ∧ t.errOvf = s.errOvf ∧ t.errCmd = s.errCmd ∧ t.errInfo = s.errInfo) ∨
    (∃ code info, code ≠ .bus ∧ t = capture code w info { s with cmd := w, reply := .ack }))

/-- ClearErr: a write of any value to ERR clears ERR, ERRCMD and ERRINFO and nothing else, and irq falls
(43_control.md R263). -/
def Obligations.ErrWriteClearsCapture : Prop :=
  ∀ (s : State) (v : Word), ∃ t, serve (.write 0x014 v) s = .next t ∧
    t = { s with errCause := none, errOvf := false, errCmd := 0, errInfo := 0, reply := .ack } ∧ t.irq = false

/-- A pending error does not block later commands: from two states that differ only in the error capture and IRQ_EN, executing any
word goes to two states that differ in nothing else. With an error pending, CAUSE, ERRCMD and ERRINFO stay, a word that raises an
error, as it would with none pending, sets OVF and does nothing else, and a word that raises none leaves OVF
(60_exceptions.md R289; 10_state.md R65). -/
def Obligations.CommandsIgnorePendingErrors : Prop :=
  ∀ (w : Word) (s s' : State), forgetErrors s = forgetErrors s' →
    ∃ t t', execute w s = .next t ∧ execute w s' = .next t' ∧ forgetErrors t = forgetErrors t' ∧
      (s.errCause ≠ none → t.errCause = s.errCause ∧ t.errCmd = s.errCmd ∧ t.errInfo = s.errInfo) ∧
      (s.errCause ≠ none → s'.errCause = none →
        (t'.errCause ≠ none → t = { s with errOvf := true }) ∧ (t'.errCause = none → t.errOvf = s.errOvf))

/-- ERR reads the cause code in bits 7:0, OVF in bit 8 and 0 above (10_state.md R47), with the codes of 60_exceptions.md R280. -/
def Obligations.ErrReadsCauseAndOverflow : Prop :=
  ∀ s : State,
    (readWord s 0x014).toNat =
      (match s.errCause with
       | none => 0
       | some .illegalOp => 1
       | some .reservedField => 2
       | some .bandRange => 3
       | some .locked => 4
       | some .unconfigured => 5
       | some .cfgRange => 6
       | some .blockRange => 7
       | some .bus => 8) + (if s.errOvf then 256 else 0)

/-- STATUS: ERRPEND, MOD_READY, CAR_READY and IRQ in bits 0 to 3, and 0 above (10_state.md R45), with the level of irq
(60_exceptions.md R290). -/
def Obligations.StatusReadsItsBits : Prop :=
  ∀ s : State,
    ((readWord s 0x00C).getLsbD 0 = true ↔ s.errCause ≠ none) ∧
    ((readWord s 0x00C).getLsbD 1 = true ↔ ∀ i < s.build.n, (s.band .mod i).conf = true) ∧
    ((readWord s 0x00C).getLsbD 2 = true ↔ ∀ i < s.build.n, (s.band .car i).conf = true) ∧
    ((readWord s 0x00C).getLsbD 3 = true ↔ s.irq = true) ∧
    (∀ k, 4 ≤ k → (readWord s 0x00C).getLsbD k = false) ∧
    (s.irq = true ↔ s.irqEn = true ∧ s.errCause ≠ none)

/-- A word that decodes to a command that takes BAND, with BAND from N to 255, raises E_BAND_RANGE(BAND) and does nothing else
(30_encoding.md R136; 60_exceptions.md R281). -/
def Obligations.BandOutOfRangeRaises : Prop :=
  ∀ (p : PathSel) (b : BitVec 8) (s : State), s.build.n ≤ b.toNat →
    let raised : Host.Outcome State Fault Refusal := .next (capture .bandRange s.cmd (BitVec.ofNat 32 b.toNat) s)
    exec (.setBandpass p b) s = raised ∧ exec (.writeCoef p b) s = raised ∧ exec (.filter p b) s = raised ∧
      exec (.envelope b) s = raised ∧ exec (.modulate b) s = raised ∧
      ∀ w i, decode w = .ok i → i ∈ [.setBandpass p b, .writeCoef p b, .filter p b, .envelope b, .modulate b] →
        execute w s = raised

/-- The configuration lock: SET_BANDPASS, WRITE_COEF and BUILD_BANK raise E_LOCKED((p << 8) | i) for the first configured band
in the command's order and write nothing, whatever their arguments (40_biquad.md R162). -/
def Obligations.ConfiguredTargetIsLocked : Prop :=
  ∀ (p : PathSel) (s : State) (ts before after : List (Path × Nat)) (q : Path) (i : Nat),
    ts = before ++ (q, i) :: after → s.Unconfigured before → (s.band q i).conf = true →
    let raised : Host.Outcome State Fault Refusal := .next (capture .locked s.cmd (BitVec.ofNat 32 (pathNum q * 256 + i)) s)
    (∀ b : BitVec 8, b.toNat < s.build.n → ts = targets p b.toNat →
      exec (.setBandpass p b) s = raised ∧ exec (.writeCoef p b) s = raised) ∧
    (ts = bankTargets p s.build.n → exec (.buildBank p) s = raised)

/-- E_CFG_RANGE: SET_BANDPASS with invalid arguments, BUILD_BANK with an invalid range, and BUILD_BANK for the lowest band
whose computed arguments are invalid; nothing is written (40_biquad.md R160; 41_filterbank.md R200, R204). The arguments of a
bandpass are valid, and a range is, exactly as 40_biquad.md R161 and 41_filterbank.md R202 list it, and a NaN makes them
invalid; the computed arguments are those of BankArgs (R203). -/
def Obligations.InvalidArgumentsRaise : Prop :=
  let bandpassOk := fun fc q fs : Word =>
    isFinite fs = true ∧ fgt fs 0x00000000 = true ∧ fgt fc 0x00000000 = true ∧ flt fc (fmul fs 0x3F000000) = true ∧
      isFinite q = true ∧ fgt q 0x00000000 = true
  let rangeOk := fun low high fs : Word =>
    isFinite low = true ∧ isFinite high = true ∧ isFinite fs = true ∧ fgt low 0x00000000 = true ∧ flt low high = true ∧
      fgt fs 0x00000000 = true
  (∀ x y z : Word, isNaN x = true ∨ isNaN y = true ∨ isNaN z = true → ¬ bandpassOk x y z ∧ ¬ rangeOk x y z) ∧
  ∀ (p : PathSel) (s : State),
    let step := fdiv (fsub (ln32 s.build s.arg1) (ln32 s.build s.arg0)) (f32 s.build.n)
    let edge := fun k => exp32 s.build (fadd (ln32 s.build s.arg0) (fmul (f32 k) step))
    let fc := fun i => fdiv (fadd (edge i) (edge (i + 1))) 0x40000000
    let argsOk := fun i => bandpassOk (fc i) (fmul 0x40000000 (fdiv (fc i) (fsub (edge (i + 1)) (edge i)))) s.fs
    (∀ b : BitVec 8, b.toNat < s.build.n → s.Unconfigured (targets p b.toNat) → ¬ bandpassOk s.arg0 s.arg1 s.fs →
      exec (.setBandpass p b) s = .next (capture .cfgRange s.cmd 0x0000FFFF s)) ∧
    (s.Unconfigured (bankTargets p s.build.n) → ¬ rangeOk s.arg0 s.arg1 s.fs →
      exec (.buildBank p) s = .next (capture .cfgRange s.cmd 0x0000FFFF s)) ∧
    (∀ i < s.build.n, s.Unconfigured (bankTargets p s.build.n) → rangeOk s.arg0 s.arg1 s.fs →
      (∀ k < i, argsOk k) → ¬ argsOk i →
      exec (.buildBank p) s = .next (capture .cfgRange s.cmd (BitVec.ofNat 32 i) s))

/-- FILTER and GENERATE raise E_UNCONFIGURED((p << 8) | i) for the first unconfigured band in the command's order
(40_biquad.md R180; 42_engine.md R240). -/
def Obligations.UnconfiguredTargetRaises : Prop :=
  ∀ (p : PathSel) (s : State) (ts before after : List (Path × Nat)) (q : Path) (i : Nat),
    ts = before ++ (q, i) :: after → s.Configured before → (s.band q i).conf = false →
    let raised : Host.Outcome State Fault Refusal :=
      .next (capture .unconfigured s.cmd (BitVec.ofNat 32 (pathNum q * 256 + i)) s)
    (∀ b : BitVec 8, b.toNat < s.build.n → ts = targets p b.toNat → exec (.filter p b) s = raised) ∧
    (ts = bankTargets .both s.build.n → exec .generate s = raised)

/-- FILTER on configured bands raises E_BLOCK_RANGE((OFF << 16) | LEN) when LEN < 2 or OFF + LEN > FRAMES
(40_biquad.md R180). -/
def Obligations.BadWindowRaises : Prop :=
  ∀ (p : PathSel) (b : BitVec 8) (s : State), b.toNat < s.build.n → s.Configured (targets p b.toNat) →
    (s.blkLen.toNat < 2 ∨ s.build.frames < s.blkOff.toNat + s.blkLen.toNat) →
    exec (.filter p b) s =
      .next (capture .blockRange s.cmd (BitVec.ofNat 32 (s.blkOff.toNat * 65536 + s.blkLen.toNat)) s)

/-! ### The commands -/

/-- NOP: writing 0x00000000 to CMD changes nothing but CMD, and a word with OP = 0 and any other bit set raises
E_RESERVED_FIELD (43_control.md R260). -/
def Obligations.NopChangesOnlyCmd : Prop :=
  ∀ s : State, exec .nop s = .next s ∧
    serve (.write 0x010 0x00000000) s = .next { s with reply := .ack, cmd := 0 } ∧
    ∀ w : Word, w.toNat % 64 = 0 → w ≠ 0 → execute w s = .next (capture .reservedField s.cmd 0 s)

/-- SET_BANDPASS with valid arguments, as 40_biquad.md R161 lists it, configures band i of each selected path with the same five
coefficients and sets CONF; ST, every other band and everything else are unchanged (40_biquad.md R160). -/
def Obligations.SetBandpassConfigures : Prop :=
  ∀ (p : PathSel) (b : BitVec 8) (s : State), s.SizesOk → b.toNat < s.build.n →
    s.Unconfigured (targets p b.toNat) →
    isFinite s.fs = true → fgt s.fs 0x00000000 = true → fgt s.arg0 0x00000000 = true →
    flt s.arg0 (fmul s.fs 0x3F000000) = true → isFinite s.arg1 = true → fgt s.arg1 0x00000000 = true →
    ∃ t, exec (.setBandpass p b) s = .next t ∧
      (∀ q ∈ pathsOf p, t.band q b.toNat =
        { coef := bandpass s.build s.arg0 s.arg1 s.fs, st := (s.band q b.toNat).st, conf := true }) ∧
      (∀ u, u ∉ targets p b.toNat → t.band u.1 u.2 = s.band u.1 u.2) ∧
      { t with modBands := s.modBands, carBands := s.carBands } = s

/-- Bandpass computes exactly the operations of 40_biquad.md R163, one rounding each; so its coefficients have a1 = +0.0 and
a2 = −a0, bit for bit unless a0 is NaN (R165). -/
def Obligations.BandpassComputesItsOperations : Prop :=
  ∀ (b : Build) (fc q fs w0 wq w2 norm : Word),
    w0 = tan32 b (fdiv (fmul 0x40490FDB fc) fs) → wq = fdiv w0 q → w2 = fmul w0 w0 →
    norm = fdiv 0x3F800000 (fadd (fadd 0x3F800000 wq) w2) →
    let c := bandpass b fc q fs
    c.a0 = fmul wq norm ∧ c.a1 = 0x00000000 ∧ c.a2 = fneg c.a0 ∧
    c.b1 = fmul (fmul 0x40000000 (fsub w2 0x3F800000)) norm ∧ c.b2 = fmul (fadd (fsub 0x3F800000 wq) w2) norm ∧
    (isNaN c.a0 = false → c.a2 = c.a0 ^^^ 0x80000000) ∧ (isNaN c.a0 = true → c.a2 = 0x7FC00000)

/-- WRITE_COEF copies the staging registers bit for bit, whatever they hold; ST, every other band and everything else, the
staging registers too, are unchanged (40_biquad.md R170). -/
def Obligations.WriteCoefCopiesStaging : Prop :=
  ∀ (p : PathSel) (b : BitVec 8) (s : State), s.SizesOk → b.toNat < s.build.n →
    s.Unconfigured (targets p b.toNat) →
    ∃ t, exec (.writeCoef p b) s = .next t ∧
      (∀ q ∈ pathsOf p, t.band q b.toNat = { coef := s.stg, st := (s.band q b.toNat).st, conf := true }) ∧
      (∀ u, u ∉ targets p b.toNat → t.band u.1 u.2 = s.band u.1 u.2) ∧
      { t with modBands := s.modBands, carBands := s.carBands } = s

/-- BUILD_BANK with a valid range, as 41_filterbank.md R202 lists it, and valid computed arguments, as 40_biquad.md R161 does,
configures all N bands of each selected path, with the same words in both for BOTH, from exactly the operations of BankArgs
(41_filterbank.md R203); ST, the other path and everything else are unchanged (R200, R206). -/
def Obligations.BuildBankConfiguresAllBands : Prop :=
  ∀ (p : PathSel) (s : State) (logLow logHigh step : Word) (lower upper fc q : Nat → Word),
    logLow = ln32 s.build s.arg0 → logHigh = ln32 s.build s.arg1 → step = fdiv (fsub logHigh logLow) (f32 s.build.n) →
    (∀ i, lower i = exp32 s.build (fadd logLow (fmul (f32 i) step))) →
    (∀ i, upper i = exp32 s.build (fadd logLow (fmul (f32 (i + 1)) step))) →
    (∀ i, fc i = fdiv (fadd (lower i) (upper i)) 0x40000000) →
    (∀ i, q i = fmul 0x40000000 (fdiv (fc i) (fsub (upper i) (lower i)))) →
    s.SizesOk → s.Unconfigured (bankTargets p s.build.n) →
    isFinite s.arg0 = true → isFinite s.arg1 = true → isFinite s.fs = true → fgt s.arg0 0x00000000 = true →
    flt s.arg0 s.arg1 = true → fgt s.fs 0x00000000 = true →
    (∀ i < s.build.n, fgt (fc i) 0x00000000 = true ∧ flt (fc i) (fmul s.fs 0x3F000000) = true ∧
      isFinite (q i) = true ∧ fgt (q i) 0x00000000 = true) →
    ∃ t, exec (.buildBank p) s = .next t ∧
      (∀ r ∈ pathsOf p, ∀ i < s.build.n, t.band r i =
        { coef := bandpass s.build (fc i) (q i) s.fs, st := (s.band r i).st, conf := true }) ∧
      (∀ r, r ∉ pathsOf p → t.bands r = s.bands r) ∧
      { t with modBands := s.modBands, carBands := s.carBands } = s

/-- FILTER runs the recurrence y[n] = a0·x[n] + a1·x[n−1] + a2·x[n−2] − b1·y[n−1] − b2·y[n−2] over the window, in this order of
roundings, seeded from ST, and leaves the last two samples in ST; SCR outside the window, IN, COEF, CONF, every other band and
everything else are unchanged (40_biquad.md R181; 10_state.md R68). -/
def Obligations.FilterRunsRecurrence : Prop :=
  ∀ (p : PathSel) (b : BitVec 8) (s : State), s.build.wf = true → s.SizesOk → b.toNat < s.build.n →
    s.Configured (targets p b.toNat) → 2 ≤ s.blkLen.toNat → s.blkOff.toNat + s.blkLen.toNat ≤ s.build.frames →
    ∃ t, exec (.filter p b) s = .next t ∧
      (∀ q ∈ pathsOf p,
        let i := b.toNat
        let off := s.blkOff.toNat
        let len := s.blkLen.toNat
        let c := (s.band q i).coef
        let st := (s.band q i).st
        let x := fun k => s.inp q (off + k)
        let y := fun k => t.scr q i (off + k)
        (∀ k < len, y k =
          fsub (fsub (fadd (fadd (fmul c.a0 (x k)) (fmul c.a1 (delayed st.x1 st.x2 x k 1)))
            (fmul c.a2 (delayed st.x1 st.x2 x k 2))) (fmul c.b1 (delayed st.y1 st.y2 y k 1)))
            (fmul c.b2 (delayed st.y1 st.y2 y k 2))) ∧
        t.band q i = { coef := c, conf := true,
                       st := { x1 := x (len - 1), x2 := x (len - 2), y1 := y (len - 1), y2 := y (len - 2) } }) ∧
      (∀ u, u ∉ targets p b.toNat → t.band u.1 u.2 = s.band u.1 u.2) ∧
      (∀ a, (∀ q ∈ pathsOf p, a < scrAddr q b.toNat s.blkOff.toNat ∨
        scrAddr q b.toNat (s.blkOff.toNat + s.blkLen.toNat) ≤ a) → Memory.byte t.mem a = Memory.byte s.mem a) ∧
      { t with modBands := s.modBands, carBands := s.carBands, mem := s.mem } = s

/-- Splitting a window at k, with 2 ≤ k ≤ L − 2, does not change what FILTER writes (40_biquad.md R183): FILTER over
[o, o+k) and then over [o+k, o+L) leaves the state that FILTER over [o, o+L) leaves, but for the window registers. -/
def Obligations.SplitWindowsAgree : Prop :=
  ∀ (p : PathSel) (b : BitVec 8) (s : State) (o o' : BitVec 11) (k l l' : BitVec 12),
    s.Inv → b.toNat < s.build.n → s.Configured (targets p b.toNat) →
    2 ≤ k.toNat → k.toNat + 2 ≤ l.toNat → o.toNat + l.toNat ≤ s.build.frames →
    o'.toNat = o.toNat + k.toNat → l'.toNat = l.toNat - k.toNat →
    ∃ t1 t2 u, exec (.filter p b) { s with blkOff := o, blkLen := k } = .next t1 ∧
      exec (.filter p b) { t1 with blkOff := o', blkLen := l' } = .next t2 ∧
      exec (.filter p b) { s with blkOff := o, blkLen := l } = .next u ∧
      { t2 with blkOff := o, blkLen := l } = u

/-- The zero state is a fixed point: a band with finite coefficients whose four state scalars are ±0.0 outputs ±0.0 for a window
of ±0.0 and keeps its state at ±0.0 (40_biquad.md R185). -/
def Obligations.ZeroStateIsFixed : Prop :=
  ∀ (p : PathSel) (b : BitVec 8) (s t : State), s.build.wf = true → s.SizesOk → b.toNat < s.build.n →
    s.Configured (targets p b.toNat) → 2 ≤ s.blkLen.toNat → s.blkOff.toNat + s.blkLen.toNat ≤ s.build.frames →
    exec (.filter p b) s = .next t →
    ∀ q ∈ pathsOf p,
      let c := (s.band q b.toNat).coef
      let st := (s.band q b.toNat).st
      let st' := (t.band q b.toNat).st
      (isFinite c.a0 && isFinite c.a1 && isFinite c.a2 && isFinite c.b1 && isFinite c.b2) = true →
      (isZero st.x1 && isZero st.x2 && isZero st.y1 && isZero st.y2) = true →
      (∀ k < s.blkLen.toNat, isZero (s.inp q (s.blkOff.toNat + k)) = true) →
      (∀ k < s.blkLen.toNat, isZero (t.scr q b.toNat (s.blkOff.toNat + k)) = true) ∧
      (isZero st'.x1 && isZero st'.x2 && isZero st'.y1 && isZero st'.y2) = true

/-- ENVELOPE sets ENV[i] to the positive peak of SCR[MOD][i] over the whole block: never NaN, never negative, never −0.0, no
sample is greater, and it is +0.0 or a sample of the block that is greater than +0.0. Everything else is unchanged
(42_engine.md R220, R221). -/
def Obligations.EnvelopeIsPositivePeak : Prop :=
  ∀ (b : BitVec 8) (s : State), s.SizesOk → b.toNat < s.build.n →
    ∃ t, exec (.envelope b) s = .next t ∧
      (let e := t.envAt b.toNat
       isNaN e = false ∧ signBit e = false ∧
       (∀ n < s.build.frames, fgt (s.scr .mod b.toNat n) e = false) ∧
       (e = 0x00000000 ∨ ∃ n < s.build.frames, e = s.scr .mod b.toNat n ∧ fgt e 0x00000000 = true)) ∧
      (∀ k, k ≠ b.toNat → t.envAt k = s.envAt k) ∧
      { t with env := s.env } = s

/-- MODULATE multiplies every sample of SCR[CAR][i] by ENV[i]; every other byte and everything else are unchanged
(42_engine.md R225). -/
def Obligations.ModulateScalesCarrierBand : Prop :=
  ∀ (b : BitVec 8) (s : State), b.toNat < s.build.n →
    ∃ t, exec (.modulate b) s = .next t ∧
      (∀ n < s.build.frames, t.scr .car b.toNat n = fmul (s.scr .car b.toNat n) (s.envAt b.toNat)) ∧
      (∀ a, a < scrAddr .car b.toNat 0 ∨ scrAddr .car b.toNat s.build.frames ≤ a →
        Memory.byte t.mem a = Memory.byte s.mem a) ∧
      { t with mem := s.mem } = s

/-- MIX adds the carrier bands to OUT[n] one at a time, in ascending band order: the partial sums start at OUT[n], and each is
the one before plus the next band's sample. Every other byte and everything else are unchanged (42_engine.md R230). -/
def Obligations.MixAddsBandsInOrder : Prop :=
  ∀ s : State, ∃ t, exec .mix s = .next t ∧ execute 0x00000007 s = .next t ∧
    (∀ n < s.build.frames, ∃ acc : Nat → Word, acc 0 = s.out n ∧
      (∀ i < s.build.n, acc (i + 1) = fadd (acc i) (s.scr .car i n)) ∧ t.out n = acc s.build.n) ∧
    (∀ a, a < 0x06000 ∨ 0x06000 + 4 * s.build.frames ≤ a → Memory.byte t.mem a = Memory.byte s.mem a) ∧
    { t with mem := s.mem } = s

/-- MAKEUP multiplies every OUT[n] by G / N, computed first; every other byte and everything else are unchanged
(42_engine.md R233). -/
def Obligations.MakeupScalesOut : Prop :=
  ∀ s : State, ∃ t, exec .makeup s = .next t ∧ execute 0x00000008 s = .next t ∧
    (∀ n < s.build.frames, t.out n = fmul (s.out n) (fdiv s.build.g (f32 s.build.n))) ∧
    (∀ a, a < 0x06000 ∨ 0x06000 + 4 * s.build.frames ≤ a → Memory.byte t.mem a = Memory.byte s.mem a) ∧
    { t with mem := s.mem } = s

/-- CLEAR_OUT sets every OUT[n] to +0.0; slots at n ≥ FRAMES, every other byte and everything else are unchanged
(42_engine.md R245). -/
def Obligations.ClearOutZeroesOut : Prop :=
  ∀ s : State, ∃ t, exec .clearOut s = .next t ∧ execute 0x0000000A s = .next t ∧
    (∀ n < s.build.frames, t.out n = 0x00000000) ∧
    (∀ a, a < 0x06000 ∨ 0x06000 + 4 * s.build.frames ≤ a → Memory.byte t.mem a = Memory.byte s.mem a) ∧
    { t with mem := s.mem } = s

/-- GENERATE on a fully configured VCORE never raises an error and processes one block: the filtered MOD band in SCR[MOD][i], its
peak in ENV[i], the filtered CAR band times ENV[i] in SCR[CAR][i], and (OUT[n] + Σ_i SCR[CAR][i][n]) · (G / N) in OUT[n], with
the filter state carried on; COEF, CONF, IN, every byte outside OUT and the implemented SCR slots, and everything else are
unchanged (42_engine.md R240, R242). -/
def Obligations.GenerateProcessesBlock : Prop :=
  ∀ s : State, s.build.wf = true → s.SizesOk → s.Configured (bankTargets .both s.build.n) →
    ∃ t, exec .generate s = .next t ∧
      (let f := s.build.frames
       let filtered := fun (q : Path) (i : Nat) => biquadOuts (s.band q i).coef (s.band q i).st (s.inBlock q 0 f)
       (∀ i < s.build.n, t.scrBlock .mod i = filtered .mod i ∧ t.envAt i = peak (filtered .mod i) ∧
         t.scrBlock .car i = (filtered .car i).map (fun x => fmul x (t.envAt i))) ∧
       (∀ n < f, t.out n =
         fmul ((List.range s.build.n).foldl (fun acc i => fadd acc (t.scr .car i n)) (s.out n))
           (fdiv s.build.g (f32 s.build.n))) ∧
       (∀ q, ∀ i < s.build.n, t.band q i = { s.band q i with
         st := biquadState (s.band q i).coef (s.band q i).st (s.inBlock q 0 f) }) ∧
       (∀ a, (a < 0x06000 ∨ 0x06000 + 4 * f ≤ a) →
         (∀ q, ∀ i < s.build.n, a < scrAddr q i 0 ∨ scrAddr q i f ≤ a) →
         Memory.byte t.mem a = Memory.byte s.mem a)) ∧
      { t with modBands := s.modBands, carBands := s.carBands, env := s.env, mem := s.mem } = s

/-- GENERATE is exactly the sequence FILTER.BOTH 0 … N−1 with window (0, FRAMES), ENVELOPE 0 … N−1, MODULATE 0 … N−1, MIX,
MAKEUP; the only difference is that it leaves BLKOFF and BLKLEN untouched (42_engine.md R240). -/
def Obligations.GenerateIsItsCommandSequence : Prop :=
  ∀ s : State, s.Inv → s.Configured (bankTargets .both s.build.n) →
    ∃ u, execAll (pipeline s.build.n) { s with blkOff := 0, blkLen := BitVec.ofNat 12 s.build.frames } = .next u ∧
      exec .generate s = .next { u with blkOff := s.blkOff, blkLen := s.blkLen }

/-- Envelope gating: with OUT all ±0.0 before, every ENV[i] +0.0 after step 2 and every filtered carrier sample finite, OUT is all
±0.0 after GENERATE (42_engine.md R244). The rule says nothing of an infinite or NaN makeup gain, for which 0 · G/N is NaN by
00_scope.md R18, so G is assumed finite here. -/
def Obligations.SilentModulatorGatesOutput : Prop :=
  ∀ s t : State, s.build.wf = true → s.SizesOk → s.Configured (bankTargets .both s.build.n) →
    isFinite s.build.g = true → (∀ n < s.build.frames, isZero (s.out n) = true) →
    exec .generate s = .next t → (∀ i < s.build.n, t.envAt i = 0x00000000) →
    (∀ i < s.build.n, ∀ x ∈ biquadOuts (s.band .car i).coef (s.band .car i).st (s.inBlock .car 0 s.build.frames),
      isFinite x = true) →
    ∀ n < s.build.frames, isZero (t.out n) = true

/-! ### Rules of the whole machine -/

/-- Once configured, a band stays configured with the same coefficients until a reset: no transaction but a reset changes COEF
or CONF of a configured band (40_biquad.md R162; 10_state.md R49). -/
def Obligations.ConfiguredBandKeepsCoefficients : Prop :=
  ∀ (s t : State) (e : PortEvent) (rest : List PortEvent) (p : Path) (i : Nat),
    s.port = e :: rest → isReset e = false → step s = .next t → (s.band p i).conf = true →
    (t.band p i).conf = true ∧ (t.band p i).coef = (s.band p i).coef

/-- A band that becomes configured has zero state when it does (40_biquad.md R166). -/
def Obligations.BandIsConfiguredWithZeroState : Prop :=
  ∀ (s t : State) (p : Path) (i : Nat), s.Inv → step s = .next t →
    (s.band p i).conf = false → (t.band p i).conf = true →
    (t.band p i).st = { x1 := 0x00000000, x2 := 0x00000000, y1 := 0x00000000, y2 := 0x00000000 }

/-- Of the commands only FILTER and GENERATE write a band's state scalars, and only SET_BANDPASS, WRITE_COEF and BUILD_BANK
write its coefficients or its configured bit (10_state.md R57, R58). -/
def Obligations.CommandsWriteOnlyTheirBandState : Prop :=
  ∀ (i : Instr) (s t : State), exec i s = .next t →
    ((∀ p b, i ≠ .filter p b) → i ≠ .generate → ∀ q k, (t.band q k).st = (s.band q k).st) ∧
    ((∀ p b, i ≠ .setBandpass p b) → (∀ p b, i ≠ .writeCoef p b) → (∀ p, i ≠ .buildBank p) →
      ∀ q k, (t.band q k).coef = (s.band q k).coef ∧ (t.band q k).conf = (s.band q k).conf)

/-- No command writes an operand register, FS, CTRL, CMD or an input block; nor the build or the port (10_state.md R40, R63;
70_reset_and_hazards.md R323). -/
def Obligations.CommandsKeepOperandsAndInputs : Prop :=
  ∀ (i : Instr) (s t : State), s.build.wf = true → exec i s = .next t →
    t.arg0 = s.arg0 ∧ t.arg1 = s.arg1 ∧ t.fs = s.fs ∧ t.stg = s.stg ∧ t.blkOff = s.blkOff ∧ t.blkLen = s.blkLen ∧
    t.irqEn = s.irqEn ∧ t.cmd = s.cmd ∧ t.build = s.build ∧ t.port = s.port ∧ t.reply = s.reply ∧
    ∀ p, ∀ n < s.build.frames, t.inp p n = s.inp p n

/-- VCORE has no hidden state: two states of one build that read the same at every aligned offset are the same but for the model's
port and its reply, log entries 5 and 6 (10_state.md R66; 60_exceptions.md R299). -/
def Obligations.NoHiddenState : Prop :=
  ∀ s t : State, s.Inv → t.Inv → s.build = t.build →
    (∀ addr : BitVec 20, addr.toNat % 4 = 0 → readWord s addr = readWord t addr) → forgetPort s = forgetPort t

/-- FilterWindow on two different bands gives the same state in either order (42_engine.md R241). -/
def Obligations.FilterOrderIsImmaterial : Prop :=
  ∀ (s : State) (p q : Path) (i k off len off' len' : Nat), s.Inv → i < s.build.n → k < s.build.n → (p, i) ≠ (q, k) →
    off + len ≤ s.build.frames → off' + len' ≤ s.build.frames →
    filterWindow (p, i) off len (filterWindow (q, k) off' len' s) =
      filterWindow (q, k) off' len' (filterWindow (p, i) off len s)

/-! ### Bus and registers -/

/-- An aligned read has no side effect on any state: it only answers the word. A misaligned transaction does nothing but raise
E_BUS(addr), with 0 in ERRCMD, and a misaligned read returns 0 (20_memory.md R103, R104, R107; 60_exceptions.md R281). -/
def Obligations.ReadsAndMisalignedAccesses : Prop :=
  ∀ (s : State) (addr : BitVec 20) (v : Word),
    (addr.toNat % 4 = 0 → serve (.read addr) s = .next { s with reply := .data (readWord s addr) }) ∧
    (addr.toNat % 4 ≠ 0 →
      serve (.read addr) s = .next (capture .bus 0 (BitVec.ofNat 32 addr.toNat) { s with reply := .data 0 }) ∧
      serve (.write addr v) s = .next (capture .bus 0 (BitVec.ofNat 32 addr.toNat) { s with reply := .ack }))

/-- What the control registers read as: ID, CFG, CTRL, CMD, ERRCMD, ERRINFO, ARG0, ARG1, FS, GAIN, BLKOFF, BLKLEN and the staging
registers, at their offsets (10_state.md R42 to R55). -/
def Obligations.ControlRegistersReadTheirState : Prop :=
  ∀ s : State, s.build.wf = true →
    readWord s 0x000 = 0x564F4331 ∧ (readWord s 0x004).toNat = s.build.n + 256 * s.build.frames ∧
    (readWord s 0x008).toNat = (if s.irqEn then 1 else 0) ∧ readWord s 0x010 = s.cmd ∧ readWord s 0x018 = s.errCmd ∧
    readWord s 0x01C = s.errInfo ∧ readWord s 0x020 = s.arg0 ∧ readWord s 0x024 = s.arg1 ∧ readWord s 0x028 = s.fs ∧
    readWord s 0x02C = s.build.g ∧ (readWord s 0x030).toNat = s.blkOff.toNat ∧
    (readWord s 0x034).toNat = s.blkLen.toNat ∧ readWord s 0x040 = s.stg.a0 ∧ readWord s 0x044 = s.stg.a1 ∧
    readWord s 0x048 = s.stg.a2 ∧ readWord s 0x04C = s.stg.b1 ∧ readWord s 0x050 = s.stg.b2

/-- What ENV, the band files and the buffers read as, at their offsets (10_state.md R56, R60 to R63). -/
def Obligations.ArraysReadTheirState : Prop :=
  ∀ s : State, s.build.wf = true →
    (∀ i < s.build.n, readWord s (BitVec.ofNat 20 (0x100 + 4 * i)) = s.envAt i) ∧
    (∀ p, ∀ i < s.build.n,
      let file := fun k => readWord s (BitVec.ofNat 20 (0x01000 + pathNum p * 0x01000 + i * 0x40 + k))
      let b := s.band p i
      file 0x00 = b.coef.a0 ∧ file 0x04 = b.coef.a1 ∧ file 0x08 = b.coef.a2 ∧ file 0x0C = b.coef.b1 ∧
      file 0x10 = b.coef.b2 ∧ file 0x14 = b.st.x1 ∧ file 0x18 = b.st.x2 ∧ file 0x1C = b.st.y1 ∧ file 0x20 = b.st.y2 ∧
      (file 0x24).toNat = if b.conf then 1 else 0) ∧
    (∀ n < s.build.frames, readWord s (BitVec.ofNat 20 (0x04000 + 4 * n)) = s.inp .mod n ∧
      readWord s (BitVec.ofNat 20 (0x05000 + 4 * n)) = s.inp .car n ∧
      readWord s (BitVec.ofNat 20 (0x06000 + 4 * n)) = s.out n) ∧
    (∀ i < s.build.n, ∀ n < s.build.frames,
      readWord s (BitVec.ofNat 20 (0x40000 + 4 * (i * 1024 + n))) = s.scr .mod i n ∧
      readWord s (BitVec.ofNat 20 (0x80000 + 4 * (i * 1024 + n))) = s.scr .car i n)

/-- Reserved offsets, the slots of bands ≥ N and of samples ≥ FRAMES among them, read 0 and ignore writes without error
(10_state.md R69; 20_memory.md R110). -/
def Obligations.ReservedIsReadZeroWriteIgnored : Prop :=
  ∀ (s : State) (addr : BitVec 20) (v : Word), s.build.wf = true →
    let a := addr.toNat
    let n := s.build.n
    let f := s.build.frames
    a % 4 = 0 →
    (a = 0x038 ∨ a = 0x03C ∨ (0x054 ≤ a ∧ a < 0x100) ∨ (0x100 + 4 * n ≤ a ∧ a < 0x01000) ∨
      (0x01000 ≤ a ∧ a < 0x03000 ∧ (n ≤ a % 0x01000 / 0x40 ∨ 0x28 ≤ a % 0x40)) ∨ (0x03000 ≤ a ∧ a < 0x04000) ∨
      (0x04000 ≤ a ∧ a < 0x07000 ∧ f ≤ a % 0x01000 / 4) ∨ (0x07000 ≤ a ∧ a < 0x40000) ∨
      (0x40000 ≤ a ∧ a < 0xC0000 ∧ (n ≤ a % 0x40000 / 0x01000 ∨ f ≤ a % 0x01000 / 4)) ∨ 0xC0000 ≤ a) →
    readWord s addr = 0 ∧ serve (.write addr v) s = .next { s with reply := .ack }

/-- Read-only locations ignore writes without error: ID, CFG, STATUS, ERRCMD, ERRINFO, GAIN, ENV, the band files and the scratch
(10_state.md R69). -/
def Obligations.ReadOnlyIgnoresWrites : Prop :=
  ∀ (s : State) (addr : BitVec 20) (v : Word), s.build.wf = true →
    let a := addr.toNat
    a % 4 = 0 →
    (a = 0x000 ∨ a = 0x004 ∨ a = 0x00C ∨ a = 0x018 ∨ a = 0x01C ∨ a = 0x02C ∨ (0x100 ≤ a ∧ a < 0x03000) ∨ 0x40000 ≤ a) →
    serve (.write addr v) s = .next { s with reply := .ack }

/-- A write to a RW register stores the implemented bits and nothing else: ARG0, ARG1, FS and the staging registers whole, BLKOFF
bits 10:0, BLKLEN bits 11:0, and CTRL, with bit 1 clear, bit 0 (10_state.md R44, R50 to R55; 20_memory.md R105). -/
def Obligations.RegisterWritesStore : Prop :=
  ∀ (s : State) (v : Word),
    let s' := { s with reply := .ack }
    serve (.write 0x020 v) s = .next { s' with arg0 := v } ∧ serve (.write 0x024 v) s = .next { s' with arg1 := v } ∧
    serve (.write 0x028 v) s = .next { s' with fs := v } ∧
    serve (.write 0x030 v) s = .next { s' with blkOff := BitVec.ofNat 11 (v.toNat % 2048) } ∧
    serve (.write 0x034 v) s = .next { s' with blkLen := BitVec.ofNat 12 (v.toNat % 4096) } ∧
    serve (.write 0x040 v) s = .next { s' with stg := { s.stg with a0 := v } } ∧
    serve (.write 0x044 v) s = .next { s' with stg := { s.stg with a1 := v } } ∧
    serve (.write 0x048 v) s = .next { s' with stg := { s.stg with a2 := v } } ∧
    serve (.write 0x04C v) s = .next { s' with stg := { s.stg with b1 := v } } ∧
    serve (.write 0x050 v) s = .next { s' with stg := { s.stg with b2 := v } } ∧
    (v.toNat / 2 % 2 = 0 → serve (.write 0x008 v) s = .next { s' with irqEn := decide (v.toNat % 2 = 1) })

/-- A word written to MOD_IN[n], CAR_IN[n] or OUT[n] with n < FRAMES reads back bit for bit, and no other byte and nothing else
changes (10_state.md R62, R63; 20_memory.md R105). -/
def Obligations.BufferWritesReadBack : Prop :=
  ∀ (s : State) (v : Word) (base n : Nat), s.build.wf = true → n < s.build.frames →
    (base = 0x04000 ∨ base = 0x05000 ∨ base = 0x06000) →
    ∃ t, serve (.write (BitVec.ofNat 20 (base + 4 * n)) v) s = .next t ∧
      readWord t (BitVec.ofNat 20 (base + 4 * n)) = v ∧
      (∀ a, a < base + 4 * n ∨ base + 4 * n + 4 ≤ a → Memory.byte t.mem a = Memory.byte s.mem a) ∧
      { t with mem := s.mem } = { s with reply := .ack }

/-- Writes to RW registers, input buffers and OUT are idempotent, as are the ignored ones: the same write again changes nothing.
Only the three writes that the rule names are left out, to CMD, to CTRL with bit 1 set, and to ERR (20_memory.md R107). -/
def Obligations.RegisterAndBufferWritesIdempotent : Prop :=
  ∀ (s t : State) (addr : BitVec 20) (v : Word), s.Inv → addr.toNat % 4 = 0 →
    (addr = 0x008 → v.toNat / 2 % 2 = 0) → addr ≠ 0x010 → addr ≠ 0x014 →
    serve (.write addr v) s = .next t → serve (.write addr v) t = .next t

/-- The soft reset (a write to CTRL with bit 1 set, whatever the other bits) and the reset input both put every state at its reset
value (43_control.md R262; 70_reset_and_hazards.md R310). That the transactions waiting at the port and its reply are not reset
is the model's choice, log entries 6 and 7. -/
def Obligations.ResetsAgree : Prop :=
  ∀ (s : State) (v : Word), v.toNat / 2 % 2 = 1 →
    serve (.write 0x008 v) s = .next { State.resetOf s.build with port := s.port, reply := .ack } ∧
    serve .rst s = .next { State.resetOf s.build with port := s.port, reply := .idle }

/-- The reset value of every state of 10_state.md R67, for every build, and the defaults of 00_scope.md R9. -/
def Obligations.ResetValues : Prop :=
  (∀ b : Build, b.wf = true →
    let r := State.resetOf b
    r.irqEn = false ∧ r.cmd = 0 ∧ r.errCause = none ∧ r.errOvf = false ∧ r.errCmd = 0 ∧ r.errInfo = 0 ∧
    r.arg0 = 0 ∧ r.arg1 = 0 ∧ r.fs = b.fsReset ∧ r.blkOff.toNat = 0 ∧ r.blkLen.toNat = b.frames ∧
    r.stg = { a0 := 0, a1 := 0, a2 := 0, b1 := 0, b2 := 0 } ∧ r.env.length = b.n ∧ (∀ e ∈ r.env, e = 0) ∧
    (∀ p, (r.bands p).length = b.n) ∧
    (∀ p, ∀ i < b.n, r.band p i =
      { coef := { a0 := if b.coefReset = .identity then 0x3F800000 else 0, a1 := 0, a2 := 0, b1 := 0, b2 := 0 },
        st := { x1 := 0, x2 := 0, y1 := 0, y2 := 0 }, conf := false }) ∧
    (∀ p n, r.inp p n = 0) ∧ (∀ n, r.out n = 0) ∧ (∀ p i n, r.scr p i n = 0)) ∧
  State.reset.build.n = 30 ∧ State.reset.build.frames = 256 ∧ State.reset.fs = 0x472C4400 ∧
  State.reset.build.g = 0x41A00000 ∧ readWord State.reset 0x004 = 0x0001001E

/-- VCORE sees only the offset: the platform's address BASE + addr decodes to it, BASE is a multiple of 2^20, and byte j of a
word shown as bytes is bits 8j+7 .. 8j (20_memory.md R101, R108). -/
def Obligations.PlatformViewIsLittleEndian : Prop :=
  Config.base % 2 ^ 20 = 0 ∧
  (∀ addr : BitVec 20, effectiveAddress addr = Config.base + addr.toNat ∧ offsetOf (effectiveAddress addr) = some addr) ∧
  (∀ (s : State) (k j : Nat), 4 * k < 2 ^ 20 → j < 4 →
    windowByte s (BitVec.ofNat 20 (4 * k + j)) = (readWord s (BitVec.ofNat 20 (4 * k))).extractLsb' (8 * j) 8)

/-! ### Arithmetic -/

/-- Rounding is to nearest with ties to even, and overflow gives ∞ (00_scope.md R18, R20). `num / den` counts units of 2^-149; the
result is the magnitude bits of a finite value none of which is nearer, the even one of two equally near, or of ∞ exactly when the
value is at or above the midpoint between the greatest finite value and 2^128. -/
def Obligations.RoundsToNearestEven : Prop :=
  ∀ num den : Nat, 0 < den →
    let r := roundMag num den
    let dist := fun m : Nat => ((num : Int) - (den : Int) * (magUnits (BitVec.ofNat 32 m) : Int)).natAbs
    r ≤ 0x7F800000 ∧ (r = 0x7F800000 ↔ (2 ^ 25 - 1) * 2 ^ 252 * den ≤ num) ∧
    (r < 0x7F800000 → ∀ m < 0x7F800000, dist r ≤ dist m ∧ (dist r = dist m → m = r ∨ r % 2 = 0))

/-- The sum, difference, product and quotient of finite values are the exact result rounded once, for every result, a tie, a zero
and ∞ included: the sign, then the magnitude that `roundMag` (statement RoundsToNearestEven) gives for the exact value in units of
2^-149. An exactly zero sum or difference of operands with opposite signs is +0, division of a non-zero value by a zero is ∞ with
the sign of the exact quotient (00_scope.md R18). The sign of a zero product, quotient, or sum of zeros of one sign, and the
results with an infinite operand are IEEE 754's, log entry 13. -/
def Obligations.ArithmeticRoundsOnce : Prop :=
  ∀ a b : Word,
    let bits := fun (neg : Bool) (mag : Nat) => (if neg then 2 ^ 31 else 0) + mag
    let rounded := fun (r : Word) (num : Int) (den : Nat) => r.toNat = bits (decide (num < 0)) (roundMag num.natAbs den)
    let neg := signBit a != signBit b
    (isFinite a = true → isFinite b = true →
      (units a + units b ≠ 0 → rounded (fadd a b) (units a + units b) 1) ∧
      (units a + units b = 0 → (fadd a b).toNat = bits (signBit a && signBit b) 0) ∧
      (units a - units b ≠ 0 → rounded (fsub a b) (units a - units b) 1) ∧
      (units a - units b = 0 → (fsub a b).toNat = bits (signBit a && !signBit b) 0) ∧
      (fmul a b).toNat = bits neg (roundMag (units a * units b).natAbs (2 ^ 149)) ∧
      (isZero b = false → (fdiv a b).toNat = bits neg (roundMag ((units a).natAbs * 2 ^ 149) (units b).natAbs)) ∧
      (isZero b = true → isZero a = false → (fdiv a b).toNat = bits neg 0x7F800000)) ∧
    (isInf a = true → isFinite b = true →
      fadd a b = a ∧ fadd b a = a ∧ fsub a b = a ∧ fsub b a = a ^^^ 0x80000000 ∧
      (isZero b = false → (fmul a b).toNat = bits neg 0x7F800000 ∧ (fmul b a).toNat = bits neg 0x7F800000) ∧
      (fdiv a b).toNat = bits neg 0x7F800000 ∧ (fdiv b a).toNat = bits neg 0) ∧
    (isInf a = true → isInf b = true →
      (fmul a b).toNat = bits neg 0x7F800000 ∧ (signBit a = signBit b → fadd a b = a) ∧ (signBit a ≠ signBit b → fsub a b = a))

/-- The operations answer the canonical NaN 0x7FC00000 when an operand is NaN, whatever NaN it is, and for the invalid operations
∞ − ∞, 0 · ∞, 0/0 and ∞/∞, and no other NaN ever; fneg answers it for a NaN and inverts bit 31 of any other word
(00_scope.md R18, R21, R23). -/
def Obligations.NanResultsAreCanonical : Prop :=
  ∀ a b : Word,
    (isNaN a = true ∨ isNaN b = true →
      fadd a b = 0x7FC00000 ∧ fsub a b = 0x7FC00000 ∧ fmul a b = 0x7FC00000 ∧ fdiv a b = 0x7FC00000) ∧
    (isInf a = true → isInf b = true →
      (signBit a ≠ signBit b → fadd a b = 0x7FC00000) ∧ (signBit a = signBit b → fsub a b = 0x7FC00000) ∧
      fdiv a b = 0x7FC00000) ∧
    (isZero a = true → isInf b = true → fmul a b = 0x7FC00000 ∧ fmul b a = 0x7FC00000) ∧
    (isZero a = true → isZero b = true → fdiv a b = 0x7FC00000) ∧
    (isNaN a = true → fneg a = 0x7FC00000) ∧ (isNaN a = false → fneg a = a ^^^ 0x80000000) ∧
    (isNaN (fadd a b) = true → fadd a b = 0x7FC00000) ∧ (isNaN (fsub a b) = true → fsub a b = 0x7FC00000) ∧
    (isNaN (fmul a b) = true → fmul a b = 0x7FC00000) ∧ (isNaN (fdiv a b) = true → fdiv a b = 0x7FC00000) ∧
    (isNaN (fneg a) = true → fneg a = 0x7FC00000)

/-- The quiet comparisons: false with a NaN, else by value, with +0 = −0 and ±∞ beyond every finite value
(00_scope.md R22). A word is a NaN, infinite, finite or a zero by its fields, and `units` is the value of a finite word in units
of 2^-149: ± (fraction) with exponent field 0, else ± (2^23 + fraction) · 2^(exponent field − 1) (00_scope.md R17, R20). -/
def Obligations.ComparisonsAreQuiet : Prop :=
  ∀ a b : Word,
    (let e : Nat := a.toNat / 2 ^ 23 % 256
     let f : Nat := a.toNat % 2 ^ 23
     (isNaN a = true ↔ e = 255 ∧ f ≠ 0) ∧ (isInf a = true ↔ e = 255 ∧ f = 0) ∧ (isFinite a = true ↔ e ≠ 255) ∧
     (isZero a = true ↔ e = 0 ∧ f = 0) ∧ (signBit a = true ↔ 2 ^ 31 ≤ a.toNat) ∧
     (isFinite a = true → units a = (if 2 ^ 31 ≤ a.toNat then -1 else 1) *
       (if e = 0 then (f : Int) else (2 ^ 23 + (f : Int)) * 2 ^ (e - 1)))) ∧
    (isNaN a = true ∨ isNaN b = true → flt a b = false ∧ fle a b = false) ∧
    (isNaN a = false → isNaN b = false →
      (flt a b = true ↔ units a < units b) ∧ (fle a b = true ↔ flt a b = true ∨ units a = units b)) ∧
    (isZero a = true → units a = 0) ∧
    (isFinite a = true → units 0xFF800000 < units a ∧ units a < units 0x7F800000) ∧ fgt a b = flt b a

/-- Every integer 0 ≤ k ≤ 1024 converts exactly: the result is finite and its value is k (00_scope.md R26). -/
def Obligations.IntegersConvertExactly : Prop :=
  ∀ k : Nat, k ≤ 1024 → isFinite (f32 k) = true ∧ units (f32 k) = (k : Int) * 2 ^ 149
end

