-- ==== Sys2Proof/Laws/Binary32.lean ====
section
/-! SUPPORT. The fields of a word, what packing gives, the operations of binary32 by the kind of their operands, and the
validity checks as the rules list them. -/

namespace Sys2Proof.Machine

/-! ### Fields -/

theorem expField_eq (w : Word) : expField w = w.toNat / 2 ^ 23 % 256 := by
  simp [expField, BitVec.extractLsb'_toNat, Nat.shiftRight_eq_div_pow]

theorem fracField_eq (w : Word) : fracField w = w.toNat % 2 ^ 23 := by
  simp [fracField, BitVec.extractLsb'_toNat]

theorem signBit_iff (w : Word) : signBit w = true ↔ 2 ^ 31 ≤ w.toNat := by
  rw [signBit, ← BitVec.msb_eq_getLsbD_last, BitVec.msb_eq_decide, decide_eq_true_iff]

theorem isNaN_iff (w : Word) : isNaN w = true ↔ w.toNat / 2 ^ 23 % 256 = 255 ∧ w.toNat % 2 ^ 23 ≠ 0 := by
  simp [isNaN, expField_eq, fracField_eq]

theorem isInf_iff (w : Word) : isInf w = true ↔ w.toNat / 2 ^ 23 % 256 = 255 ∧ w.toNat % 2 ^ 23 = 0 := by
  simp [isInf, expField_eq, fracField_eq]

theorem isZero_iff (w : Word) : isZero w = true ↔ w.toNat / 2 ^ 23 % 256 = 0 ∧ w.toNat % 2 ^ 23 = 0 := by
  simp [isZero, expField_eq, fracField_eq]

theorem isFinite_iff (w : Word) : isFinite w = true ↔ w.toNat / 2 ^ 23 % 256 ≠ 255 := by
  simp [isFinite, expField_eq]

/-- A finite word is neither NaN nor infinite. -/
theorem finite_kind {w : Word} (h : isFinite w = true) : isNaN w = false ∧ isInf w = false := by
  simp only [isFinite, bne_iff_ne] at h
  simp [isNaN, isInf, h]

/-- An infinite word is neither NaN nor a zero. -/
theorem inf_kind {w : Word} (h : isInf w = true) : isNaN w = false ∧ isZero w = false := by
  simp only [isInf, Bool.and_eq_true, beq_iff_eq] at h
  simp [isNaN, isZero, h.1, h.2]

theorem zero_finite {w : Word} (h : isZero w = true) : isFinite w = true := by
  simp only [isZero, Bool.and_eq_true, beq_iff_eq] at h
  simp [isFinite, h.1]

theorem units_natAbs (w : Word) : (units w).natAbs = magUnits w := by
  unfold units; split <;> simp

/-- A finite word is a zero when its value is 0. -/
theorem units_eq_zero (w : Word) : units w = 0 ↔ isZero w = true := by
  rw [← Int.natAbs_eq_zero, units_natAbs, magUnits, isZero, Bool.and_eq_true, beq_iff_eq, beq_iff_eq]
  split
  · simp [*]
  · simp [*]

/-! ### Packing -/

theorem roundMag_le (num den : Nat) : roundMag num den ≤ infMag := Nat.min_le_right _ _

theorem pack_toNat (neg : Bool) {mag : Nat} (h : mag ≤ infMag) :
    (pack neg mag).toNat = (if neg then 2 ^ 31 else 0) + mag := by
  rw [pack, BitVec.toNat_ofNat]
  refine Nat.mod_eq_of_lt ?_
  simp only [infMag] at h
  split <;> omega

theorem isNaN_pack (neg : Bool) {mag : Nat} (h : mag ≤ infMag) : isNaN (pack neg mag) = false := by
  rw [Bool.eq_false_iff, ne_eq, isNaN_iff, pack_toNat neg h]
  simp only [infMag] at h
  cases neg <;> simp only [if_true, Bool.false_eq_true, if_false] <;> omega

/-! ### fneg -/

theorem expField_flip (a : Word) : expField (a ^^^ 0x80000000) = expField a := by
  rw [expField, BitVec.extractLsb'_xor, show (0x80000000 : Word).extractLsb' 23 8 = 0#8 by decide, BitVec.xor_zero, expField]

theorem fracField_flip (a : Word) : fracField (a ^^^ 0x80000000) = fracField a := by
  rw [fracField, BitVec.extractLsb'_xor, show (0x80000000 : Word).extractLsb' 0 23 = 0#23 by decide, BitVec.xor_zero, fracField]

theorem signBit_flip (a : Word) : signBit (a ^^^ 0x80000000) = !signBit a := by
  simp [signBit]

/-- What fneg does to a number: the sign is flipped and the fields stay. -/
theorem fneg_of_number {a : Word} (h : isNaN a = false) : fneg a = a ^^^ 0x80000000 := by simp [fneg, h]

theorem fneg_of_nan {a : Word} (h : isNaN a = true) : fneg a = nan32 := by simp [fneg, h]

theorem isNaN_fneg (a : Word) : isNaN (fneg a) = isNaN a := by
  cases h : isNaN a
  · rw [fneg_of_number h, isNaN, expField_flip, fracField_flip, ← isNaN, h]
  · rw [fneg_of_nan h]; decide

theorem isInf_fneg (a : Word) : isInf (fneg a) = isInf a := by
  cases h : isNaN a
  · rw [fneg_of_number h, isInf, expField_flip, fracField_flip, ← isInf]
  · rw [fneg_of_nan h]
    cases hi : isInf a
    · decide
    · rw [(inf_kind hi).1] at h; cases h

theorem signBit_fneg {a : Word} (h : isNaN a = false) : signBit (fneg a) = !signBit a := by
  rw [fneg_of_number h, signBit_flip]

theorem units_fneg {a : Word} (h : isNaN a = false) : units (fneg a) = -units a := by
  have hm : magUnits (fneg a) = magUnits a := by
    rw [fneg_of_number h, magUnits, expField_flip, fracField_flip, ← magUnits]
  rw [units, signBit_fneg h, hm, units]
  cases signBit a <;> simp

/-! ### The operations by the kind of their operands -/

theorem fadd_nan {a b : Word} (h : isNaN a = true ∨ isNaN b = true) : fadd a b = nan32 := by
  rcases h with h | h <;> simp [fadd, h]

theorem fsub_nan {a b : Word} (h : isNaN a = true ∨ isNaN b = true) : fsub a b = nan32 := by
  rw [fsub, fadd_nan]; rwa [isNaN_fneg]

theorem fmul_nan {a b : Word} (h : isNaN a = true ∨ isNaN b = true) : fmul a b = nan32 := by
  rcases h with h | h <;> simp [fmul, h]

theorem fdiv_nan {a b : Word} (h : isNaN a = true ∨ isNaN b = true) : fdiv a b = nan32 := by
  rcases h with h | h <;> simp [fdiv, h]

/-- The sum of finite words: the exact sum rounded, and +0 for a zero sum unless both are negative. -/
theorem fadd_finite {a b : Word} (ha : isFinite a = true) (hb : isFinite b = true) :
    fadd a b = if units a + units b = 0 then pack (signBit a && signBit b) 0
      else pack (decide (units a + units b < 0)) (roundMag (units a + units b).natAbs 1) := by
  simp [fadd, finite_kind ha, finite_kind hb]

theorem fmul_finite {a b : Word} (ha : isFinite a = true) (hb : isFinite b = true) :
    fmul a b = pack (signBit a != signBit b) (roundMag (magUnits a * magUnits b) (2 ^ 149)) := by
  simp [fmul, finite_kind ha, finite_kind hb]

theorem fdiv_finite {a b : Word} (ha : isFinite a = true) (hb : isFinite b = true) (hz : isZero b = false) :
    fdiv a b = pack (signBit a != signBit b) (roundMag (magUnits a * 2 ^ 149) (magUnits b)) := by
  simp [fdiv, finite_kind ha, finite_kind hb, hz]

/-! ### The validity checks -/

/-- `BandpassValid` as 40_biquad.md R161 lists it. -/
theorem bandpassValid_iff (fc q fs : Word) : bandpassValid fc q fs = true ↔
    isFinite fs = true ∧ fgt fs 0 = true ∧ fgt fc 0 = true ∧ flt fc (fmul fs 0x3F000000) = true ∧ isFinite q = true ∧
      fgt q 0 = true := by
  simp only [bandpassValid, Bool.and_eq_true, and_assoc, half32]

/-- `RangeValid` as 41_filterbank.md R202 lists it. -/
theorem rangeValid_iff (low high fs : Word) : rangeValid low high fs = true ↔
    isFinite low = true ∧ isFinite high = true ∧ isFinite fs = true ∧ fgt low 0 = true ∧ flt low high = true ∧
      fgt fs 0 = true := by
  simp only [rangeValid, Bool.and_eq_true, and_assoc]

/-- A comparison that holds has no NaN operand. -/
theorem flt_not_nan {a b : Word} (h : flt a b = true) : isNaN a = false ∧ isNaN b = false := by
  simp only [flt, Bool.and_eq_true, Bool.not_eq_true'] at h
  exact h.1

end Sys2Proof.Machine
end

