-- ==== Sys2Proof/Laws/State.lean ====
section
/-! SUPPORT. What each named update leaves in each field of State, one lemma a field, so that no proof unfolds a record
update; and the lemmas of bands and envelopes read after an update. -/

namespace Sys2Proof.Machine

/-! ### setMem -/

@[simp] theorem setMem_build (s : State) (m : List Host.Cell) : (s.setMem m).build = s.build := rfl
@[simp] theorem setMem_irqEn (s : State) (m : List Host.Cell) : (s.setMem m).irqEn = s.irqEn := rfl
@[simp] theorem setMem_cmd (s : State) (m : List Host.Cell) : (s.setMem m).cmd = s.cmd := rfl
@[simp] theorem setMem_errCause (s : State) (m : List Host.Cell) : (s.setMem m).errCause = s.errCause := rfl
@[simp] theorem setMem_errOvf (s : State) (m : List Host.Cell) : (s.setMem m).errOvf = s.errOvf := rfl
@[simp] theorem setMem_errCmd (s : State) (m : List Host.Cell) : (s.setMem m).errCmd = s.errCmd := rfl
@[simp] theorem setMem_errInfo (s : State) (m : List Host.Cell) : (s.setMem m).errInfo = s.errInfo := rfl
@[simp] theorem setMem_arg0 (s : State) (m : List Host.Cell) : (s.setMem m).arg0 = s.arg0 := rfl
@[simp] theorem setMem_arg1 (s : State) (m : List Host.Cell) : (s.setMem m).arg1 = s.arg1 := rfl
@[simp] theorem setMem_fs (s : State) (m : List Host.Cell) : (s.setMem m).fs = s.fs := rfl
@[simp] theorem setMem_blkOff (s : State) (m : List Host.Cell) : (s.setMem m).blkOff = s.blkOff := rfl
@[simp] theorem setMem_blkLen (s : State) (m : List Host.Cell) : (s.setMem m).blkLen = s.blkLen := rfl
@[simp] theorem setMem_stg (s : State) (m : List Host.Cell) : (s.setMem m).stg = s.stg := rfl
@[simp] theorem setMem_env (s : State) (m : List Host.Cell) : (s.setMem m).env = s.env := rfl
@[simp] theorem setMem_modBands (s : State) (m : List Host.Cell) : (s.setMem m).modBands = s.modBands := rfl
@[simp] theorem setMem_carBands (s : State) (m : List Host.Cell) : (s.setMem m).carBands = s.carBands := rfl
@[simp] theorem setMem_mem (s : State) (m : List Host.Cell) : (s.setMem m).mem = m := rfl
@[simp] theorem setMem_port (s : State) (m : List Host.Cell) : (s.setMem m).port = s.port := rfl
@[simp] theorem setMem_reply (s : State) (m : List Host.Cell) : (s.setMem m).reply = s.reply := rfl

/-! ### setEnv -/

@[simp] theorem setEnv_build (s : State) (i : Nat) (e : Word) : (s.setEnv i e).build = s.build := rfl
@[simp] theorem setEnv_irqEn (s : State) (i : Nat) (e : Word) : (s.setEnv i e).irqEn = s.irqEn := rfl
@[simp] theorem setEnv_cmd (s : State) (i : Nat) (e : Word) : (s.setEnv i e).cmd = s.cmd := rfl
@[simp] theorem setEnv_errCause (s : State) (i : Nat) (e : Word) : (s.setEnv i e).errCause = s.errCause := rfl
@[simp] theorem setEnv_errOvf (s : State) (i : Nat) (e : Word) : (s.setEnv i e).errOvf = s.errOvf := rfl
@[simp] theorem setEnv_errCmd (s : State) (i : Nat) (e : Word) : (s.setEnv i e).errCmd = s.errCmd := rfl
@[simp] theorem setEnv_errInfo (s : State) (i : Nat) (e : Word) : (s.setEnv i e).errInfo = s.errInfo := rfl
@[simp] theorem setEnv_arg0 (s : State) (i : Nat) (e : Word) : (s.setEnv i e).arg0 = s.arg0 := rfl
@[simp] theorem setEnv_arg1 (s : State) (i : Nat) (e : Word) : (s.setEnv i e).arg1 = s.arg1 := rfl
@[simp] theorem setEnv_fs (s : State) (i : Nat) (e : Word) : (s.setEnv i e).fs = s.fs := rfl
@[simp] theorem setEnv_blkOff (s : State) (i : Nat) (e : Word) : (s.setEnv i e).blkOff = s.blkOff := rfl
@[simp] theorem setEnv_blkLen (s : State) (i : Nat) (e : Word) : (s.setEnv i e).blkLen = s.blkLen := rfl
@[simp] theorem setEnv_stg (s : State) (i : Nat) (e : Word) : (s.setEnv i e).stg = s.stg := rfl
@[simp] theorem setEnv_env (s : State) (i : Nat) (e : Word) : (s.setEnv i e).env = s.env.set i e := rfl
@[simp] theorem setEnv_modBands (s : State) (i : Nat) (e : Word) : (s.setEnv i e).modBands = s.modBands := rfl
@[simp] theorem setEnv_carBands (s : State) (i : Nat) (e : Word) : (s.setEnv i e).carBands = s.carBands := rfl
@[simp] theorem setEnv_mem (s : State) (i : Nat) (e : Word) : (s.setEnv i e).mem = s.mem := rfl
@[simp] theorem setEnv_port (s : State) (i : Nat) (e : Word) : (s.setEnv i e).port = s.port := rfl
@[simp] theorem setEnv_reply (s : State) (i : Nat) (e : Word) : (s.setEnv i e).reply = s.reply := rfl

/-! ### setBand -/

@[simp] theorem setBand_build (s : State) (p : Path) (i : Nat) (b : Band) : (s.setBand p i b).build = s.build := by cases p <;> rfl
@[simp] theorem setBand_irqEn (s : State) (p : Path) (i : Nat) (b : Band) : (s.setBand p i b).irqEn = s.irqEn := by cases p <;> rfl
@[simp] theorem setBand_cmd (s : State) (p : Path) (i : Nat) (b : Band) : (s.setBand p i b).cmd = s.cmd := by cases p <;> rfl
@[simp] theorem setBand_errCause (s : State) (p : Path) (i : Nat) (b : Band) : (s.setBand p i b).errCause = s.errCause := by cases p <;> rfl
@[simp] theorem setBand_errOvf (s : State) (p : Path) (i : Nat) (b : Band) : (s.setBand p i b).errOvf = s.errOvf := by cases p <;> rfl
@[simp] theorem setBand_errCmd (s : State) (p : Path) (i : Nat) (b : Band) : (s.setBand p i b).errCmd = s.errCmd := by cases p <;> rfl
@[simp] theorem setBand_errInfo (s : State) (p : Path) (i : Nat) (b : Band) : (s.setBand p i b).errInfo = s.errInfo := by cases p <;> rfl
@[simp] theorem setBand_arg0 (s : State) (p : Path) (i : Nat) (b : Band) : (s.setBand p i b).arg0 = s.arg0 := by cases p <;> rfl
@[simp] theorem setBand_arg1 (s : State) (p : Path) (i : Nat) (b : Band) : (s.setBand p i b).arg1 = s.arg1 := by cases p <;> rfl
@[simp] theorem setBand_fs (s : State) (p : Path) (i : Nat) (b : Band) : (s.setBand p i b).fs = s.fs := by cases p <;> rfl
@[simp] theorem setBand_blkOff (s : State) (p : Path) (i : Nat) (b : Band) : (s.setBand p i b).blkOff = s.blkOff := by cases p <;> rfl
@[simp] theorem setBand_blkLen (s : State) (p : Path) (i : Nat) (b : Band) : (s.setBand p i b).blkLen = s.blkLen := by cases p <;> rfl
@[simp] theorem setBand_stg (s : State) (p : Path) (i : Nat) (b : Band) : (s.setBand p i b).stg = s.stg := by cases p <;> rfl
@[simp] theorem setBand_env (s : State) (p : Path) (i : Nat) (b : Band) : (s.setBand p i b).env = s.env := by cases p <;> rfl
@[simp] theorem setBand_mem (s : State) (p : Path) (i : Nat) (b : Band) : (s.setBand p i b).mem = s.mem := by cases p <;> rfl
@[simp] theorem setBand_port (s : State) (p : Path) (i : Nat) (b : Band) : (s.setBand p i b).port = s.port := by cases p <;> rfl
@[simp] theorem setBand_reply (s : State) (p : Path) (i : Nat) (b : Band) : (s.setBand p i b).reply = s.reply := by cases p <;> rfl

/-! ### capture -/

@[simp] theorem capture_build (c : ErrCode) (w x : Word) (s : State) : (capture c w x s).build = s.build := by
  unfold capture; split <;> rfl
@[simp] theorem capture_irqEn (c : ErrCode) (w x : Word) (s : State) : (capture c w x s).irqEn = s.irqEn := by
  unfold capture; split <;> rfl
@[simp] theorem capture_cmd (c : ErrCode) (w x : Word) (s : State) : (capture c w x s).cmd = s.cmd := by
  unfold capture; split <;> rfl
@[simp] theorem capture_arg0 (c : ErrCode) (w x : Word) (s : State) : (capture c w x s).arg0 = s.arg0 := by
  unfold capture; split <;> rfl
@[simp] theorem capture_arg1 (c : ErrCode) (w x : Word) (s : State) : (capture c w x s).arg1 = s.arg1 := by
  unfold capture; split <;> rfl
@[simp] theorem capture_fs (c : ErrCode) (w x : Word) (s : State) : (capture c w x s).fs = s.fs := by
  unfold capture; split <;> rfl
@[simp] theorem capture_blkOff (c : ErrCode) (w x : Word) (s : State) : (capture c w x s).blkOff = s.blkOff := by
  unfold capture; split <;> rfl
@[simp] theorem capture_blkLen (c : ErrCode) (w x : Word) (s : State) : (capture c w x s).blkLen = s.blkLen := by
  unfold capture; split <;> rfl
@[simp] theorem capture_stg (c : ErrCode) (w x : Word) (s : State) : (capture c w x s).stg = s.stg := by
  unfold capture; split <;> rfl
@[simp] theorem capture_env (c : ErrCode) (w x : Word) (s : State) : (capture c w x s).env = s.env := by
  unfold capture; split <;> rfl
@[simp] theorem capture_modBands (c : ErrCode) (w x : Word) (s : State) : (capture c w x s).modBands = s.modBands := by
  unfold capture; split <;> rfl
@[simp] theorem capture_carBands (c : ErrCode) (w x : Word) (s : State) : (capture c w x s).carBands = s.carBands := by
  unfold capture; split <;> rfl
@[simp] theorem capture_mem (c : ErrCode) (w x : Word) (s : State) : (capture c w x s).mem = s.mem := by
  unfold capture; split <;> rfl
@[simp] theorem capture_port (c : ErrCode) (w x : Word) (s : State) : (capture c w x s).port = s.port := by
  unfold capture; split <;> rfl
@[simp] theorem capture_reply (c : ErrCode) (w x : Word) (s : State) : (capture c w x s).reply = s.reply := by
  unfold capture; split <;> rfl

/-! ### clearErr -/

@[simp] theorem clearErr_build (s : State) : (clearErr s).build = s.build := rfl
@[simp] theorem clearErr_irqEn (s : State) : (clearErr s).irqEn = s.irqEn := rfl
@[simp] theorem clearErr_cmd (s : State) : (clearErr s).cmd = s.cmd := rfl
@[simp] theorem clearErr_errCause (s : State) : (clearErr s).errCause = none := rfl
@[simp] theorem clearErr_errOvf (s : State) : (clearErr s).errOvf = false := rfl
@[simp] theorem clearErr_errCmd (s : State) : (clearErr s).errCmd = 0 := rfl
@[simp] theorem clearErr_errInfo (s : State) : (clearErr s).errInfo = 0 := rfl
@[simp] theorem clearErr_arg0 (s : State) : (clearErr s).arg0 = s.arg0 := rfl
@[simp] theorem clearErr_arg1 (s : State) : (clearErr s).arg1 = s.arg1 := rfl
@[simp] theorem clearErr_fs (s : State) : (clearErr s).fs = s.fs := rfl
@[simp] theorem clearErr_blkOff (s : State) : (clearErr s).blkOff = s.blkOff := rfl
@[simp] theorem clearErr_blkLen (s : State) : (clearErr s).blkLen = s.blkLen := rfl
@[simp] theorem clearErr_stg (s : State) : (clearErr s).stg = s.stg := rfl
@[simp] theorem clearErr_env (s : State) : (clearErr s).env = s.env := rfl
@[simp] theorem clearErr_modBands (s : State) : (clearErr s).modBands = s.modBands := rfl
@[simp] theorem clearErr_carBands (s : State) : (clearErr s).carBands = s.carBands := rfl
@[simp] theorem clearErr_mem (s : State) : (clearErr s).mem = s.mem := rfl
@[simp] theorem clearErr_port (s : State) : (clearErr s).port = s.port := rfl
@[simp] theorem clearErr_reply (s : State) : (clearErr s).reply = s.reply := rfl

/-! ### resetCore -/

@[simp] theorem resetCore_build (s : State) : (resetCore s).build = s.build := rfl
@[simp] theorem resetCore_irqEn (s : State) : (resetCore s).irqEn = false := rfl
@[simp] theorem resetCore_cmd (s : State) : (resetCore s).cmd = 0 := rfl
@[simp] theorem resetCore_errCause (s : State) : (resetCore s).errCause = none := rfl
@[simp] theorem resetCore_errOvf (s : State) : (resetCore s).errOvf = false := rfl
@[simp] theorem resetCore_errCmd (s : State) : (resetCore s).errCmd = 0 := rfl
@[simp] theorem resetCore_errInfo (s : State) : (resetCore s).errInfo = 0 := rfl
@[simp] theorem resetCore_arg0 (s : State) : (resetCore s).arg0 = 0 := rfl
@[simp] theorem resetCore_arg1 (s : State) : (resetCore s).arg1 = 0 := rfl
@[simp] theorem resetCore_fs (s : State) : (resetCore s).fs = s.build.fsReset := rfl
@[simp] theorem resetCore_blkOff (s : State) : (resetCore s).blkOff = 0 := rfl
@[simp] theorem resetCore_blkLen (s : State) : (resetCore s).blkLen = BitVec.ofNat 12 s.build.frames := rfl
@[simp] theorem resetCore_stg (s : State) : (resetCore s).stg = ⟨0, 0, 0, 0, 0⟩ := rfl
@[simp] theorem resetCore_env (s : State) : (resetCore s).env = List.replicate s.build.n 0 := rfl
@[simp] theorem resetCore_modBands (s : State) : (resetCore s).modBands = List.replicate s.build.n (Band.reset s.build.coefReset) := rfl
@[simp] theorem resetCore_carBands (s : State) : (resetCore s).carBands = List.replicate s.build.n (Band.reset s.build.coefReset) := rfl
@[simp] theorem resetCore_mem (s : State) : (resetCore s).mem = [] := rfl
@[simp] theorem resetCore_port (s : State) : (resetCore s).port = s.port := rfl
@[simp] theorem resetCore_reply (s : State) : (resetCore s).reply = s.reply := rfl

/-! ### Bands -/

@[simp] theorem setMem_bands (s : State) (m : List Host.Cell) (p : Path) : (s.setMem m).bands p = s.bands p := by
  cases p <;> rfl
@[simp] theorem setEnv_bands (s : State) (i : Nat) (e : Word) (p : Path) : (s.setEnv i e).bands p = s.bands p := by
  cases p <;> rfl
@[simp] theorem capture_bands (c : ErrCode) (w x : Word) (s : State) (p : Path) :
    (capture c w x s).bands p = s.bands p := by cases p <;> simp [State.bands]
@[simp] theorem clearErr_bands (s : State) (p : Path) : (clearErr s).bands p = s.bands p := by cases p <;> rfl
@[simp] theorem resetCore_bands (s : State) (p : Path) :
    (resetCore s).bands p = List.replicate s.build.n (Band.reset s.build.coefReset) := by cases p <;> rfl
@[simp] theorem setBand_bands_same (s : State) (p : Path) (i : Nat) (b : Band) :
    (s.setBand p i b).bands p = (s.bands p).set i b := by cases p <;> rfl
theorem setBand_bands_other (s : State) (i : Nat) (b : Band) (p q : Path) (h : q ≠ p) :
    (s.setBand p i b).bands q = s.bands q := by cases p <;> cases q <;> first | rfl | exact absurd rfl h

@[simp] theorem setMem_band (s : State) (m : List Host.Cell) (p : Path) (i : Nat) :
    (s.setMem m).band p i = s.band p i := by simp [State.band]
@[simp] theorem setEnv_band (s : State) (i : Nat) (e : Word) (p : Path) (k : Nat) :
    (s.setEnv i e).band p k = s.band p k := by simp [State.band]
@[simp] theorem capture_band (c : ErrCode) (w x : Word) (s : State) (p : Path) (i : Nat) :
    (capture c w x s).band p i = s.band p i := by simp [State.band]
@[simp] theorem clearErr_band (s : State) (p : Path) (i : Nat) : (clearErr s).band p i = s.band p i := by
  simp [State.band]

/-- A band that exists reads back as it was set. -/
theorem setBand_band_same (s : State) (p : Path) (i : Nat) (b : Band) (h : i < (s.bands p).length) :
    (s.setBand p i b).band p i = b := by
  simp [State.band, List.getD_eq_getElem?_getD, h]

/-- Setting one band leaves every other band of both paths. -/
theorem setBand_band_other (s : State) (p : Path) (i : Nat) (b : Band) (q : Path) (k : Nat) (h : (q, k) ≠ (p, i)) :
    (s.setBand p i b).band q k = s.band q k := by
  by_cases hq : q = p
  · subst hq
    have hk : i ≠ k := fun e => h (by rw [e])
    simp [State.band, List.getD_eq_getElem?_getD, List.getElem?_set_ne hk]
  · simp [State.band, setBand_bands_other _ _ _ _ _ hq]

@[simp] theorem setBand_bands_length (s : State) (p : Path) (i : Nat) (b : Band) (q : Path) :
    ((s.setBand p i b).bands q).length = (s.bands q).length := by
  cases p <;> cases q <;> simp [State.setBand, State.bands]

/-! ### Envelopes -/

@[simp] theorem setMem_envAt (s : State) (m : List Host.Cell) (i : Nat) : (s.setMem m).envAt i = s.envAt i := rfl
@[simp] theorem setBand_envAt (s : State) (p : Path) (i : Nat) (b : Band) (k : Nat) :
    (s.setBand p i b).envAt k = s.envAt k := by cases p <;> rfl

/-- An envelope register that exists reads back as it was set. -/
theorem setEnv_envAt_same (s : State) (i : Nat) (e : Word) (h : i < s.env.length) : (s.setEnv i e).envAt i = e := by
  simp [State.envAt, List.getD_eq_getElem?_getD, h]

/-- Setting one envelope register leaves every other. -/
theorem setEnv_envAt_other (s : State) (i : Nat) (e : Word) (k : Nat) (h : k ≠ i) :
    (s.setEnv i e).envAt k = s.envAt k := by
  simp [State.envAt, List.getD_eq_getElem?_getD, List.getElem?_set_ne h.symm]

end Sys2Proof.Machine
end

