-- ==== Sys2Proof/Laws/Exec.lean ====
section
/-! SUPPORT. What a command can do, said once: it raises one error, or it is ready and has its effect. Later proofs cite
`exec_cases` and `exec_of_ready` and do not unfold a meaning. -/

namespace Sys2Proof.Machine

/-- The state a command leaves when none of its checks fails. -/
def effect : Instr → State → State
  | .nop, s => s
  | .setBandpass p b, s => configureAll (targets p b.toNat) (fun _ => bandpass s.build s.arg0 s.arg1 s.fs) s
  | .writeCoef p b, s => configureAll (targets p b.toNat) (fun _ => s.stg) s
  | .filter p b, s => filterAll (targets p b.toNat) s.blkOff.toNat s.blkLen.toNat s
  | .buildBank p, s => configureAll (bankTargets p s.build.n) (bankCoef s.build s.arg0 s.arg1 s.fs) s
  | .envelope b, s => envelopeBand b.toNat s
  | .modulate b, s => modulateBand b.toNat s
  | .mix, s => mixOut s
  | .makeup, s => makeupOut s
  | .generate, s => generateBlock s
  | .clearOut, s => clearOut s

/-- None of a command's checks fails. -/
def Ready : Instr → State → Prop
  | .nop, _ => True
  | .setBandpass p b, s =>
    b.toNat < s.build.n ∧ s.Unconfigured (targets p b.toNat) ∧ bandpassValid s.arg0 s.arg1 s.fs = true
  | .writeCoef p b, s => b.toNat < s.build.n ∧ s.Unconfigured (targets p b.toNat)
  | .filter p b, s => b.toNat < s.build.n ∧ s.Configured (targets p b.toNat) ∧ windowOk s = true
  | .buildBank p, s =>
    s.Unconfigured (bankTargets p s.build.n) ∧ rangeValid s.arg0 s.arg1 s.fs = true ∧
      ∀ i < s.build.n, bankBandValid s.build s.arg0 s.arg1 s.fs i = true
  | .envelope b, s => b.toNat < s.build.n
  | .modulate b, s => b.toNat < s.build.n
  | .mix, _ => True
  | .makeup, _ => True
  | .generate, s => s.Configured (bankTargets .both s.build.n)
  | .clearOut, _ => True

/-! ### The checks -/

theorem withBand_ok {b : BitVec 8} {s : State} {run : Nat → Host.Outcome State Fault Refusal} (h : b.toNat < s.build.n) :
    withBand b s run = run b.toNat := by simp [withBand, Nat.not_le.2 h]

theorem withBand_bad {b : BitVec 8} {s : State} {run : Nat → Host.Outcome State Fault Refusal} (h : s.build.n ≤ b.toNat) :
    withBand b s run = raise .bandRange (b.setWidth 32) s := by simp [withBand, h]

theorem ifUnlocked_ok {ts : List (Path × Nat)} {s : State} {run : Host.Outcome State Fault Refusal}
    (h : s.Unconfigured ts) : ifUnlocked ts s run = run := by
  have : firstConfigured ts s = none := by simpa [firstConfigured] using h
  simp [ifUnlocked, this]

theorem ifConfigured_ok {ts : List (Path × Nat)} {s : State} {run : Host.Outcome State Fault Refusal}
    (h : s.Configured ts) : ifConfigured ts s run = run := by
  have : firstUnconfigured ts s = none := by simpa [firstUnconfigured] using h
  simp [ifConfigured, this]

/-- The lock names the first configured band. -/
theorem ifUnlocked_first {before after : List (Path × Nat)} {t : Path × Nat} {s : State}
    {run : Host.Outcome State Fault Refusal} (h : s.Unconfigured before) (ht : (s.band t.1 t.2).conf = true) :
    ifUnlocked (before ++ t :: after) s run = raise .locked (bandInfo t) s := by
  have h1 : before.find? (fun t => (s.band t.1 t.2).conf) = none := by simpa using h
  have : firstConfigured (before ++ t :: after) s = some t := by
    simp [firstConfigured, List.find?_append, h1, ht]
  simp [ifUnlocked, this]

/-- The configuration check names the first unconfigured band. -/
theorem ifConfigured_first {before after : List (Path × Nat)} {t : Path × Nat} {s : State}
    {run : Host.Outcome State Fault Refusal} (h : s.Configured before) (ht : (s.band t.1 t.2).conf = false) :
    ifConfigured (before ++ t :: after) s run = raise .unconfigured (bandInfo t) s := by
  have h1 : before.find? (fun t => !(s.band t.1 t.2).conf) = none := by simpa using h
  have : firstUnconfigured (before ++ t :: after) s = some t := by
    simp [firstUnconfigured, List.find?_append, h1, ht]
  simp [ifConfigured, this]

theorem ifUnlocked_cases (ts : List (Path × Nat)) (s : State) (run : Host.Outcome State Fault Refusal) :
    (∃ t, ifUnlocked ts s run = raise .locked (bandInfo t) s) ∨ (s.Unconfigured ts ∧ ifUnlocked ts s run = run) := by
  unfold ifUnlocked
  cases h : firstConfigured ts s with
  | some t => exact .inl ⟨t, rfl⟩
  | none => exact .inr ⟨by simpa [firstConfigured] using h, rfl⟩

theorem ifConfigured_cases (ts : List (Path × Nat)) (s : State) (run : Host.Outcome State Fault Refusal) :
    (∃ t, ifConfigured ts s run = raise .unconfigured (bandInfo t) s) ∨ (s.Configured ts ∧ ifConfigured ts s run = run) := by
  unfold ifConfigured
  cases h : firstUnconfigured ts s with
  | some t => exact .inl ⟨t, rfl⟩
  | none => exact .inr ⟨by simpa [firstUnconfigured] using h, rfl⟩

theorem withBand_cases (b : BitVec 8) (s : State) (run : Nat → Host.Outcome State Fault Refusal) :
    withBand b s run = raise .bandRange (b.setWidth 32) s ∨ (b.toNat < s.build.n ∧ withBand b s run = run b.toNat) := by
  rcases Nat.lt_or_ge b.toNat s.build.n with h | h
  · exact .inr ⟨h, withBand_ok h⟩
  · exact .inl (withBand_bad h)

/-! ### What a command can do -/

/-- A command raises an error other than E_BUS, or it is ready and has its effect. -/
theorem exec_cases (i : Instr) (s : State) :
    (∃ code info, code ≠ .bus ∧ exec i s = .next (capture code s.cmd info s)) ∨
      (Ready i s ∧ exec i s = .next (effect i s)) := by
  have err : ∀ {o : Host.Outcome State Fault Refusal} {code info}, o = raise code info s → code ≠ .bus →
      (∃ code info, code ≠ .bus ∧ o = .next (capture code s.cmd info s)) := fun h hc => ⟨_, _, hc, h⟩
  cases i with
  | nop => exact .inr ⟨trivial, rfl⟩
  | setBandpass p b =>
    simp only [exec, execSetBandpass]
    rcases withBand_cases b s _ with h | ⟨hb, h⟩
    · exact .inl (err h (by decide))
    · rw [h]
      rcases ifUnlocked_cases (targets p b.toNat) s _ with ⟨t, h⟩ | ⟨hu, h⟩
      · exact .inl (err h (by decide))
      · rw [h]
        by_cases hv : bandpassValid s.arg0 s.arg1 s.fs = true
        · exact .inr ⟨⟨hb, hu, hv⟩, by simp [hv, effect]⟩
        · exact .inl (err (by simp [hv]; rfl) (by decide))
  | writeCoef p b =>
    simp only [exec, execWriteCoef]
    rcases withBand_cases b s _ with h | ⟨hb, h⟩
    · exact .inl (err h (by decide))
    · rw [h]
      rcases ifUnlocked_cases (targets p b.toNat) s _ with ⟨t, h⟩ | ⟨hu, h⟩
      · exact .inl (err h (by decide))
      · exact .inr ⟨⟨hb, hu⟩, h⟩
  | filter p b =>
    simp only [exec, execFilter]
    rcases withBand_cases b s _ with h | ⟨hb, h⟩
    · exact .inl (err h (by decide))
    · rw [h]
      rcases ifConfigured_cases (targets p b.toNat) s _ with ⟨t, h⟩ | ⟨hu, h⟩
      · exact .inl (err h (by decide))
      · rw [h]
        by_cases hv : windowOk s = true
        · exact .inr ⟨⟨hb, hu, hv⟩, by simp [hv, effect]⟩
        · exact .inl (err (by simp [hv]; rfl) (by decide))
  | buildBank p =>
    simp only [exec, execBuildBank]
    rcases ifUnlocked_cases (bankTargets p s.build.n) s _ with ⟨t, h⟩ | ⟨hu, h⟩
    · exact .inl (err h (by decide))
    · rw [h]
      by_cases hv : rangeValid s.arg0 s.arg1 s.fs = true
      · rw [if_pos hv]
        cases hf : (List.range s.build.n).find? (fun i => !bankBandValid s.build s.arg0 s.arg1 s.fs i) with
        | some i => exact .inl (err rfl (by decide))
        | none => exact .inr ⟨⟨hu, hv, by simpa using hf⟩, rfl⟩
      · exact .inl (err (by simp [hv]; rfl) (by decide))
  | envelope b =>
    simp only [exec, execEnvelope]
    rcases withBand_cases b s _ with h | ⟨hb, h⟩
    · exact .inl (err h (by decide))
    · exact .inr ⟨hb, h⟩
  | modulate b =>
    simp only [exec, execModulate]
    rcases withBand_cases b s _ with h | ⟨hb, h⟩
    · exact .inl (err h (by decide))
    · exact .inr ⟨hb, h⟩
  | mix => exact .inr ⟨trivial, rfl⟩
  | makeup => exact .inr ⟨trivial, rfl⟩
  | generate =>
    simp only [exec, execGenerate]
    rcases ifConfigured_cases (bankTargets .both s.build.n) s _ with ⟨t, h⟩ | ⟨hu, h⟩
    · exact .inl (err h (by decide))
    · exact .inr ⟨hu, h⟩
  | clearOut => exact .inr ⟨trivial, rfl⟩

/-- A command that is ready has its effect. -/
theorem exec_of_ready {i : Instr} {s : State} (h : Ready i s) : exec i s = .next (effect i s) := by
  cases i with
  | nop => rfl
  | setBandpass p b => simp [exec, execSetBandpass, withBand_ok h.1, ifUnlocked_ok h.2.1, h.2.2, effect]
  | writeCoef p b => simp [exec, execWriteCoef, withBand_ok h.1, ifUnlocked_ok h.2, effect]
  | filter p b => simp [exec, execFilter, withBand_ok h.1, ifConfigured_ok h.2.1, h.2.2, effect]
  | buildBank p =>
    have hf : (List.range s.build.n).find? (fun i => !bankBandValid s.build s.arg0 s.arg1 s.fs i) = none := by
      simpa using h.2.2
    simp only [exec, execBuildBank, ifUnlocked_ok h.1, h.2.1, hf, effect, if_true]
  | envelope b => simp [exec, execEnvelope, withBand_ok h, effect]
  | modulate b => simp [exec, execModulate, withBand_ok h, effect]
  | mix => rfl
  | makeup => rfl
  | generate => exact ifConfigured_ok h
  | clearOut => rfl

end Sys2Proof.Machine
end

