-- ==== Sys2Proof/Laws/Memory.lean ====
section
/-! SUPPORT. The laws of memory: what a byte or a word reads as after a store, that a store keeps the canonical form, and that
two memories in canonical form with the same bytes are equal. -/

namespace Sys2Proof.Machine

/-! ### A run of cells -/

/-- A cell of a run lies in the run and is not 0. -/
theorem mem_cells (bs : List Byte) : ∀ a (c : Host.Cell), c ∈ Memory.cells a bs → a ≤ c.1 ∧ c.1 < a + bs.length ∧ c.2 ≠ 0 := by
  induction bs with
  | nil => simp [Memory.cells]
  | cons b bs ih =>
    intro a c hc
    unfold Memory.cells at hc
    split at hc
    · have := ih _ _ hc
      exact ⟨by omega, by simp only [List.length_cons]; omega, this.2.2⟩
    · rename_i hb
      rcases List.mem_cons.1 hc with rfl | hc
      · exact ⟨le_refl _, by simp, hb⟩
      · have := ih _ _ hc
        exact ⟨by omega, by simp only [List.length_cons]; omega, this.2.2⟩

/-- The cells of a run are strictly rising. -/
theorem cells_pairwise (bs : List Byte) : ∀ a, (Memory.cells a bs).Pairwise (fun c d => c.1 < d.1) := by
  induction bs with
  | nil => simp [Memory.cells]
  | cons b bs ih =>
    intro a
    unfold Memory.cells
    split
    · exact ih _
    · refine List.pairwise_cons.2 ⟨fun c hc => ?_, ih _⟩
      have := (mem_cells bs _ _ hc).1
      simp only; omega

/-! ### Lookup -/

/-- The byte at an address, from the list of cells with that address. -/
theorem byte_append (m n : List Host.Cell) (a : Nat) (h : ∀ c ∈ m, c.1 ≠ a) :
    Memory.byte (m ++ n) a = Memory.byte n a := by
  have : m.find? (fun c => c.1 == a) = none := by simpa using h
  simp [Memory.byte, List.find?_append, this]

/-- Cells of other addresses at the end do not matter. -/
theorem byte_append_right (m n : List Host.Cell) (a : Nat) (h : ∀ c ∈ n, c.1 ≠ a) :
    Memory.byte (m ++ n) a = Memory.byte m a := by
  have : n.find? (fun c => c.1 == a) = none := by simpa using h
  simp [Memory.byte, List.find?_append, this]

/-- Cells of other addresses may be filtered out. -/
theorem byte_filter (p : Host.Cell → Bool) (m : List Host.Cell) (a : Nat) (h : ∀ c : Host.Cell, c.1 = a → p c = true) :
    Memory.byte (m.filter p) a = Memory.byte m a := by
  have : (fun c : Host.Cell => p c && c.1 == a) = fun c => c.1 == a := by
    funext c
    by_cases hc : c.1 = a
    · simp [hc, h c hc]
    · simp [hc]
  unfold Memory.byte
  rw [List.find?_filter]
  have e : (fun c : Host.Cell => decide (p c = true ∧ (c.1 == a) = true)) = fun c => c.1 == a := by
    funext c; rw [← congrFun this c]; by_cases hc : c.1 = a <;> simp [hc]
  simp only [e]

@[simp] theorem byte_nil (a : Nat) : Memory.byte [] a = 0 := rfl

/-- A byte of a run reads as it was given. -/
theorem byte_cells (bs : List Byte) : ∀ a k, k < bs.length → Memory.byte (Memory.cells a bs) (a + k) = bs.getD k 0 := by
  induction bs with
  | nil => simp
  | cons b bs ih =>
    intro a k hk
    unfold Memory.cells
    rcases k with _ | k
    · split
      · rename_i hb
        have h : ∀ c ∈ Memory.cells (a + 1) bs, c.1 ≠ a + 0 := fun c hc => by
          have := (mem_cells bs _ _ hc).1; omega
        have := byte_append_right [] (Memory.cells (a + 1) bs) (a + 0) h
        simpa [hb] using this
      · simp [Memory.byte]
    · have e : a + (k + 1) = a + 1 + k := by omega
      have := ih (a + 1) k (by simpa using hk)
      split
      · simpa [e] using this
      · rw [e]
        have h : Memory.byte ((a, b) :: Memory.cells (a + 1) bs) (a + 1 + k) =
            Memory.byte (Memory.cells (a + 1) bs) (a + 1 + k) :=
          byte_append [(a, b)] _ _ (by intro c hc; simp at hc; subst hc; simp; omega)
        rw [h, this]; simp

/-! ### A store, byte by byte -/

/-- A byte outside the stored run reads as before. -/
theorem byte_store_out (m : List Host.Cell) (a : Nat) (bs : List Byte) (x : Nat) (h : x < a ∨ a + bs.length ≤ x) :
    Memory.byte (Memory.store m a bs) x = Memory.byte m x := by
  have hc : ∀ c ∈ Memory.cells a bs, c.1 ≠ x := fun c hc => by
    have := mem_cells bs _ _ hc; omega
  unfold Memory.store
  rcases h with h | h
  · rw [byte_append_right, byte_append_right _ _ _ hc, byte_filter]
    · intro c e; simpa [e] using h
    · intro c e
      have := (List.mem_filter.1 e).2
      simp at this; omega
  · rw [List.append_assoc, byte_append, byte_append _ _ _ hc, byte_filter]
    · intro c e; simpa [e] using h
    · intro c e
      have := (List.mem_filter.1 e).2
      simp at this; omega

/-- A byte of the stored run reads as it was stored. -/
theorem byte_store_in (m : List Host.Cell) (a : Nat) (bs : List Byte) (k : Nat) (h : k < bs.length) :
    Memory.byte (Memory.store m a bs) (a + k) = bs.getD k 0 := by
  unfold Memory.store
  rw [byte_append_right, byte_append, byte_cells _ _ _ h]
  · intro c e
    have := (List.mem_filter.1 e).2
    simp at this; omega
  · intro c e
    have := (List.mem_filter.1 e).2
    simp at this; omega

/-! ### The canonical form -/

/-- A store keeps the canonical form. -/
theorem store_wf (m : List Host.Cell) (a : Nat) (bs : List Byte) (h : Memory.wf m) : Memory.wf (Memory.store m a bs) := by
  obtain ⟨hp, hz⟩ := h
  unfold Memory.store
  refine ⟨?_, ?_⟩
  · rw [List.append_assoc]
    refine List.pairwise_append.2 ⟨hp.filter _, List.pairwise_append.2 ⟨cells_pairwise _ _, hp.filter _, ?_⟩, ?_⟩
    · intro c hc d hd
      have h1 := mem_cells bs _ _ hc
      have h2 := (List.mem_filter.1 hd).2
      simp at h2; omega
    · intro c hc d hd
      have h1 := (List.mem_filter.1 hc).2
      simp at h1
      rcases List.mem_append.1 hd with hd | hd
      · have := mem_cells bs _ _ hd; omega
      · have := (List.mem_filter.1 hd).2
        simp at this; omega
  · intro c hc
    simp only [List.mem_append] at hc
    rcases hc with (hc | hc) | hc
    · exact hz _ (List.mem_filter.1 hc).1
    · exact (mem_cells bs _ _ hc).2.2
    · exact hz _ (List.mem_filter.1 hc).1

/-- A cell after a store is an old one outside the run or one of the run. -/
theorem mem_store (m : List Host.Cell) (a : Nat) (bs : List Byte) (c : Host.Cell) (h : c ∈ Memory.store m a bs) :
    c ∈ m ∨ (a ≤ c.1 ∧ c.1 < a + bs.length) := by
  unfold Memory.store at h
  simp only [List.mem_append] at h
  rcases h with (h | h) | h
  · exact .inl (List.mem_filter.1 h).1
  · have := mem_cells bs _ _ h; exact .inr ⟨this.1, this.2.1⟩
  · exact .inl (List.mem_filter.1 h).1

/-- In canonical form a cell is listed exactly when its byte is not 0. -/
theorem mem_iff_byte (m : List Host.Cell) (h : Memory.wf m) (a : Nat) (b : Byte) :
    (a, b) ∈ m ↔ Memory.byte m a = b ∧ b ≠ 0 := by
  induction m with
  | nil => simp; intro e; exact e.symm
  | cons c m ih =>
    obtain ⟨hp, hz⟩ := h
    have hm : Memory.wf m := ⟨(List.pairwise_cons.1 hp).2, fun d hd => hz d (List.mem_cons_of_mem _ hd)⟩
    have hlt := (List.pairwise_cons.1 hp).1
    by_cases hc : c.1 = a
    · have hb : Memory.byte (c :: m) a = c.2 := by simp [Memory.byte, hc]
      rw [hb]
      constructor
      · intro hmem
        rcases List.mem_cons.1 hmem with e | e
        · subst e; exact ⟨rfl, hz _ (List.mem_cons_self ..)⟩
        · have := hlt _ e; simp at this; omega
      · rintro ⟨e, _⟩
        subst e; subst hc
        exact List.mem_cons_self ..
    · have hb : Memory.byte (c :: m) a = Memory.byte m a := by simp [Memory.byte, hc]
      rw [hb, ← ih hm]
      constructor
      · intro hmem
        rcases List.mem_cons.1 hmem with e | e
        · exact absurd (by rw [← e]) hc
        · exact e
      · exact List.mem_cons_of_mem _

/-- Two memories in canonical form with the same bytes are equal. -/
theorem memory_ext (m m' : List Host.Cell) (h : Memory.wf m) (h' : Memory.wf m')
    (e : ∀ a, Memory.byte m a = Memory.byte m' a) : m = m' := by
  have hmem : ∀ c, c ∈ m ↔ c ∈ m' := fun c => by
    obtain ⟨a, b⟩ := c
    rw [mem_iff_byte m h, mem_iff_byte m' h', e a]
  have hn : ∀ l : List Host.Cell, Memory.wf l → l.Nodup := fun l hl =>
    hl.1.imp (fun {c d} hlt he => by subst he; omega)
  have hperm : m.Perm m' := (List.perm_ext_iff_of_nodup (hn m h) (hn m' h')).2 hmem
  exact hperm.eq_of_pairwise (fun c d _ _ h1 h2 => by omega) h.1 h'.1

/-! ### Words -/

@[simp] theorem wordBytes_length (w : Word) : (wordBytes w).length = 4 := rfl

@[simp] theorem flatMap_wordBytes_length (ws : List Word) : (ws.flatMap wordBytes).length = 4 * ws.length := by
  induction ws with
  | nil => rfl
  | cons w ws ih => simp [ih]; omega

/-- Byte lane `j` of word `k` of a run of words. -/
theorem flatMap_wordBytes_getD (ws : List Word) : ∀ k j, j < 4 → k < ws.length →
    (ws.flatMap wordBytes).getD (4 * k + j) 0 = (wordBytes (ws.getD k 0)).getD j 0 := by
  induction ws with
  | nil => simp
  | cons w ws ih =>
    intro k j hj hk
    rcases k with _ | k
    · simp [List.getD_eq_getElem?_getD, List.getElem?_append, hj]
    · have e : 4 * (k + 1) + j = (wordBytes w).length + (4 * k + j) := by simp; omega
      rw [List.flatMap_cons, List.getD_append_right _ _ _ _ (by simp; omega), e, Nat.add_sub_cancel_left,
        ih k j hj (by simpa using hk)]
      simp

/-- The four lanes make the word again. -/
theorem wordBytes_join (w : Word) :
    (wordBytes w).getD 3 0 ++ (wordBytes w).getD 2 0 ++ (wordBytes w).getD 1 0 ++ (wordBytes w).getD 0 0 = w := by
  simp only [wordBytes, List.getD_cons_succ, List.getD_cons_zero]
  apply BitVec.eq_of_getLsbD_eq
  intro i hi
  simp only [BitVec.getLsbD_append, BitVec.getLsbD_extractLsb']
  by_cases h0 : i < 8
  · simp [h0]
  · by_cases h1 : i < 16
    · have : i - 8 < 8 := by omega
      have e : 8 + (i - 8) = i := by omega
      simp [h0, this, e]
    · by_cases h2 : i < 24
      · have a1 : ¬ i - 8 < 8 := by omega
        have a2 : i - 8 - 8 < 8 := by omega
        have e : 16 + (i - 8 - 8) = i := by omega
        simp [h0, a1, a2, e]
      · have a1 : ¬ i - 8 < 8 := by omega
        have a2 : ¬ i - 8 - 8 < 8 := by omega
        have a3 : i - 8 - 8 - 8 < 8 := by omega
        have e : 24 + (i - 8 - 8 - 8) = i := by omega
        simp [h0, a1, a2, a3, e]

/-- A word of a stored run reads back. -/
theorem loadWord_storeWords_in (m : List Host.Cell) (a : Nat) (ws : List Word) (k : Nat) (h : k < ws.length) :
    Memory.loadWord (Memory.storeWords m a ws) (a + 4 * k) = ws.getD k 0 := by
  have hb : ∀ j, j < 4 → Memory.byte (Memory.storeWords m a ws) (a + 4 * k + j) = (wordBytes (ws.getD k 0)).getD j 0 := by
    intro j hj
    rw [Nat.add_assoc, Memory.storeWords, byte_store_in _ _ _ _ (by simp; omega), flatMap_wordBytes_getD _ _ _ hj h]
  have h0 := hb 0 (by omega)
  rw [Nat.add_zero] at h0
  rw [Memory.loadWord, hb 3 (by omega), hb 2 (by omega), hb 1 (by omega), h0, wordBytes_join]

/-- A word whose bytes lie outside a stored run reads as before. -/
theorem loadWord_storeWords_out (m : List Host.Cell) (a : Nat) (ws : List Word) (x : Nat)
    (h : x + 4 ≤ a ∨ a + 4 * ws.length ≤ x) :
    Memory.loadWord (Memory.storeWords m a ws) x = Memory.loadWord m x := by
  have hb : ∀ j, j < 4 → Memory.byte (Memory.storeWords m a ws) (x + j) = Memory.byte m (x + j) := by
    intro j hj
    exact byte_store_out _ _ _ _ (by simp only [flatMap_wordBytes_length]; omega)
  have h0 := hb 0 (by omega)
  rw [Nat.add_zero] at h0
  rw [Memory.loadWord, hb 3 (by omega), hb 2 (by omega), hb 1 (by omega), h0, ← Memory.loadWord]

/-- A byte outside a stored run of words reads as before. -/
theorem byte_storeWords_out (m : List Host.Cell) (a : Nat) (ws : List Word) (x : Nat)
    (h : x < a ∨ a + 4 * ws.length ≤ x) : Memory.byte (Memory.storeWords m a ws) x = Memory.byte m x :=
  byte_store_out _ _ _ _ (by rw [flatMap_wordBytes_length]; exact h)

/-- A store of words keeps the canonical form. -/
theorem storeWords_wf (m : List Host.Cell) (a : Nat) (ws : List Word) (h : Memory.wf m) :
    Memory.wf (Memory.storeWords m a ws) := store_wf _ _ _ h

@[simp] theorem loadWords_length (m : List Host.Cell) (a k : Nat) : (Memory.loadWords m a k).length = k := by
  simp [Memory.loadWords]

theorem loadWords_getD (m : List Host.Cell) (a k j : Nat) (h : j < k) :
    (Memory.loadWords m a k).getD j 0 = Memory.loadWord m (a + 4 * j) := by
  simp [Memory.loadWords, List.getD_eq_getElem?_getD, h]

/-- A block of words reads back as it was stored. -/
theorem loadWords_storeWords_same (m : List Host.Cell) (a : Nat) (ws : List Word) :
    Memory.loadWords (Memory.storeWords m a ws) a ws.length = ws := by
  apply List.ext_getElem
  · simp
  · intro j h1 h2
    have := loadWord_storeWords_in m a ws j h2
    simpa [Memory.loadWords, List.getD_eq_getElem?_getD, h2] using this

/-- A block of words outside a stored run reads as before. -/
theorem loadWords_storeWords_out (m : List Host.Cell) (a : Nat) (ws : List Word) (x k : Nat)
    (h : x + 4 * k ≤ a ∨ a + 4 * ws.length ≤ x) :
    Memory.loadWords (Memory.storeWords m a ws) x k = Memory.loadWords m x k := by
  unfold Memory.loadWords
  refine List.map_congr_left fun j hj => loadWord_storeWords_out _ _ _ _ ?_
  have := List.mem_range.1 hj
  omega

/-- Two stores of disjoint runs commute. -/
theorem storeWords_comm (m : List Host.Cell) (h : Memory.wf m) (a b : Nat) (us vs : List Word)
    (hd : a + 4 * us.length ≤ b ∨ b + 4 * vs.length ≤ a) :
    Memory.storeWords (Memory.storeWords m a us) b vs = Memory.storeWords (Memory.storeWords m b vs) a us := by
  refine memory_ext _ _ (storeWords_wf _ _ _ (storeWords_wf _ _ _ h)) (storeWords_wf _ _ _ (storeWords_wf _ _ _ h)) ?_
  intro x
  by_cases hx : a ≤ x ∧ x < a + 4 * us.length
  · obtain ⟨k, rfl⟩ := Nat.exists_eq_add_of_le hx.1
    rw [byte_storeWords_out _ _ _ _ (by omega)]
    simp only [Memory.storeWords]
    rw [byte_store_in _ _ _ _ (by simp; omega), byte_store_in _ _ _ _ (by simp; omega)]
  · rw [byte_storeWords_out _ a us x (by omega)]
    by_cases hy : b ≤ x ∧ x < b + 4 * vs.length
    · obtain ⟨k, rfl⟩ := Nat.exists_eq_add_of_le hy.1
      simp only [Memory.storeWords]
      rw [byte_store_in _ _ _ _ (by simp; omega), byte_store_in _ _ _ _ (by simp; omega)]
    · rw [byte_storeWords_out _ _ _ _ (by omega), byte_storeWords_out _ _ _ _ (by omega),
        byte_storeWords_out _ _ _ _ (by omega)]

/-- Two adjacent runs stored one after the other are one run. -/
theorem storeWords_append (m : List Host.Cell) (h : Memory.wf m) (a : Nat) (us vs : List Word) :
    Memory.storeWords (Memory.storeWords m a us) (a + 4 * us.length) vs = Memory.storeWords m a (us ++ vs) := by
  refine memory_ext _ _ (storeWords_wf _ _ _ (storeWords_wf _ _ _ h)) (storeWords_wf _ _ _ h) ?_
  intro x
  by_cases hy : a + 4 * us.length ≤ x ∧ x < a + 4 * us.length + 4 * vs.length
  · obtain ⟨k, rfl⟩ := Nat.exists_eq_add_of_le hy.1
    simp only [Memory.storeWords]
    rw [byte_store_in _ _ _ _ (by simp; omega)]
    have e : a + 4 * us.length + k = a + ((us.flatMap wordBytes).length + k) := by simp; omega
    rw [e, byte_store_in _ _ _ _ (by simp; omega), List.flatMap_append,
      List.getD_append_right _ _ _ _ (by omega), Nat.add_sub_cancel_left]
  · rw [byte_storeWords_out _ _ _ _ (by omega)]
    by_cases hx : a ≤ x ∧ x < a + 4 * us.length
    · obtain ⟨k, rfl⟩ := Nat.exists_eq_add_of_le hx.1
      simp only [Memory.storeWords]
      rw [byte_store_in _ _ _ _ (by simp; omega), byte_store_in _ _ _ _ (by simp; omega), List.flatMap_append,
        List.getD_append _ _ _ _ (by simp; omega)]
    · rw [byte_storeWords_out _ _ _ _ (by omega), byte_storeWords_out _ _ _ _ (by simp; omega)]

end Sys2Proof.Machine
end

