-- ==== Sys2Proof/Laws/Biquad.lean ====
section
/-! SUPPORT. What configuring a band and filtering a window change and what they leave, and the recurrence behind
`biquadOuts`. -/

namespace Sys2Proof.Machine

/-- A fold whose steps keep a value keeps it. -/
theorem foldl_keeps {α β γ : Type} (f : β → γ) (g : β → α → β) (h : ∀ b a, f (g b a) = f b) (l : List α) :
    ∀ b, f (l.foldl g b) = f b := by
  induction l with
  | nil => intro b; rfl
  | cons a l ih => intro b; rw [List.foldl_cons, ih, h]

/-- A fold whose steps keep a property keeps it. -/
theorem foldl_preserves {α β : Type} (P : β → Prop) (g : β → α → β) (h : ∀ b a, P b → P (g b a)) (l : List α) :
    ∀ b, P b → P (l.foldl g b) := by
  induction l with
  | nil => intro b hb; exact hb
  | cons a l ih => intro b hb; exact ih _ (h _ _ hb)

/-! ### Sizes -/

theorem SizesOk_iff (s : State) :
    s.SizesOk ↔ (∀ p, (s.bands p).length = s.build.n) ∧ s.env.length = s.build.n := by
  constructor
  · rintro ⟨h1, h2, h3⟩
    exact ⟨fun p => by cases p; exacts [h1, h2], h3⟩
  · rintro ⟨h, h3⟩
    exact ⟨h .mod, h .car, h3⟩

theorem SizesOk.length {s : State} (h : s.SizesOk) (p : Path) : (s.bands p).length = s.build.n :=
  ((SizesOk_iff s).1 h).1 p

theorem setBand_SizesOk {s : State} (p : Path) (i : Nat) (b : Band) (h : s.SizesOk) : (s.setBand p i b).SizesOk := by
  rw [SizesOk_iff] at *
  simpa using h

theorem setMem_SizesOk {s : State} (m : List Host.Cell) (h : s.SizesOk) : (s.setMem m).SizesOk := h

theorem setEnv_SizesOk {s : State} (i : Nat) (e : Word) (h : s.SizesOk) : (s.setEnv i e).SizesOk := by
  simpa [State.SizesOk] using h

/-! ### Configuration -/

/-- The state without its bands. -/
def noBands (s : State) : State := { s with modBands := [], carBands := [] }

@[simp] theorem noBands_setBand (s : State) (p : Path) (i : Nat) (b : Band) : noBands (s.setBand p i b) = noBands s := by
  cases p <;> rfl

/-- Configuring changes nothing but bands. -/
@[simp] theorem noBands_configureAll (ts : List (Path × Nat)) (c : Nat → Coef) (s : State) :
    noBands (configureAll ts c s) = noBands s :=
  foldl_keeps noBands _ (fun s t => by simp [configure]) ts s

/-- A state is another with other bands when they agree without their bands. -/
theorem eq_of_noBands {s t : State} (h : noBands t = noBands s) :
    { t with modBands := s.modBands, carBands := s.carBands } = s := by
  have := congrArg (fun u : State => { u with modBands := s.modBands, carBands := s.carBands }) h
  exact this

theorem configureAll_SizesOk (ts : List (Path × Nat)) (c : Nat → Coef) (s : State) (h : s.SizesOk) :
    (configureAll ts c s).SizesOk :=
  foldl_preserves State.SizesOk _ (fun _ _ hs => setBand_SizesOk _ _ _ hs) ts s h

/-- A band that is not among the targets is unchanged. -/
theorem configureAll_band_other (c : Nat → Coef) (q : Path) (k : Nat) (ts : List (Path × Nat)) :
    ∀ s, (q, k) ∉ ts → (configureAll ts c s).band q k = s.band q k := by
  induction ts with
  | nil => intro s _; rfl
  | cons t ts ih =>
    intro s h
    rw [List.mem_cons, not_or] at h
    rw [configureAll, List.foldl_cons, ← configureAll, ih _ h.2, configure, setBand_band_other _ _ _ _ _ _ h.1]

/-- A target that exists gets its coefficients and its configured bit, and keeps its state scalars. -/
theorem configureAll_band_target (c : Nat → Coef) (q : Path) (k : Nat) (ts : List (Path × Nat)) :
    ∀ s : State, s.SizesOk → k < s.build.n → (q, k) ∈ ts →
      (configureAll ts c s).band q k = { coef := c k, st := (s.band q k).st, conf := true } := by
  induction ts with
  | nil => intro s _ _ h; exact absurd h List.not_mem_nil
  | cons t ts ih =>
    intro s hs hk h
    rw [configureAll, List.foldl_cons, ← configureAll]
    have hs' : (configure t (c t.2) s).SizesOk := setBand_SizesOk _ _ _ hs
    have hn : (configure t (c t.2) s).build.n = s.build.n := by simp [configure]
    have hlen : k < (s.bands q).length := by rw [SizesOk.length hs]; exact hk
    by_cases hin : (q, k) ∈ ts
    · rw [ih _ hs' (by rw [hn]; exact hk) hin]
      by_cases ht : (q, k) = t
      · subst ht; simp [configure, setBand_band_same _ _ _ _ hlen]
      · rw [configure, setBand_band_other _ _ _ _ _ _ ht]
    · rcases List.mem_cons.1 h with ht | ht
      · subst ht
        rw [configureAll_band_other _ _ _ _ _ hin, configure, setBand_band_same _ _ _ _ hlen]
      · exact absurd ht hin

theorem mem_targets {p : PathSel} {i : Nat} {q : Path} {k : Nat} : (q, k) ∈ targets p i ↔ q ∈ pathsOf p ∧ k = i := by
  simp only [targets, List.mem_map, Prod.mk.injEq]
  constructor
  · rintro ⟨q', h, rfl, rfl⟩; exact ⟨h, rfl⟩
  · rintro ⟨h, rfl⟩; exact ⟨q, h, rfl, rfl⟩

theorem mem_bankTargets {p : PathSel} {n : Nat} {q : Path} {k : Nat} :
    (q, k) ∈ bankTargets p n ↔ q ∈ pathsOf p ∧ k < n := by
  simp only [bankTargets, List.mem_flatMap, List.mem_map, List.mem_range, Prod.mk.injEq]
  constructor
  · rintro ⟨q', h, k', hk, rfl, rfl⟩; exact ⟨h, hk⟩
  · rintro ⟨h, hk⟩; exact ⟨q, h, k, hk, rfl, rfl⟩

/-! ### The recurrence -/

@[simp] theorem biquadOuts_length (c : Coef) (xs : List Word) : ∀ st, (biquadOuts c st xs).length = xs.length := by
  induction xs with
  | nil => intro st; rfl
  | cons x xs ih => intro st; simp [biquadOuts, ih]

theorem biquadState_append (c : Coef) (st : FiltState) (xs ys : List Word) :
    biquadState c st (xs ++ ys) = biquadState c (biquadState c st xs) ys := List.foldl_append

theorem biquadOuts_append (c : Coef) (xs ys : List Word) : ∀ st,
    biquadOuts c st (xs ++ ys) = biquadOuts c st xs ++ biquadOuts c (biquadState c st xs) ys := by
  induction xs with
  | nil => intro st; rfl
  | cons x xs ih => intro st; simp [biquadOuts, biquadState, ih]

/-- Output `k` is one sample of the recurrence from the state after the first `k` samples. -/
theorem biquadOuts_getD (c : Coef) (xs : List Word) : ∀ st k, k < xs.length →
    (biquadOuts c st xs).getD k 0 = biquadOut c (biquadState c st (xs.take k)) (xs.getD k 0) := by
  induction xs with
  | nil => intro st k h; simp at h
  | cons x xs ih =>
    intro st k h
    rcases k with _ | k
    · rfl
    · simpa [biquadOuts, biquadState] using ih (biquadNext c st x) k (by simpa using h)

/-- After `k` samples the carried values are the delayed inputs and outputs. -/
theorem biquadState_take (c : Coef) (st : FiltState) (xs : List Word) (k : Nat) (h : k ≤ xs.length) :
    biquadState c st (xs.take k) =
      { x1 := delayed st.x1 st.x2 (fun j => xs.getD j 0) k 1, x2 := delayed st.x1 st.x2 (fun j => xs.getD j 0) k 2,
        y1 := delayed st.y1 st.y2 (fun j => (biquadOuts c st xs).getD j 0) k 1,
        y2 := delayed st.y1 st.y2 (fun j => (biquadOuts c st xs).getD j 0) k 2 } := by
  have step : ∀ (l r : Word) (f : Nat → Word) k, delayed l r f (k + 1) 1 = f k ∧
      delayed l r f (k + 1) 2 = delayed l r f k 1 := by
    intro l r f k
    refine ⟨by simp [delayed], ?_⟩
    rcases k with _ | k <;> simp [delayed]
  induction k with
  | zero => simp [biquadState, delayed]
  | succ k ih =>
    have hk : k < xs.length := h
    have e : xs.take (k + 1) = xs.take k ++ [xs.getD k 0] := by
      rw [List.take_succ_eq_append_getElem hk]; simp [List.getD_eq_getElem?_getD, hk]
    rw [e, biquadState_append, (step _ _ _ k).1, (step _ _ _ k).2, (step _ _ _ k).1, (step _ _ _ k).2,
      biquadOuts_getD c xs st k hk, ih (by omega)]
    rfl

/-! ### A filtered window -/

@[simp] theorem filterWindow_mem (t : Path × Nat) (off len : Nat) (s : State) :
    (filterWindow t off len s).mem = Memory.storeWords s.mem (scrAddr t.1 t.2 off)
      (biquadOuts (s.band t.1 t.2).coef (s.band t.1 t.2).st (s.inBlock t.1 off len)) := by
  simp [filterWindow, State.storeScr]

@[simp] theorem filterWindow_build (t : Path × Nat) (off len : Nat) (s : State) :
    (filterWindow t off len s).build = s.build := by simp [filterWindow, State.storeScr]

@[simp] theorem filterWindow_env (t : Path × Nat) (off len : Nat) (s : State) :
    (filterWindow t off len s).env = s.env := by simp [filterWindow, State.storeScr]

/-- The state without its bands and its memory. -/
def noBandsMem (s : State) : State := { s with modBands := [], carBands := [], mem := [] }

@[simp] theorem noBandsMem_setMem (s : State) (m : List Host.Cell) : noBandsMem (s.setMem m) = noBandsMem s := rfl
@[simp] theorem noBandsMem_setBand (s : State) (p : Path) (i : Nat) (b : Band) :
    noBandsMem (s.setBand p i b) = noBandsMem s := by cases p <;> rfl
@[simp] theorem noBandsMem_filterWindow (t : Path × Nat) (off len : Nat) (s : State) :
    noBandsMem (filterWindow t off len s) = noBandsMem s := by simp [filterWindow, State.storeScr]
/-- Filtering changes nothing but bands and memory. -/
@[simp] theorem noBandsMem_filterAll (ts : List (Path × Nat)) (off len : Nat) (s : State) :
    noBandsMem (filterAll ts off len s) = noBandsMem s :=
  foldl_keeps noBandsMem _ (fun s t => by simp) ts s

theorem eq_of_noBandsMem {s t : State} (h : noBandsMem t = noBandsMem s) :
    { t with modBands := s.modBands, carBands := s.carBands, mem := s.mem } = s := by
  have := congrArg (fun u : State => { u with modBands := s.modBands, carBands := s.carBands, mem := s.mem }) h
  exact this

theorem filterWindow_band_other (t : Path × Nat) (off len : Nat) (s : State) (q : Path) (k : Nat) (h : (q, k) ≠ t) :
    (filterWindow t off len s).band q k = s.band q k := by
  simp [filterWindow, State.storeScr, setBand_band_other _ _ _ _ _ _ h]

theorem filterWindow_band_same (t : Path × Nat) (off len : Nat) (s : State) (hs : s.SizesOk) (h : t.2 < s.build.n) :
    (filterWindow t off len s).band t.1 t.2 =
      { s.band t.1 t.2 with
        st := biquadState (s.band t.1 t.2).coef (s.band t.1 t.2).st (s.inBlock t.1 off len) } := by
  have : t.2 < (s.bands t.1).length := by rw [SizesOk.length hs]; exact h
  simp [filterWindow, State.storeScr, setBand_band_same _ _ _ _ this]

/-- Filtering keeps every band's coefficients and configured bit. -/
theorem filterWindow_coef_conf (t : Path × Nat) (off len : Nat) (s : State) (q : Path) (k : Nat) :
    ((filterWindow t off len s).band q k).coef = (s.band q k).coef ∧
      ((filterWindow t off len s).band q k).conf = (s.band q k).conf := by
  by_cases h : (q, k) = t
  · subst h
    by_cases hk : k < (s.bands q).length
    · simp [filterWindow, State.storeScr, setBand_band_same _ _ _ _ hk]
    · have : ∀ b, (s.setBand q k b).band q k = s.band q k := fun b => by
        simp [State.band, List.getD_eq_getElem?_getD, hk]
      simp [filterWindow, State.storeScr, this]
  · rw [filterWindow_band_other _ _ _ _ _ _ h]; exact ⟨rfl, rfl⟩

theorem filterWindow_SizesOk (t : Path × Nat) (off len : Nat) (s : State) (h : s.SizesOk) :
    (filterWindow t off len s).SizesOk := setMem_SizesOk _ (setBand_SizesOk _ _ _ h)

@[simp] theorem inBlock_length (s : State) (p : Path) (off len : Nat) : (s.inBlock p off len).length = len := by
  simp [State.inBlock]

/-! ### Where the buffers lie -/

/-- What a build that is a VCORE bounds. -/
theorem Build.wf_bounds {b : Build} (h : b.wf = true) : 1 ≤ b.n ∧ b.n ≤ 64 ∧ 2 ≤ b.frames ∧ b.frames ≤ 1024 := by
  simp only [Build.wf, Build.bandCountOk, Build.frameCountOk, Config.nMax, Config.framesMax, Bool.and_eq_true,
    decide_eq_true_eq] at h
  exact ⟨h.1.1.1, of_decide_eq_true h.1.1.2, h.1.2.1, of_decide_eq_true h.1.2.2⟩

theorem inAddr_lt (p : Path) (n : Nat) (h : n ≤ 1024) : inAddr p n ≤ 0x6000 := by
  cases p <;> simp only [inAddr, pathNum] <;> omega

theorem scrAddr_ge (p : Path) (i n : Nat) : 0x40000 ≤ scrAddr p i n := by
  simp only [scrAddr]; omega

theorem scrAddr_add (p : Path) (i n k : Nat) : scrAddr p i (n + k) = scrAddr p i n + 4 * k := by
  simp only [scrAddr]; omega

theorem inAddr_add (p : Path) (n k : Nat) : inAddr p (n + k) = inAddr p n + 4 * k := by
  simp only [inAddr]; omega

theorem outAddr_add (n k : Nat) : outAddr (n + k) = outAddr n + 4 * k := by
  simp only [outAddr]; omega

/-- The scratch rows of two different bands do not overlap. -/
theorem scr_rows_disjoint {p q : Path} {i k : Nat} (hi : i < 64) (hk : k < 64) (h : (p, i) ≠ (q, k)) :
    scrAddr p i 1024 ≤ scrAddr q k 0 ∨ scrAddr q k 1024 ≤ scrAddr p i 0 := by
  by_cases hpq : p = q
  · subst hpq
    have : i ≠ k := fun e => h (by rw [e])
    simp only [scrAddr, Config.framesMax]; omega
  · cases p <;> cases q <;> simp_all only [scrAddr, Config.framesMax, pathNum, ne_eq, not_true_eq_false] <;> omega

/-- An input block is not touched by a store to the scratch. -/
theorem inBlock_storeScr (s : State) (q : Path) (off len : Nat) (p : Path) (i n : Nat) (ys : List Word)
    (h : off + len ≤ 1024) : (s.storeScr p i n ys).inBlock q off len = s.inBlock q off len := by
  refine loadWords_storeWords_out _ _ _ _ _ (.inl ?_)
  have h1 := inAddr_lt q (off + len) h
  rw [inAddr_add] at h1
  have h2 := scrAddr_ge p i n
  omega

theorem setBand_inBlock (s : State) (p : Path) (i : Nat) (b : Band) (q : Path) (off len : Nat) :
    (s.setBand p i b).inBlock q off len = s.inBlock q off len := by simp [State.inBlock]

/-- Filtering does not change an input block. -/
theorem filterWindow_inBlock (t : Path × Nat) (off len : Nat) (s : State) (q : Path) (o l : Nat) (h : o + l ≤ 1024) :
    (filterWindow t off len s).inBlock q o l = s.inBlock q o l := by
  simp only [filterWindow]
  rw [inBlock_storeScr _ _ _ _ _ _ _ _ h, setBand_inBlock]

/-- The filtered window reads back from the scratch. -/
theorem filterWindow_scr_in (t : Path × Nat) (off len : Nat) (s : State) (k : Nat) (h : k < len) :
    (filterWindow t off len s).scr t.1 t.2 (off + k) =
      (biquadOuts (s.band t.1 t.2).coef (s.band t.1 t.2).st (s.inBlock t.1 off len)).getD k 0 := by
  rw [State.scr, filterWindow_mem, scrAddr_add, loadWord_storeWords_in _ _ _ _ (by simpa using h)]

/-- A byte outside the window's scratch is unchanged. -/
theorem filterWindow_byte_out (t : Path × Nat) (off len : Nat) (s : State) (a : Nat)
    (h : a < scrAddr t.1 t.2 off ∨ scrAddr t.1 t.2 (off + len) ≤ a) :
    Memory.byte (filterWindow t off len s).mem a = Memory.byte s.mem a := by
  rw [filterWindow_mem]
  refine byte_storeWords_out _ _ _ _ ?_
  rw [scrAddr_add] at h
  simpa using h

/-- A sample of an input block. -/
theorem inBlock_getD (s : State) (p : Path) (off len k : Nat) (h : k < len) :
    (s.inBlock p off len).getD k 0 = s.inp p (off + k) := by
  rw [State.inBlock, loadWords_getD _ _ _ _ h, State.inp, inAddr_add]

/-- An input block is the blocks of its two parts. -/
theorem inBlock_split (s : State) (p : Path) (o k l : Nat) : s.inBlock p o (k + l) = s.inBlock p o k ++ s.inBlock p (o + k) l := by
  simp only [State.inBlock, Memory.loadWords, List.range_add, List.map_append, List.map_map]
  congr 1
  apply List.map_congr_left
  intro j _
  simp only [Function.comp, inAddr_add]
  congr 1
  omega

/-! ### Several filtered windows -/

theorem filterAll_cons (t : Path × Nat) (ts : List (Path × Nat)) (off len : Nat) (s : State) :
    filterAll (t :: ts) off len s = filterAll ts off len (filterWindow t off len s) := rfl

theorem filterAll_build (ts : List (Path × Nat)) (off len : Nat) (s : State) : (filterAll ts off len s).build = s.build := by
  have := congrArg State.build (noBandsMem_filterAll ts off len s)
  exact this

theorem filterAll_coef_conf (ts : List (Path × Nat)) (off len : Nat) (q : Path) (k : Nat) :
    ∀ s, ((filterAll ts off len s).band q k).coef = (s.band q k).coef ∧
      ((filterAll ts off len s).band q k).conf = (s.band q k).conf := by
  induction ts with
  | nil => exact fun s => ⟨rfl, rfl⟩
  | cons t ts ih =>
    intro s
    rw [filterAll_cons, (ih _).1, (ih _).2]
    exact filterWindow_coef_conf t off len s q k

/-- A band that is not among the targets is unchanged. -/
theorem filterAll_band_other (ts : List (Path × Nat)) (off len : Nat) (q : Path) (k : Nat) :
    ∀ s, (q, k) ∉ ts → (filterAll ts off len s).band q k = s.band q k := by
  induction ts with
  | nil => intro s _; rfl
  | cons t ts ih =>
    intro s h
    rw [List.mem_cons, not_or] at h
    rw [filterAll_cons, ih _ h.2, filterWindow_band_other _ _ _ _ _ _ h.1]

/-- A byte outside every target's window is unchanged. -/
theorem filterAll_byte_out (ts : List (Path × Nat)) (off len a : Nat) :
    ∀ s, (∀ t ∈ ts, a < scrAddr t.1 t.2 off ∨ scrAddr t.1 t.2 (off + len) ≤ a) →
      Memory.byte (filterAll ts off len s).mem a = Memory.byte s.mem a := by
  induction ts with
  | nil => intro s _; rfl
  | cons t ts ih =>
    intro s h
    rw [filterAll_cons, ih _ (fun u hu => h u (List.mem_cons_of_mem _ hu)),
      filterWindow_byte_out _ _ _ _ _ (h t List.mem_cons_self)]

/-- Each target of FILTER, one path or both: its band with the carried state, and its window in the scratch. -/
theorem filterAll_target (p : PathSel) (i off len : Nat) (s : State) (hb : s.build.wf = true) (hs : s.SizesOk)
    (hi : i < s.build.n) (hw : off + len ≤ s.build.frames) (q : Path) (hq : q ∈ pathsOf p) :
    (filterAll (targets p i) off len s).band q i =
      { s.band q i with st := biquadState (s.band q i).coef (s.band q i).st (s.inBlock q off len) } ∧
    ∀ k < len, (filterAll (targets p i) off len s).scr q i (off + k) =
      (biquadOuts (s.band q i).coef (s.band q i).st (s.inBlock q off len)).getD k 0 := by
  obtain ⟨-, hn, -, hf⟩ := Build.wf_bounds hb
  have single : ∀ q : Path, (filterWindow (q, i) off len s).band q i =
      { s.band q i with st := biquadState (s.band q i).coef (s.band q i).st (s.inBlock q off len) } ∧
      ∀ k < len, (filterWindow (q, i) off len s).scr q i (off + k) =
        (biquadOuts (s.band q i).coef (s.band q i).st (s.inBlock q off len)).getD k 0 := fun q =>
    ⟨filterWindow_band_same (q, i) off len s hs hi, fun k hk => filterWindow_scr_in (q, i) off len s k hk⟩
  cases p with
  | mod => simp only [pathsOf, List.mem_singleton] at hq; subst hq; exact single .mod
  | car => simp only [pathsOf, List.mem_singleton] at hq; subst hq; exact single .car
  | both =>
    have e : filterAll (targets .both i) off len s = filterWindow (.car, i) off len (filterWindow (.mod, i) off len s) := rfl
    rw [e]
    have hs1 := filterWindow_SizesOk (.mod, i) off len s hs
    have hcar : (filterWindow (.mod, i) off len s).band .car i = s.band .car i :=
      filterWindow_band_other (.mod, i) off len s .car i (by simp)
    cases q with
    | mod =>
      refine ⟨?_, ?_⟩
      · rw [filterWindow_band_other _ _ _ _ _ _ (by simp)]
        exact (single .mod).1
      · intro k hk
        rw [← (single .mod).2 k hk]
        refine loadWord_storeWords_out _ _ _ _ ?_
        have h1 := scr_rows_disjoint (p := .mod) (q := .car) (i := i) (k := i) (by omega) (by omega) (by simp)
        have e1 := scrAddr_add .mod i 0 1024
        have e2 := scrAddr_add .car i 0 1024
        have e3 := scrAddr_add .mod i 0 (off + k)
        have e4 := scrAddr_add .car i 0 off
        simp only [Nat.zero_add] at e1 e2 e3 e4
        simp only [biquadOuts_length, inBlock_length]
        omega
    | car =>
      refine ⟨?_, ?_⟩
      · have := filterWindow_band_same (.car, i) off len (filterWindow (.mod, i) off len s) hs1 (by simpa using hi)
        simp only [hcar] at this
        rw [this, filterWindow_inBlock _ _ _ _ _ _ _ (by omega)]
      · intro k hk
        rw [filterWindow_scr_in (.car, i) off len _ k hk]
        simp only [hcar]
        rw [filterWindow_inBlock _ _ _ _ _ _ _ (by omega)]

end Sys2Proof.Machine
end

