-- ==== Sys2Proof/Laws/Bus.lean ====
section
/-! SUPPORT. Where each address lies, what a transaction can do, and that every transaction completes. -/

namespace Sys2Proof.Machine

/-! ### Addresses -/

theorem misaligned_iff (addr : BitVec 20) : misaligned addr = true ↔ addr.toNat % 4 ≠ 0 := by
  rw [misaligned, bne_iff_ne, ne_eq, ← BitVec.toNat_inj]
  simp

theorem misaligned_eq_false {addr : BitVec 20} (h : addr.toNat % 4 = 0) : misaligned addr = false := by
  cases hm : misaligned addr with
  | false => rfl
  | true => exact absurd h ((misaligned_iff addr).1 hm)

/-- The table of control registers lies below 0x01000, and a search for an offset of it finds its entry. -/
theorem controlRegs_found : ∀ e ∈ controlRegs, e.1 < 0x01000 ∧ controlRegs.find? (fun r => r.1 == e.1) = some e := by decide

/-- The control registers lie at their offsets in every build. -/
theorem locate_control (b : Build) (addr : BitVec 20) (l : Loc) (h : (addr.toNat, l) ∈ controlRegs) :
    locate b addr = l := by
  obtain ⟨hlt, hfind⟩ := controlRegs_found _ h
  simp only [locate, locateControl, if_pos hlt, hfind]

/-- Reading a control register. -/
theorem readWord_control (s : State) (addr : BitVec 20) (l : Loc) (h : (addr.toNat, l) ∈ controlRegs)
    (ha : addr.toNat % 4 = 0) : readWord s addr = readLoc s l := by
  rw [readWord, if_neg (by simp [misaligned_eq_false ha]), locate_control _ _ _ h]

/-- Writing a control register. -/
theorem busWrite_control (s : State) (addr : BitVec 20) (v : Word) (l : Loc) (h : (addr.toNat, l) ∈ controlRegs)
    (ha : addr.toNat % 4 = 0) : busWrite addr v s = writeLoc l v { s with reply := .ack } := by
  rw [busWrite, if_neg (by simp [misaligned_eq_false ha]), locate_control _ _ _ h]

/-- The write that starts a command. -/
theorem serve_cmd (s : State) (w : Word) : serve (.write 0x010 w) s = execute w { s with reply := .ack, cmd := w } :=
  busWrite_control s 0x010 w .cmd (by simp [controlRegs]) rfl

/-- An aligned transaction reads or writes the location of its offset. -/
theorem busWrite_aligned {addr : BitVec 20} (h : addr.toNat % 4 = 0) (v : Word) (s : State) :
    busWrite addr v s = writeLoc (locate s.build addr) v { s with reply := .ack } := by
  rw [busWrite, if_neg (by simp [misaligned_eq_false h])]

theorem readWord_aligned {addr : BitVec 20} (h : addr.toNat % 4 = 0) (s : State) :
    readWord s addr = readLoc s (locate s.build addr) := by
  rw [readWord, if_neg (by simp [misaligned_eq_false h])]

/-- A word of MOD_IN, CAR_IN or OUT lies at its offset (20_memory.md R110). -/
theorem locate_inp {b : Build} (hb : b.frames ≤ 1024) (p : Path) (n : Nat) (hn : n < b.frames) :
    locate b (BitVec.ofNat 20 (inAddr p n)) = .inp p n := by
  have ha : inAddr p n < 0x06000 := by cases p <;> simp only [inAddr, pathNum] <;> omega
  have hm : (BitVec.ofNat 20 (inAddr p n)).toNat = inAddr p n := by
    rw [BitVec.toNat_ofNat]; exact Nat.mod_eq_of_lt (by omega)
  cases p <;> simp only [inAddr, pathNum, Nat.mul_zero, Nat.mul_one, Nat.add_zero] at hm ⊢ <;> rw [locate, hm] <;>
    simp (disch := omega) only [if_pos, if_neg, Nat.add_sub_cancel_left, Nat.mul_div_cancel_left]

theorem locate_out {b : Build} (hb : b.frames ≤ 1024) (n : Nat) (hn : n < b.frames) :
    locate b (BitVec.ofNat 20 (outAddr n)) = .out n := by
  have hm : (BitVec.ofNat 20 (0x06000 + 4 * n)).toNat = 0x06000 + 4 * n := by
    rw [BitVec.toNat_ofNat]; exact Nat.mod_eq_of_lt (by omega)
  rw [outAddr, locate, hm]
  simp (disch := omega) only [if_pos, if_neg, Nat.add_sub_cancel_left, Nat.mul_div_cancel_left]

/-- An offset in the scratch of a path is located in that scratch. -/
theorem locate_scratch {b : Build} {addr : BitVec 20} (p : Path) (h : 0x40000 + 0x40000 * pathNum p ≤ addr.toNat)
    (h' : addr.toNat < 0x80000 + 0x40000 * pathNum p) :
    locate b addr = locateScr b p (addr.toNat - (0x40000 + 0x40000 * pathNum p)) := by
  cases p <;> simp only [pathNum] at h h' ⊢ <;> unfold locate <;> simp (disch := omega) only [if_pos, if_neg]

theorem locateScr_row {b : Build} {p : Path} {i n : Nat} (hi : i < b.n) (hn : n < b.frames) (hf : b.frames ≤ 1024) :
    locateScr b p (4 * (i * 1024 + n)) = .scr p i n := by
  have e1 : 4 * (i * 1024 + n) / 4 / 1024 = i := by omega
  have e2 : 4 * (i * 1024 + n) / 4 % 1024 = n := by omega
  simp only [locateScr, Config.framesMax, e1, e2, if_pos (And.intro hi hn)]

/-- A scratch word lies at its offset (10_state.md R61). -/
theorem locate_scr {b : Build} (hb : b.wf = true) (p : Path) (i n : Nat) (hi : i < b.n) (hn : n < b.frames) :
    locate b (BitVec.ofNat 20 (scrAddr p i n)) = .scr p i n := by
  obtain ⟨-, hN, -, hF⟩ := Build.wf_bounds hb
  have e0 : scrAddr p i n = 0x40000 + 0x40000 * pathNum p + 4 * (i * 1024 + n) := rfl
  have hm : (BitVec.ofNat 20 (scrAddr p i n)).toNat = scrAddr p i n := by
    rw [BitVec.toNat_ofNat]
    refine Nat.mod_eq_of_lt ?_
    rw [e0]
    cases p <;> simp only [pathNum] <;> omega
  rw [locate_scratch p (by omega) (by cases p <;> simp only [pathNum] at e0 ⊢ <;> omega), hm,
    show scrAddr p i n - (0x40000 + 0x40000 * pathNum p) = 4 * (i * 1024 + n) by omega, locateScr_row hi hn hF]

/-- Where a location lies, and that the build implements it. -/
def Loc.At (b : Build) (a : Nat) : Loc → Prop
  | .inp p n => a = inAddr p n ∧ n < b.frames
  | .out n => a = outAddr n ∧ n < b.frames
  | .scr p i n => a = scrAddr p i n ∧ i < b.n ∧ n < b.frames
  | .env i => i < b.n
  | .bandWord _ i _ => i < b.n
  | .id | .cfg | .ctrl | .status | .cmd | .err | .errCmd | .errInfo | .arg0 | .arg1 | .fs | .gain | .blkOff | .blkLen
  | .stg _ | .reserved => a < 0x100000

theorem controlRegs_at (b : Build) (a : Nat) : ∀ e ∈ controlRegs, e.2.At b a = (a < 0x100000) := by
  simp [controlRegs, Loc.At]

theorem locateControl_at (b : Build) (a : Nat) (h : a < 0x01000) : (locateControl b a).At b a := by
  unfold locateControl
  split
  · rw [controlRegs_at b a _ (List.mem_of_find?_eq_some ‹_›)]; omega
  · split
    · rename_i hc; exact hc.2
    · simp only [Loc.At]; omega

theorem locateBand_at (b : Build) (p : Path) (r a : Nat) (h : a < 0x100000) : (locateBand b p r).At b a := by
  unfold locateBand
  split
  · split
    · assumption
    · exact h
  · exact h

theorem locateScr_at (b : Build) (p : Path) (r a : Nat) (h : a < 0x100000) (hr : r % 4 = 0)
    (ha : a = 0x40000 + 0x40000 * pathNum p + r) : (locateScr b p r).At b a := by
  simp only [locateScr]
  by_cases hc : r / 4 / Config.framesMax < b.n ∧ r / 4 % Config.framesMax < b.frames
  · rw [if_pos hc]
    refine ⟨?_, hc⟩
    simp only [scrAddr, Config.framesMax]
    omega
  · rw [if_neg hc]; exact h

/-- What an aligned offset names lies at that offset. -/
theorem locate_at (b : Build) (addr : BitVec 20) (ha : addr.toNat % 4 = 0) : (locate b addr).At b addr.toNat := by
  have hlt := addr.isLt
  unfold locate
  generalize addr.toNat = a at *
  simp only
  split
  · exact locateControl_at b a ‹_›
  have hl : a < 0x100000 := hlt
  split
  · generalize a - 0x01000 = r
    exact locateBand_at b .mod r a hl
  split
  · generalize a - 0x02000 = r
    exact locateBand_at b .car r a hl
  split
  · simp only [Loc.At]; omega
  split
  · split
    · exact ⟨by simp only [inAddr, pathNum]; omega, ‹_›⟩
    · simp only [Loc.At]; omega
  split
  · split
    · exact ⟨by simp only [inAddr, pathNum]; omega, ‹_›⟩
    · simp only [Loc.At]; omega
  split
  · split
    · exact ⟨by simp only [outAddr]; omega, ‹_›⟩
    · simp only [Loc.At]; omega
  split
  · simp only [Loc.At]; omega
  split
  · exact locateScr_at _ _ _ _ hl (by omega) (by simp only [pathNum]; omega)
  split
  · exact locateScr_at _ _ _ _ hl (by omega) (by simp only [pathNum]; omega)
  · simp only [Loc.At]; omega

/-- A location that no write changes. -/
def Loc.readOnly : Loc → Bool
  | .id | .cfg | .status | .errCmd | .errInfo | .gain | .env _ | .bandWord _ _ _ | .scr _ _ _ | .reserved => true
  | .ctrl | .cmd | .err | .arg0 | .arg1 | .fs | .blkOff | .blkLen | .stg _ | .inp _ _ | .out _ => false

theorem writeLoc_readOnly {l : Loc} (h : l.readOnly = true) (v : Word) (s : State) : writeLoc l v s = .next s := by
  cases l <;> first | rfl | cases h

/-! ### Every transaction completes -/

/-- A decoded command completes, with its effect or with one error. -/
theorem exec_next (i : Instr) (s : State) : ∃ t, exec i s = .next t := by
  rcases exec_cases i s with ⟨code, info, -, h⟩ | ⟨-, h⟩
  · exact ⟨_, h⟩
  · exact ⟨_, h⟩

/-- What executing a word does: it raises one error other than E_BUS with the word in CMD, or it runs a command that is
ready. -/
theorem execute_cases (w : Word) (s : State) :
    (∃ code info, code ≠ .bus ∧ execute w s = .next (capture code s.cmd info s)) ∨
      (∃ i, decode w = .ok i ∧ Ready i s ∧ execute w s = .next (effect i s)) := by
  unfold execute
  split
  · exact .inl ⟨_, _, by decide, rfl⟩
  · exact .inl ⟨_, _, by decide, rfl⟩
  · rename_i i hi
    rcases exec_cases i s with h | ⟨hr, h⟩
    · exact .inl h
    · exact .inr ⟨i, hi, hr, h⟩

theorem execute_next (w : Word) (s : State) : ∃ t, execute w s = .next t := by
  rcases execute_cases w s with ⟨code, info, -, h⟩ | ⟨i, -, -, h⟩
  · exact ⟨_, h⟩
  · exact ⟨_, h⟩

theorem writeLoc_next (l : Loc) (v : Word) (s : State) : ∃ t, writeLoc l v s = .next t := by
  cases l with
  | cmd => exact execute_next _ _
  | ctrl =>
    simp only [writeLoc]
    split
    · exact ⟨_, rfl⟩
    · exact ⟨_, rfl⟩
  | _ => exact ⟨_, rfl⟩

theorem busRead_next (addr : BitVec 20) (s : State) : ∃ t, busRead addr s = .next t := by
  unfold busRead
  split
  · exact ⟨_, rfl⟩
  · exact ⟨_, rfl⟩

theorem busWrite_next (addr : BitVec 20) (v : Word) (s : State) : ∃ t, busWrite addr v s = .next t := by
  unfold busWrite
  split
  · exact ⟨_, rfl⟩
  · exact writeLoc_next _ _ _

theorem serve_next (e : PortEvent) (s : State) : ∃ t, serve e s = .next t := by
  cases e with
  | read addr => exact busRead_next addr s
  | write addr v => exact busWrite_next addr v s
  | rst => exact ⟨_, rfl⟩

end Sys2Proof.Machine
end

