-- ==== Sys2Proof/Laws/Engine.lean ====
section
/-! SUPPORT. What the engine's operations change and what they leave, and the closed forms of GENERATE's loops. -/

namespace Sys2Proof.Machine

/-! ### Single operations -/

@[simp] theorem storeScr_mem (s : State) (p : Path) (i off : Nat) (ys : List Word) :
    (s.storeScr p i off ys).mem = Memory.storeWords s.mem (scrAddr p i off) ys := rfl
@[simp] theorem storeOut_mem (s : State) (ys : List Word) :
    (s.storeOut ys).mem = Memory.storeWords s.mem (outAddr 0) ys := rfl

/-- The state without its memory. -/
def noMem (s : State) : State := { s with mem := [] }

@[simp] theorem noMem_setMem (s : State) (m : List Host.Cell) : noMem (s.setMem m) = noMem s := rfl
@[simp] theorem noMem_storeScr (s : State) (p : Path) (i off : Nat) (ys : List Word) :
    noMem (s.storeScr p i off ys) = noMem s := rfl
@[simp] theorem noMem_storeOut (s : State) (ys : List Word) : noMem (s.storeOut ys) = noMem s := rfl
@[simp] theorem noMem_modulateBand (i : Nat) (s : State) : noMem (modulateBand i s) = noMem s := rfl
@[simp] theorem noMem_mixOut (s : State) : noMem (mixOut s) = noMem s := rfl
@[simp] theorem noMem_makeupOut (s : State) : noMem (makeupOut s) = noMem s := rfl
@[simp] theorem noMem_clearOut (s : State) : noMem (clearOut s) = noMem s := rfl

theorem eq_of_noMem {s t : State} (h : noMem t = noMem s) : { t with mem := s.mem } = s :=
  congrArg (fun u : State => { u with mem := s.mem }) h

theorem noMem_build {s t : State} (h : noMem t = noMem s) : t.build = s.build := by have := congrArg State.build h; exact this
theorem noMem_env {s t : State} (h : noMem t = noMem s) : t.env = s.env := by have := congrArg State.env h; exact this
theorem noMem_bands {s t : State} (h : noMem t = noMem s) (p : Path) : t.bands p = s.bands p := by
  cases p
  · have := congrArg State.modBands h; exact this
  · have := congrArg State.carBands h; exact this
theorem noMem_band {s t : State} (h : noMem t = noMem s) (p : Path) (i : Nat) : t.band p i = s.band p i := by
  simp [State.band, noMem_bands h, noMem_build h]

@[simp] theorem scrBlock_length (s : State) (p : Path) (i : Nat) : (s.scrBlock p i).length = s.build.frames := by
  simp [State.scrBlock]
@[simp] theorem outBlock_length (s : State) : s.outBlock.length = s.build.frames := by simp [State.outBlock]

theorem scrBlock_getD (s : State) (p : Path) (i n : Nat) (h : n < s.build.frames) :
    (s.scrBlock p i).getD n 0 = s.scr p i n := by
  rw [State.scrBlock, loadWords_getD _ _ _ _ h, State.scr, ← scrAddr_add, Nat.zero_add]

theorem outBlock_getD (s : State) (n : Nat) (h : n < s.build.frames) : s.outBlock.getD n 0 = s.out n := by
  rw [State.outBlock, loadWords_getD _ _ _ _ h, State.out, ← outAddr_add, Nat.zero_add]

/-- A scratch row reads as the list of its samples. -/
theorem scrBlock_eq_map (s : State) (p : Path) (i : Nat) :
    s.scrBlock p i = (List.range s.build.frames).map (fun n => s.scr p i n) := by
  simp only [State.scrBlock, Memory.loadWords, State.scr]
  exact List.map_congr_left fun n _ => by rw [← scrAddr_add, Nat.zero_add]

theorem map_fmul_getD (xs : List Word) (f : Word → Word) (n : Nat) (h : n < xs.length) :
    (xs.map f).getD n 0 = f (xs.getD n 0) := by
  simp [List.getD_eq_getElem?_getD, h]

/-- A sample of OUT after a block is stored in it. -/
theorem storeOut_out (s : State) (ys : List Word) (n : Nat) (h : n < ys.length) : (s.storeOut ys).out n = ys.getD n 0 := by
  have e : outAddr n = outAddr 0 + 4 * n := rfl
  rw [State.out, storeOut_mem, e, loadWord_storeWords_in _ _ _ _ h]

/-- A sample of a scratch row after a block is stored from its start. -/
theorem storeScr_scr (s : State) (p : Path) (i : Nat) (ys : List Word) (n : Nat) (h : n < ys.length) :
    (s.storeScr p i 0 ys).scr p i n = ys.getD n 0 := by
  have e : scrAddr p i n = scrAddr p i 0 + 4 * n := by simp only [scrAddr]; omega
  rw [State.scr, storeScr_mem, e, loadWord_storeWords_in _ _ _ _ h]

theorem storeOut_byte_out (s : State) (ys : List Word) (a : Nat) (h : a < outAddr 0 ∨ outAddr 0 + 4 * ys.length ≤ a) :
    Memory.byte (s.storeOut ys).mem a = Memory.byte s.mem a := byte_storeWords_out _ _ _ _ h

theorem storeScr_byte_out (s : State) (p : Path) (i off : Nat) (ys : List Word) (a : Nat)
    (h : a < scrAddr p i off ∨ scrAddr p i off + 4 * ys.length ≤ a) :
    Memory.byte (s.storeScr p i off ys).mem a = Memory.byte s.mem a := byte_storeWords_out _ _ _ _ h

/-- A store to OUT leaves the scratch rows. -/
theorem storeOut_scrBlock (s : State) (ys : List Word) (p : Path) (i : Nat) (h : ys.length ≤ 1024) :
    (s.storeOut ys).scrBlock p i = s.scrBlock p i := by
  refine loadWords_storeWords_out _ _ _ _ _ (.inr ?_)
  have := scrAddr_ge p i 0
  simp only [outAddr]; omega

theorem storeOut_scr (s : State) (ys : List Word) (p : Path) (i n : Nat) (h : ys.length ≤ 1024) :
    (s.storeOut ys).scr p i n = s.scr p i n := by
  refine loadWord_storeWords_out _ _ _ _ (.inr ?_)
  have := scrAddr_ge p i n
  simp only [outAddr]; omega

/-- A store to a scratch row leaves every other row. -/
theorem storeScr_scrBlock_other (s : State) (p q : Path) (i k off : Nat) (ys : List Word) (hi : i < 64) (hk : k < 64)
    (hf : s.build.frames ≤ 1024) (ho : off + ys.length ≤ 1024) (h : (q, k) ≠ (p, i)) :
    (s.storeScr p i off ys).scrBlock q k = s.scrBlock q k := by
  refine loadWords_storeWords_out _ _ _ _ _ ?_
  have h0 : (s.storeScr p i off ys).build.frames = s.build.frames := rfl
  rw [h0]
  have := scr_rows_disjoint hk hi h
  have e1 := scrAddr_add q k 0 1024
  have e2 := scrAddr_add p i 0 1024
  have e3 := scrAddr_add p i 0 off
  simp only [Nat.zero_add] at e1 e2 e3
  rw [e1, e2] at this
  omega

/-- A store to the scratch leaves OUT. -/
theorem storeScr_out (s : State) (p : Path) (i off : Nat) (ys : List Word) (n : Nat) (h : n < 1024) :
    (s.storeScr p i off ys).out n = s.out n := by
  refine loadWord_storeWords_out _ _ _ _ (.inl ?_)
  have := scrAddr_ge p i off
  simp only [outAddr]; omega

theorem setBand_scrBlock (s : State) (p : Path) (i : Nat) (b : Band) (q : Path) (k : Nat) :
    (s.setBand p i b).scrBlock q k = s.scrBlock q k := by simp [State.scrBlock]
theorem setBand_out (s : State) (p : Path) (i : Nat) (b : Band) (n : Nat) : (s.setBand p i b).out n = s.out n := by
  simp [State.out]
theorem setEnv_scrBlock (s : State) (i : Nat) (e : Word) (q : Path) (k : Nat) :
    (s.setEnv i e).scrBlock q k = s.scrBlock q k := rfl

/-! ### Step 1: filtering every band -/

theorem eachBand_succ (n : Nat) (op : Nat → State → State) (s : State) :
    eachBand (n + 1) op s = op n (eachBand n op s) := by
  simp [eachBand, List.range_succ]

/-- What filtering the first `m` bands of both paths leaves. -/
structure Filtered (s t : State) (m : Nat) : Prop where
  rest : noBandsMem t = noBandsMem s
  sizes : t.SizesOk
  bandIn : ∀ q i, i < m → t.band q i = { s.band q i with
    st := biquadState (s.band q i).coef (s.band q i).st (s.inBlock q 0 s.build.frames) }
  bandOut : ∀ q i, m ≤ i → t.band q i = s.band q i
  rowIn : ∀ q i, i < m → t.scrBlock q i =
    biquadOuts (s.band q i).coef (s.band q i).st (s.inBlock q 0 s.build.frames)
  input : ∀ q, t.inBlock q 0 s.build.frames = s.inBlock q 0 s.build.frames
  bytes : ∀ a, (∀ q i, i < m → a < scrAddr q i 0 ∨ scrAddr q i s.build.frames ≤ a) →
    Memory.byte t.mem a = Memory.byte s.mem a

theorem noBandsMem_build {s t : State} (h : noBandsMem t = noBandsMem s) : t.build = s.build := by have := congrArg State.build h; exact this

/-- One more band filtered, on one path, when that path's band is still as it was. -/
theorem filterWindow_row (t : Path × Nat) (s : State) :
    (filterWindow t 0 s.build.frames s).scrBlock t.1 t.2 =
      biquadOuts (s.band t.1 t.2).coef (s.band t.1 t.2).st (s.inBlock t.1 0 s.build.frames) := by
  have h := loadWords_storeWords_same s.mem (scrAddr t.1 t.2 0)
    (biquadOuts (s.band t.1 t.2).coef (s.band t.1 t.2).st (s.inBlock t.1 0 s.build.frames))
  simp only [biquadOuts_length, inBlock_length] at h
  rw [State.scrBlock, filterWindow_build, filterWindow_mem]
  exact h

theorem filterWindow_row_other (t : Path × Nat) (off len : Nat) (s : State) (q : Path) (k : Nat) (ht : t.2 < 64) (hk : k < 64)
    (hf : s.build.frames ≤ 1024) (hw : off + len ≤ 1024) (h : (q, k) ≠ t) :
    (filterWindow t off len s).scrBlock q k = s.scrBlock q k := by
  simp only [filterWindow]
  rw [storeScr_scrBlock_other _ _ _ _ _ _ _ ht hk (by simpa using hf) (by simpa using hw) h, setBand_scrBlock]

theorem eachBand_filtered (s : State) (hs : s.SizesOk) (hb : s.build.wf = true) (m : Nat) (hm : m ≤ s.build.n) :
    Filtered s (eachBand m filterBand s) m := by
  obtain ⟨-, hn, -, hf⟩ := Build.wf_bounds hb
  induction m with
  | zero =>
    exact ⟨rfl, hs, fun _ _ h => absurd h (by omega), fun _ _ _ => rfl, fun _ _ h => absurd h (by omega),
      fun _ => rfl, fun _ _ => rfl⟩
  | succ m ih =>
    have F := ih (by omega)
    rw [eachBand_succ]
    generalize eachBand m filterBand s = u at F
    have hbu : u.build = s.build := noBandsMem_build F.rest
    have hcm : ((.car : Path), m) ≠ (.mod, m) := by simp
    have hu1 := filterWindow_SizesOk (.mod, m) 0 u.build.frames u F.sizes
    simp only [filterBand]
    have inp : ∀ q, (filterWindow (.mod, m) 0 u.build.frames u).inBlock q 0 s.build.frames = s.inBlock q 0 s.build.frames :=
      fun q => by rw [filterWindow_inBlock _ _ _ _ _ _ _ (by omega), F.input]
    have bMod : (filterWindow (.mod, m) 0 u.build.frames u).band .mod m = { s.band .mod m with
        st := biquadState (s.band .mod m).coef (s.band .mod m).st (s.inBlock .mod 0 s.build.frames) } := by
      have := filterWindow_band_same (.mod, m) 0 u.build.frames u F.sizes (by simp [hbu]; omega)
      rw [F.bandOut _ _ (le_refl _), hbu, F.input] at this
      rw [hbu]; exact this
    have bCar0 : (filterWindow (.mod, m) 0 u.build.frames u).band .car m = s.band .car m := by
      rw [filterWindow_band_other _ _ _ _ _ _ hcm, F.bandOut _ _ (le_refl _)]
    refine ⟨?_, filterWindow_SizesOk _ _ _ _ hu1, ?_, ?_, ?_, ?_, ?_⟩
    · simpa using F.rest
    · intro q i hi
      by_cases him : i = m
      · subst him
        cases q with
        | mod => rw [filterWindow_band_other _ _ _ _ _ _ (by simp), bMod]
        | car =>
          have := filterWindow_band_same (.car, i) 0 u.build.frames (filterWindow (.mod, i) 0 u.build.frames u) hu1
            (by simp [hbu]; omega)
          simp only [bCar0] at this
          rw [this, hbu, ← inp .car, hbu]
      · rw [filterWindow_band_other _ _ _ _ _ _ (by simp [him]), filterWindow_band_other _ _ _ _ _ _ (by simp [him]),
          F.bandIn _ _ (by omega)]
    · intro q i hi
      have him : i ≠ m := by omega
      rw [filterWindow_band_other _ _ _ _ _ _ (by simp [him]), filterWindow_band_other _ _ _ _ _ _ (by simp [him]),
        F.bandOut _ _ (by omega)]
    · intro q i hi
      have hi64 : i < 64 := by omega
      have hm64 : m < 64 := by omega
      by_cases him : i = m
      · subst him
        cases q with
        | mod =>
          rw [filterWindow_row_other _ _ _ _ _ _ hm64 hi64 (by simp [hbu]; omega) (by rw [hbu]; omega) (by simp)]
          have := filterWindow_row (.mod, i) u
          simp only at this
          rw [this, F.bandOut _ _ (le_refl _), hbu, F.input]
        | car =>
          have := filterWindow_row (.car, i) (filterWindow (.mod, i) 0 u.build.frames u)
          simp only [filterWindow_build, bCar0] at this
          rw [this, hbu, ← inp .car, hbu]
      · rw [filterWindow_row_other _ _ _ _ _ _ hm64 hi64 (by simp [hbu]; omega) (by rw [hbu]; omega) (by simp [him]),
          filterWindow_row_other _ _ _ _ _ _ hm64 hi64 (by simp [hbu]; omega) (by rw [hbu]; omega) (by simp [him]),
          F.rowIn _ _ (by omega)]
    · intro q
      rw [filterWindow_inBlock _ _ _ _ _ _ _ (by omega), inp]
    · intro a ha
      have h1 := ha .car m (by omega)
      have h2 := ha .mod m (by omega)
      rw [filterWindow_byte_out _ _ _ _ _ (by simpa [hbu] using h1),
        filterWindow_byte_out _ _ _ _ _ (by simpa [hbu] using h2), F.bytes a fun q i hi => ha q i (by omega)]

/-! ### Step 2: every envelope -/

/-- The state without its envelopes. -/
def noEnv (s : State) : State := { s with env := [] }

@[simp] theorem noEnv_envelopeBand (i : Nat) (s : State) : noEnv (envelopeBand i s) = noEnv s := rfl

@[simp] theorem noEnv_eachBand (m : Nat) (s : State) : noEnv (eachBand m envelopeBand s) = noEnv s :=
  foldl_keeps noEnv (fun s i => envelopeBand i s) (fun _ _ => rfl) _ s

theorem noEnv_mem {s t : State} (h : noEnv t = noEnv s) : t.mem = s.mem := by have := congrArg State.mem h; exact this
theorem noEnv_build {s t : State} (h : noEnv t = noEnv s) : t.build = s.build := by have := congrArg State.build h; exact this
theorem noEnv_scrBlock {s t : State} (h : noEnv t = noEnv s) (q : Path) (i : Nat) : t.scrBlock q i = s.scrBlock q i := by
  simp [State.scrBlock, noEnv_mem h, noEnv_build h]

/-- The first `m` envelopes are the peaks of their rows, the rest as before. -/
theorem eachBand_envelope (s : State) (m : Nat) (hm : m ≤ s.env.length) :
    (eachBand m envelopeBand s).env.length = s.env.length ∧
    (∀ i < m, (eachBand m envelopeBand s).envAt i = peak (s.scrBlock .mod i)) ∧
    (∀ i, m ≤ i → (eachBand m envelopeBand s).envAt i = s.envAt i) := by
  induction m with
  | zero => exact ⟨rfl, fun _ h => absurd h (by omega), fun _ _ => rfl⟩
  | succ m ih =>
    obtain ⟨hl, hin, hout⟩ := ih (by omega)
    rw [eachBand_succ]
    have hrow := noEnv_scrBlock (noEnv_eachBand m s) .mod m
    refine ⟨by simpa [envelopeBand] using hl, ?_, ?_⟩
    · intro i hi
      by_cases him : i = m
      · subst him
        rw [envelopeBand, setEnv_envAt_same _ _ _ (by omega), hrow]
      · rw [envelopeBand, setEnv_envAt_other _ _ _ _ him, hin i (by omega)]
    · intro i hi
      rw [envelopeBand, setEnv_envAt_other _ _ _ _ (by omega), hout i (by omega)]

/-! ### Step 3: every modulation -/

/-- The first `m` carrier rows are scaled, everything else is as before. -/
theorem eachBand_modulate (s : State) (hb : s.build.wf = true) (m : Nat) (hm : m ≤ s.build.n) :
    noMem (eachBand m modulateBand s) = noMem s ∧
    (∀ i < m, (eachBand m modulateBand s).scrBlock .car i = (s.scrBlock .car i).map (fun x => fmul x (s.envAt i))) ∧
    (∀ i < 64, m ≤ i → (eachBand m modulateBand s).scrBlock .car i = s.scrBlock .car i) ∧
    (∀ i < 64, (eachBand m modulateBand s).scrBlock .mod i = s.scrBlock .mod i) ∧
    (∀ n < 1024, (eachBand m modulateBand s).out n = s.out n) ∧
    (∀ a, (∀ i < m, a < scrAddr .car i 0 ∨ scrAddr .car i s.build.frames ≤ a) →
      Memory.byte (eachBand m modulateBand s).mem a = Memory.byte s.mem a) := by
  obtain ⟨-, hn, -, hf⟩ := Build.wf_bounds hb
  induction m with
  | zero =>
    exact ⟨rfl, fun _ h => absurd h (by omega), fun _ _ _ => rfl, fun _ _ => rfl, fun _ _ => rfl, fun _ _ => rfl⟩
  | succ m ih =>
    obtain ⟨h1, h2, h3, h4, h5, h6⟩ := ih (by omega)
    rw [eachBand_succ]
    generalize eachBand m modulateBand s = u at *
    have hbu : u.build = s.build := noMem_build h1
    have henv : ∀ i, u.envAt i = s.envAt i := fun i => by simp [State.envAt, noMem_env h1]
    have hrow : ∀ q i, i < 64 → (q, i) ≠ (.car, m) → (modulateBand m u).scrBlock q i = u.scrBlock q i := by
      intro q i hi hne
      rw [modulateBand, storeScr_scrBlock_other _ _ _ _ _ _ _ (by omega) hi (by rw [hbu]; omega)
        (by simp [hbu]; omega) hne]
    refine ⟨by simpa using h1, ?_, ?_, ?_, ?_, ?_⟩
    · intro i hi
      by_cases him : i = m
      · subst him
        have := loadWords_storeWords_same u.mem (scrAddr .car i 0) ((u.scrBlock .car i).map (fun x => fmul x (u.envAt i)))
        simp only [List.length_map, scrBlock_length] at this
        have e : (modulateBand i u).scrBlock .car i = (u.scrBlock .car i).map (fun x => fmul x (u.envAt i)) := this
        rw [e, henv, h3 i (by omega) (le_refl _)]
      · rw [hrow _ _ (by omega) (by simp [him]), h2 i (by omega)]
    · intro i hi him
      have : i ≠ m := by omega
      rw [hrow _ _ hi (by simp [this]), h3 i hi (by omega)]
    · intro i hi
      rw [hrow _ _ hi (by simp), h4 i hi]
    · intro n hn
      rw [modulateBand, storeScr_out _ _ _ _ _ _ hn, h5 n hn]
    · intro a ha
      have hm' := ha m (by omega)
      rw [modulateBand, storeScr_byte_out, h6 a fun i hi => ha i (by omega)]
      have e := scrAddr_add .car m 0 s.build.frames
      rw [Nat.zero_add] at e
      simp only [List.length_map, scrBlock_length, hbu]
      omega

/-! ### Steps 4 and 5 -/

/-- A sample of OUT after MIX. -/
theorem mixOut_out (s : State) (n : Nat) (h : n < s.build.frames) : (mixOut s).out n = mixSample s n := by
  rw [mixOut, storeOut_out _ _ _ (by simpa using h)]
  simp [List.getD_eq_getElem?_getD, h]

/-- A sample of OUT after MAKEUP. -/
theorem makeupOut_out (s : State) (n : Nat) (h : n < s.build.frames) :
    (makeupOut s).out n = fmul (s.out n) (makeupGain s.build) := by
  rw [makeupOut, storeOut_out _ _ _ (by simpa using h), map_fmul_getD _ _ _ (by simpa using h), outBlock_getD _ _ h]

/-- A sample of OUT after CLEAR_OUT. -/
theorem clearOut_out (s : State) (n : Nat) (h : n < s.build.frames) : (clearOut s).out n = 0 := by
  rw [clearOut, storeOut_out _ _ _ (by simpa using h)]
  simp [List.getD_eq_getElem?_getD, h]

theorem mixOut_byte_out (s : State) (a : Nat) (h : a < 0x06000 ∨ 0x06000 + 4 * s.build.frames ≤ a) :
    Memory.byte (mixOut s).mem a = Memory.byte s.mem a := by
  refine storeOut_byte_out _ _ _ ?_
  simpa [outAddr] using h

theorem makeupOut_byte_out (s : State) (a : Nat) (h : a < 0x06000 ∨ 0x06000 + 4 * s.build.frames ≤ a) :
    Memory.byte (makeupOut s).mem a = Memory.byte s.mem a := by
  refine storeOut_byte_out _ _ _ ?_
  simpa [outAddr] using h

theorem clearOut_byte_out (s : State) (a : Nat) (h : a < 0x06000 ∨ 0x06000 + 4 * s.build.frames ≤ a) :
    Memory.byte (clearOut s).mem a = Memory.byte s.mem a := by
  refine storeOut_byte_out _ _ _ ?_
  simpa [outAddr] using h

theorem mixOut_scrBlock (s : State) (hf : s.build.frames ≤ 1024) (q : Path) (i : Nat) :
    (mixOut s).scrBlock q i = s.scrBlock q i := storeOut_scrBlock _ _ _ _ (by simpa using hf)

theorem makeupOut_scrBlock (s : State) (hf : s.build.frames ≤ 1024) (q : Path) (i : Nat) :
    (makeupOut s).scrBlock q i = s.scrBlock q i := storeOut_scrBlock _ _ _ _ (by simpa using hf)

end Sys2Proof.Machine
end

