-- ==== Sys2Proof/Laws/Invariant.lean ====
section
/-! SUPPORT. Each shared operation keeps each part of `State.Inv`, and every command that is ready keeps the whole. -/

namespace Sys2Proof.Machine

/-! ### Memory stays canonical and inside the implemented buffers -/

theorem bufferByte_inp {b : Build} (hb : b.frames ≤ 1024) {p : Path} {n a : Nat} (hn : n < b.frames)
    (h : inAddr p n ≤ a) (h' : a < inAddr p n + 4) : bufferByte b a = true := by
  have hl := inAddr_lt p n (by omega)
  have e : a / 4 * 4 = inAddr p n := by
    have : inAddr p n % 4 = 0 := by simp only [inAddr]; omega
    omega
  simp [bufferByte, e, locate_inp hb p n hn]; omega

theorem bufferByte_out {b : Build} (hb : b.frames ≤ 1024) {n a : Nat} (hn : n < b.frames)
    (h : outAddr n ≤ a) (h' : a < outAddr n + 4) : bufferByte b a = true := by
  have e : a / 4 * 4 = outAddr n := by simp only [outAddr] at *; omega
  simp [bufferByte, e, locate_out hb n hn]; simp only [outAddr] at *; omega

theorem bufferByte_scr {b : Build} (hb : b.wf = true) {p : Path} {i n a : Nat} (hi : i < b.n) (hn : n < b.frames)
    (h : scrAddr p i n ≤ a) (h' : a < scrAddr p i n + 4) : bufferByte b a = true := by
  obtain ⟨-, hN, -, hF⟩ := Build.wf_bounds hb
  have e0 : scrAddr p i n = 0x40000 + 0x40000 * pathNum p + 4 * (i * 1024 + n) := rfl
  have e : a / 4 * 4 = scrAddr p i n := by omega
  have : a < 2 ^ 20 := by cases p <;> simp only [pathNum] at e0 <;> omega
  simp [bufferByte, e, locate_scr hb p i n hi hn]; omega

/-- A store of words whose bytes all lie in the buffers keeps memory as it should be. -/
theorem MemOk_storeWords {s : State} (h : s.MemOk) (a : Nat) (ws : List Word)
    (hin : ∀ x, a ≤ x → x < a + 4 * ws.length → bufferByte s.build x = true) :
    (s.setMem (Memory.storeWords s.mem a ws)).MemOk := by
  refine ⟨storeWords_wf _ _ _ h.1, ?_⟩
  intro c hc
  rcases mem_store _ _ _ c hc with hc | ⟨h1, h2⟩
  · exact h.2 c hc
  · rw [flatMap_wordBytes_length] at h2
    exact hin _ h1 h2

theorem MemOk_storeScr {s : State} (h : s.MemOk) (hb : s.build.wf = true) (p : Path) (i off : Nat) (ys : List Word)
    (hi : i < s.build.n) (hw : off + ys.length ≤ s.build.frames) : (s.storeScr p i off ys).MemOk := by
  refine MemOk_storeWords h _ _ fun x h1 h2 => ?_
  have e0 := scrAddr_add p i off ((x - scrAddr p i off) / 4)
  exact bufferByte_scr hb (p := p) hi (n := off + (x - scrAddr p i off) / 4) (by omega) (by omega) (by omega)

theorem MemOk_storeOut {s : State} (h : s.MemOk) (hf : s.build.frames ≤ 1024) (ys : List Word)
    (hw : ys.length ≤ s.build.frames) : (s.storeOut ys).MemOk := by
  refine MemOk_storeWords h _ _ fun x h1 h2 => ?_
  have e0 := outAddr_add 0 ((x - outAddr 0) / 4)
  exact bufferByte_out hf (n := 0 + (x - outAddr 0) / 4) (by omega) (by omega) (by omega)

/-! ### Unconfigured bands stay at reset -/

theorem FreshOk_iff (s : State) :
    s.FreshOk ↔ ∀ q, ∀ b ∈ s.bands q, b.conf = false → b = Band.reset s.build.coefReset := by
  constructor
  · intro h q b hb
    cases q with
    | mod => exact h b (List.mem_append_left _ hb)
    | car => exact h b (List.mem_append_right _ hb)
  · intro h b hb
    rcases List.mem_append.1 hb with hb | hb
    · exact h .mod b hb
    · exact h .car b hb

/-- Setting a configured band keeps the others fresh. -/
theorem FreshOk_setBand {s : State} (h : s.FreshOk) (p : Path) (i : Nat) (b : Band) (hb : b.conf = true) :
    (s.setBand p i b).FreshOk := by
  rw [FreshOk_iff] at *
  intro q c hc hconf
  rw [setBand_build]
  by_cases hq : q = p
  · subst hq
    have : (s.setBand q i b).bands q = (s.bands q).set i b := by cases q <;> rfl
    rw [this] at hc
    rcases List.mem_or_eq_of_mem_set hc with hc | rfl
    · exact h q c hc hconf
    · rw [hb] at hconf; cases hconf
  · rw [setBand_bands_other _ _ _ _ _ hq] at hc
    exact h q c hc hconf

/-- A band that exists and is not configured has its reset value. -/
theorem FreshOk_band {s : State} (h : s.FreshOk) (q : Path) (i : Nat) (hc : (s.band q i).conf = false) :
    s.band q i = Band.reset s.build.coefReset := by
  rw [FreshOk_iff] at h
  by_cases hi : i < (s.bands q).length
  · refine h q _ ?_ hc
    rw [State.band, List.getD_eq_getElem _ _ hi]
    exact List.getElem_mem _
  · simp [State.band, List.getD_eq_getElem?_getD, hi]

/-! ### Envelopes -/

theorem EnvOk_setEnv {s : State} (h : s.EnvOk) (i : Nat) (e : Word) (hn : isNaN e = false) (hs : signBit e = false) :
    (s.setEnv i e).EnvOk := by
  unfold State.EnvOk at *
  rw [List.all_eq_true] at *
  intro x hx
  rcases List.mem_or_eq_of_mem_set hx with hx | rfl
  · exact h x hx
  · simp [hn, hs]

theorem units_nonneg {e : Word} (h : signBit e = false) : 0 ≤ units e := by simp [units, h]

theorem units_nonpos {e : Word} (h : signBit e = true) : units e ≤ 0 := by simp [units, h]

/-- A running peak that is a legal envelope stays one. -/
theorem peakStep_legal {e : Word} (x : Word) (hn : isNaN e = false) (hs : signBit e = false) :
    isNaN (peakStep e x) = false ∧ signBit (peakStep e x) = false := by
  unfold peakStep
  split
  · rename_i h
    simp only [fgt, flt, Bool.and_eq_true, Bool.not_eq_true', decide_eq_true_eq] at h
    refine ⟨h.1.2, ?_⟩
    cases hx : signBit x with
    | false => rfl
    | true =>
      have := units_nonpos hx
      have := units_nonneg hs
      omega
  · exact ⟨hn, hs⟩

theorem peak_legal (xs : List Word) : isNaN (peak xs) = false ∧ signBit (peak xs) = false :=
  foldl_preserves (fun e => isNaN e = false ∧ signBit e = false) peakStep (fun _ x h => peakStep_legal x h.1 h.2) xs 0
    (by decide)

/-! ### Whole operations -/

theorem Inv_setBand {s : State} (h : s.Inv) (p : Path) (i : Nat) (b : Band) (hb : b.conf = true) : (s.setBand p i b).Inv := by
  obtain ⟨h1, h2, h3, h4, h5, h6⟩ := h
  refine ⟨by simpa using h1, setBand_SizesOk _ _ _ h2, by simpa [State.MemOk] using h3, by simpa [State.CaptureOk] using h4,
    FreshOk_setBand h5 p i b hb, by simpa [State.EnvOk] using h6⟩

theorem Inv_storeScr {s : State} (h : s.Inv) (p : Path) (i off : Nat) (ys : List Word) (hi : i < s.build.n)
    (hw : off + ys.length ≤ s.build.frames) : (s.storeScr p i off ys).Inv := by
  obtain ⟨h1, h2, h3, h4, h5, h6⟩ := h
  exact ⟨h1, h2, MemOk_storeScr h3 h1 p i off ys hi hw, h4, h5, h6⟩

theorem Inv_storeOut {s : State} (h : s.Inv) (ys : List Word) (hw : ys.length ≤ s.build.frames) : (s.storeOut ys).Inv := by
  obtain ⟨h1, h2, h3, h4, h5, h6⟩ := h
  exact ⟨h1, h2, MemOk_storeOut h3 (Build.wf_bounds h1).2.2.2 ys hw, h4, h5, h6⟩

theorem Inv_setEnv {s : State} (h : s.Inv) (i : Nat) (e : Word) (hn : isNaN e = false) (hs : signBit e = false) :
    (s.setEnv i e).Inv := by
  obtain ⟨h1, h2, h3, h4, h5, h6⟩ := h
  exact ⟨h1, setEnv_SizesOk _ _ h2, h3, h4, h5, EnvOk_setEnv h6 i e hn hs⟩

theorem Inv_capture {s : State} (h : s.Inv) (code : ErrCode) (w info : Word) (hb : code = .bus → w = 0) :
    (capture code w info s).Inv := by
  obtain ⟨h1, h2, h3, h4, h5, h6⟩ := h
  cases hc : s.errCause with
  | none =>
    have e : capture code w info s = { s with errCause := some code, errCmd := w, errInfo := info } := by simp [capture, hc]
    rw [e]
    exact ⟨h1, h2, h3, ⟨fun h => absurd h (by simp), fun h => hb (Option.some.inj h)⟩, h5, h6⟩
  | some c =>
    have e : capture code w info s = { s with errOvf := true } := by simp [capture, hc]
    rw [e]
    exact ⟨h1, h2, h3, ⟨fun h => absurd (hc.symm.trans h) (by simp), h4.2⟩, h5, h6⟩

theorem Inv_clearErr {s : State} (h : s.Inv) : (clearErr s).Inv := by
  obtain ⟨h1, h2, h3, h4, h5, h6⟩ := h
  exact ⟨h1, h2, h3, ⟨fun _ => ⟨rfl, rfl, rfl⟩, fun h => absurd h (by simp [clearErr])⟩, h5, h6⟩

theorem Inv_filterWindow {s : State} (h : s.Inv) (t : Path × Nat) (off len : Nat) (ht : t.2 < s.build.n)
    (hw : off + len ≤ s.build.frames) (hc : (s.band t.1 t.2).conf = true) : (filterWindow t off len s).Inv := by
  unfold filterWindow
  refine Inv_storeScr (Inv_setBand h t.1 t.2 _ ?_) t.1 t.2 off _ (by simpa using ht) ?_
  · exact hc
  · simp only [biquadOuts_length, inBlock_length, setBand_build]; exact hw

theorem Inv_filterAll (ts : List (Path × Nat)) (off len : Nat) :
    ∀ s : State, s.Inv → (∀ t ∈ ts, t.2 < s.build.n) → off + len ≤ s.build.frames → s.Configured ts →
      (filterAll ts off len s).Inv := by
  induction ts with
  | nil => exact fun s h _ _ _ => h
  | cons t ts ih =>
    intro s h ht hw hc
    rw [filterAll_cons]
    refine ih _ (Inv_filterWindow h t off len (ht t List.mem_cons_self) hw (hc t List.mem_cons_self)) ?_ (by simpa using hw) ?_
    · intro u hu; rw [filterWindow_build]; exact ht u (List.mem_cons_of_mem _ hu)
    · intro u hu; rw [(filterWindow_coef_conf t off len s u.1 u.2).2]; exact hc u (List.mem_cons_of_mem _ hu)

theorem Inv_configureAll (ts : List (Path × Nat)) (c : Nat → Coef) (s : State) (h : s.Inv) : (configureAll ts c s).Inv :=
  foldl_preserves State.Inv _ (fun _ _ hs => Inv_setBand hs _ _ _ rfl) ts s h

theorem Inv_envelopeBand {s : State} (h : s.Inv) (i : Nat) : (envelopeBand i s).Inv :=
  Inv_setEnv h i _ (peak_legal _).1 (peak_legal _).2

theorem Inv_modulateBand {s : State} (h : s.Inv) (i : Nat) (hi : i < s.build.n) : (modulateBand i s).Inv :=
  Inv_storeScr h _ _ _ _ hi (by simp)

theorem Inv_mixOut {s : State} (h : s.Inv) : (mixOut s).Inv := Inv_storeOut h _ (by simp)
theorem Inv_makeupOut {s : State} (h : s.Inv) : (makeupOut s).Inv := Inv_storeOut h _ (by simp)
theorem Inv_clearOut {s : State} (h : s.Inv) : (clearOut s).Inv := Inv_storeOut h _ (by simp)

/-- An operation on each band index below `m` keeps what every one of them keeps. -/
theorem eachBand_preserves (P : State → Prop) (op : Nat → State → State) (m : Nat)
    (h : ∀ i < m, ∀ s, P s → P (op i s)) (s : State) (hs : P s) : P (eachBand m op s) := by
  induction m with
  | zero => exact hs
  | succ m ih =>
    rw [eachBand_succ]
    exact h m (by omega) _ (ih fun i hi => h i (by omega))

theorem Inv_generateBlock {s : State} (h : s.Inv) (hc : s.Configured (bankTargets .both s.build.n)) : (generateBlock s).Inv := by
  have h1 : (eachBand s.build.n filterBand s).Inv ∧ (eachBand s.build.n filterBand s).build = s.build ∧
      (eachBand s.build.n filterBand s).Configured (bankTargets .both s.build.n) := by
    refine eachBand_preserves (fun t => t.Inv ∧ t.build = s.build ∧ t.Configured (bankTargets .both s.build.n)) filterBand
      s.build.n ?_ s ⟨h, rfl, hc⟩
    rintro i hi t ⟨ht, hb, hconf⟩
    have e : filterBand i t = filterAll (targets .both i) 0 t.build.frames t := by
      show filterWindow (.car, i) 0 t.build.frames (filterWindow (.mod, i) 0 t.build.frames t) = _
      rfl
    rw [e]
    refine ⟨Inv_filterAll _ _ _ t ht ?_ (by omega) ?_, by rw [filterAll_build, hb], ?_⟩
    · rintro ⟨q, k⟩ hq
      obtain ⟨-, rfl⟩ := mem_targets.1 hq
      rw [hb]; exact hi
    · rintro ⟨q, k⟩ hq
      obtain ⟨hq', rfl⟩ := mem_targets.1 hq
      exact hconf (q, k) (mem_bankTargets.2 ⟨hq', hi⟩)
    · intro u hu
      rw [(filterAll_coef_conf _ _ _ u.1 u.2 t).2]
      exact hconf u hu
  unfold generateBlock
  simp only
  generalize eachBand s.build.n filterBand s = s1 at h1
  have h2 : (eachBand s.build.n envelopeBand s1).Inv ∧ (eachBand s.build.n envelopeBand s1).build = s.build :=
    ⟨eachBand_preserves State.Inv envelopeBand _ (fun i _ t ht => Inv_envelopeBand ht i) s1 h1.1,
      by rw [noEnv_build (noEnv_eachBand _ s1), h1.2.1]⟩
  generalize eachBand s.build.n envelopeBand s1 = s2 at h2
  have h3 : (eachBand s.build.n modulateBand s2).Inv ∧ (eachBand s.build.n modulateBand s2).build = s.build :=
    eachBand_preserves (fun t => t.Inv ∧ t.build = s.build) modulateBand s.build.n
      (fun i hi t ht => ⟨Inv_modulateBand ht.1 i (by rw [ht.2]; exact hi), ht.2⟩) s2 h2
  exact Inv_makeupOut (Inv_mixOut h3.1)

/-- The effect of every command that is ready keeps the invariant. -/
theorem Inv_effect {i : Instr} {s : State} (h : s.Inv) (hr : Ready i s) : (effect i s).Inv := by
  cases i with
  | nop => exact h
  | setBandpass p b => exact Inv_configureAll _ _ s h
  | writeCoef p b => exact Inv_configureAll _ _ s h
  | filter p b =>
    obtain ⟨hb, hc, hw⟩ := hr
    refine Inv_filterAll _ _ _ s h ?_ ?_ hc
    · rintro ⟨q, k⟩ hq
      obtain ⟨-, rfl⟩ := mem_targets.1 hq
      exact hb
    · simp only [windowOk, Bool.and_eq_true, decide_eq_true_eq] at hw; exact hw.2
  | buildBank p => exact Inv_configureAll _ _ s h
  | envelope b => exact Inv_envelopeBand h _
  | modulate b => exact Inv_modulateBand h _ hr
  | mix => exact Inv_mixOut h
  | makeup => exact Inv_makeupOut h
  | generate => exact Inv_generateBlock h hr
  | clearOut => exact Inv_clearOut h

/-! ### Reset -/

/-- The memory at reset is canonical. -/
theorem reset_mem_wf : Memory.wf State.reset.mem := ⟨List.Pairwise.nil, fun _ hc => absurd hc List.not_mem_nil⟩

/-- The reset state of a build that is a VCORE meets the invariant, whatever stands at the port. -/
theorem Inv_resetCore (s : State) (hb : s.build.wf = true) : (resetCore s).Inv := by
  refine ⟨hb, ⟨by simp [resetCore, State.resetOf], by simp [resetCore, State.resetOf], by simp [resetCore, State.resetOf]⟩,
    ⟨⟨List.Pairwise.nil, fun _ hc => absurd hc List.not_mem_nil⟩, fun _ hc => absurd hc List.not_mem_nil⟩,
    ⟨fun _ => ⟨rfl, rfl, rfl⟩, fun h => absurd h (by simp [resetCore, State.resetOf])⟩, ?_, ?_⟩
  · intro b hmem _
    rcases List.mem_append.1 hmem with h | h
    · exact List.eq_of_mem_replicate h
    · exact List.eq_of_mem_replicate h
  · unfold State.EnvOk
    rw [List.all_eq_true]
    intro e he
    rw [List.eq_of_mem_replicate he]
    decide

end Sys2Proof.Machine
end

