-- ==== Sys2Proof/Laws/PerInstr.lean ====
section
/-! SUPPORT. Statements about every command as syntax, one lemma a constructor. -/

namespace Sys2Proof.Laws.TableRow

/-- The word of a command selects the row of its opcode in the match and mask table, and no other row
(30_encoding.md R133). -/
def Statement (i : Instr) : Prop := ∀ r ∈ opcodeTable, r.selects (encode i) = decide (r.op = i.op)

theorem nop : Statement .nop := by unfold Statement; decide
theorem setBandpass (path : PathSel) (band : BitVec 8) : Statement (.setBandpass path band) := by
  unfold Statement; revert band; cases path <;> decide +kernel
theorem writeCoef (path : PathSel) (band : BitVec 8) : Statement (.writeCoef path band) := by
  unfold Statement; revert band; cases path <;> decide +kernel
theorem filter (path : PathSel) (band : BitVec 8) : Statement (.filter path band) := by
  unfold Statement; revert band; cases path <;> decide +kernel
theorem buildBank (path : PathSel) : Statement (.buildBank path) := by
  unfold Statement; cases path <;> decide
theorem envelope (band : BitVec 8) : Statement (.envelope band) := by
  unfold Statement; revert band; decide +kernel
theorem modulate (band : BitVec 8) : Statement (.modulate band) := by
  unfold Statement; revert band; decide +kernel
theorem mix : Statement .mix := by unfold Statement; decide
theorem makeup : Statement .makeup := by unfold Statement; decide
theorem generate : Statement .generate := by unfold Statement; decide
theorem clearOut : Statement .clearOut := by unfold Statement; decide

end Sys2Proof.Laws.TableRow
end

