-- ==== Sys2Proof/Tests/Slice0.lean ====
section
/-! SUPPORT. The model's own tests: ill-formed terms that the checks refuse, words written out from the encoding tables,
vectors of spec/95_test_vectors.md, and for every obligation with hypotheses a state and operands that meet them. -/

namespace Sys2Proof.Tests

open Sys2Proof Sys2Proof.Machine

set_option Elab.async false

/-! ### Small states -/

/-- Two bands and four samples, as programs P3 and vectors V4 and V5 take them, with results of Tan, Exp and Ln chosen for the
vectors below. -/
def small : Build where
  n := 2
  frames := 4
  fsReset := 0x472C4400
  g := 0x41A00000
  coefReset := .zero
  tanTable := [(0x3D91E531, 0x3D922480), (0x3E11E531, 0x3F800000), (0x3EDAD7CA, 0x3F800000)]
  expTable := [(0x00000000, 0x447A0000), (0x3F800000, 0x453B8000), (0x40000000, 0x460CA000), (0x40800000, 0x46EA6000)]
  lnTable := [(0x447A0000, 0x00000000), (0x460CA000, 0x40000000), (0x46EA6000, 0x40800000)]

def fresh : State := State.resetOf small

/-- The coefficient set DY of the vectors. -/
def dy : Coef := ⟨0x3F000000, 0, 0xBF000000, 0xBF000000, 0x3E800000⟩

/-- The coefficient set ID of the vectors. -/
def idc : Coef := ⟨0x3F800000, 0, 0, 0, 0⟩

def conf (c : Coef) : Band := ⟨c, FiltState.zero, true⟩

/-- Words of the window. -/
def withWords (s : State) (a : Nat) (ws : List Word) : State := s.setMem (Memory.storeWords s.mem a ws)

/-- The bands of program P3, everything configured. -/
def ready : State :=
  { fresh with modBands := [conf dy, conf idc], carBands := [conf idc, conf dy] }

/-- The inputs of program P3. -/
def loaded : State :=
  withWords (withWords ready 0x04000 [0x3F800000, 0, 0, 0]) 0x05000 [0x3F800000, 0x3F800000, 0x3F800000, 0x3F800000]

/-- A pending error and IRQ_EN. -/
def failed : State :=
  { fresh with irqEn := true, cmd := 0x0000000B, errCause := some .illegalOp, errCmd := 0x0000000B }

/-- A next state with this property. -/
def next (o : Host.Outcome State Fault Refusal) (f : State → Bool) : Bool :=
  match o with
  | .next t => f t
  | .fault _ => false
  | .refused _ => false

/-! ### WellFormed refuses what it should -/

theorem test_band_past_end_is_ill_formed :
    Instr.wf 30 (.setBandpass .mod 30) = false ∧ Instr.wf 30 (.writeCoef .car 31) = false ∧
    Instr.wf 30 (.filter .both 255) = false ∧ Instr.wf 2 (.envelope 2) = false ∧ Instr.wf 2 (.modulate 64) = false := by decide
theorem test_last_band_is_well_formed :
    Instr.wf 30 (.setBandpass .mod 29) = true ∧ Instr.wf 30 (.buildBank .both) = true ∧ Instr.wf 1 (.envelope 0) = true := by
  decide
theorem test_band_count_zero_is_refused : ({ small with n := 0 } : Build).wf = false := by decide
theorem test_band_count_65_is_refused : ({ small with n := 65 } : Build).wf = false := by decide
theorem test_one_frame_is_refused : ({ small with frames := 1 } : Build).wf = false := by decide
theorem test_1025_frames_are_refused : ({ small with frames := 1025 } : Build).wf = false := by decide
theorem test_zero_sampling_rate_is_refused : ({ small with fsReset := 0 } : Build).wf = false := by decide
theorem test_infinite_sampling_rate_is_refused : ({ small with fsReset := 0x7F800000 } : Build).wf = false := by decide
theorem test_negative_sampling_rate_is_refused : ({ small with fsReset := 0xC72C4400 } : Build).wf = false := by decide
theorem test_default_build_is_well_formed : Build.default.wf = true ∧ small.wf = true := by decide

/-! ### Words, bit by bit: RSV, BAND, PATH, OP (30_encoding.md R131, R133) -/

theorem test_decode_nop : decode 0b0000000000000000_00000000_00_000000#32 = .ok .nop := by decide
theorem test_decode_set_bandpass : decode 0b0000000000000000_00011101_10_000001#32 = .ok (.setBandpass .both 29) := by decide
theorem test_decode_write_coef : decode 0b0000000000000000_00000001_01_000010#32 = .ok (.writeCoef .car 1) := by decide
theorem test_decode_filter : decode 0b0000000000000000_00000011_01_000011#32 = .ok (.filter .car 3) := by decide
theorem test_decode_build_bank : decode 0b0000000000000000_00000000_10_000100#32 = .ok (.buildBank .both) := by decide
theorem test_decode_envelope : decode 0b0000000000000000_00000101_00_000101#32 = .ok (.envelope 5) := by decide
theorem test_decode_modulate : decode 0b0000000000000000_00000001_00_000110#32 = .ok (.modulate 1) := by decide
theorem test_decode_mix : decode 0b0000000000000000_00000000_00_000111#32 = .ok .mix := by decide
theorem test_decode_makeup : decode 0b0000000000000000_00000000_00_001000#32 = .ok .makeup := by decide
theorem test_decode_generate : decode 0b0000000000000000_00000000_00_001001#32 = .ok .generate := by decide
theorem test_decode_clear_out : decode 0b0000000000000000_00000000_00_001010#32 = .ok .clearOut := by decide
theorem test_decode_illegal :
    decode 0x0000000B#32 = .error .illegalOp ∧ decode 0x0000003F#32 = .error .illegalOp ∧
    decode 0xFFFFFFFF#32 = .error .illegalOp := by decide
theorem test_decode_reserved_field :
    decode 0x00010000#32 = .error .reservedField ∧ decode 0x000000C1#32 = .error .reservedField ∧
    decode 0x00000047#32 = .error .reservedField ∧ decode 0x00000104#32 = .error .reservedField := by decide
/-- The opcode table's rows as the host numbers them. -/
theorem test_decode_table_word :
    decodeTableWord 32 0x00000009 = some .generate ∧ decodeTableWord 32 0x0000000B = none ∧
    decodeTableWord 8 0x00000042 = some (.writeCoef .car 0) := by decide

/-! ### One step on the fetched word -/

theorem test_fetch_runs_word :
    next (step (State.reset.withFetchWord 32 0x00000000)) (fun t => t.cmd == 0 && t.port.isEmpty && t.reply == .ack) = true := by
  decide +kernel
/-- Program P4, line 22: the illegal word while an error is pending only sets OVF. -/
theorem test_illegal_word_sets_overflow :
    next (step (failed.withFetchWord 32 0x0000000B)) (fun t => errWord t == 0x00000101 && t.errCmd == 0x0000000B) = true := by
  decide +kernel

/-! ### Vectors of spec/95_test_vectors.md -/

/-- V1.1. -/
theorem test_set_bandpass_v1_1 :
    next (exec (.setBandpass .mod 0) { fresh with arg0 := 0x447A0000, arg1 := 0x40000000 })
      (fun t => t.band .mod 0 == conf ⟨0x3D0C6AE5, 0x00000000, 0xBD0C6AE5, 0xBFF4B80A, 0x3F6E72A4⟩ &&
        t.band .car 0 == fresh.band .car 0) = true := by decide +kernel
/-- V1.4: fc = fs/2. -/
theorem test_set_bandpass_v1_4 :
    next (exec (.setBandpass .mod 0) { fresh with cmd := 0x00000001, arg0 := 0x46AC4400, arg1 := 0x40000000 })
      (fun t => t.errCause == some .cfgRange && t.errInfo == 0x0000FFFF && t.errCmd == 0x00000001 &&
        t.modBands == fresh.modBands) = true := by decide +kernel
/-- Program P3, transaction 6. -/
theorem test_write_coef_copies_dy :
    next (exec (.writeCoef .mod 0) { fresh with stg := dy }) (fun t => t.modBands == [conf dy, fresh.band .mod 1]) = true := by
  decide +kernel
/-- Program P4, transaction 17, on CAR band 1. -/
theorem test_write_coef_locked :
    next (exec (.writeCoef .car 1) { ready with cmd := 0x00000142 })
      (fun t => t.errCause == some .locked && t.errInfo == 0x00000101 && t.carBands == ready.carBands) = true := by
  decide +kernel
/-- V2.1. -/
theorem test_filter_v2_1 :
    next (exec (.filter .mod 0) loaded)
      (fun t => t.scrBlock .mod 0 == [0x3F000000, 0x3E800000, 0xBF000000, 0xBEA00000] &&
        (t.band .mod 0).st == ⟨0, 0, 0xBEA00000, 0xBF000000⟩) = true := by decide +kernel
/-- V2.5b. -/
theorem test_filter_v2_5b :
    next (exec (.filter .mod 0) { withWords ready 0x04000 [0x7F800000, 0, 0] with blkLen := 3 })
      (fun t => t.scrBlock .mod 0 == [0x7F800000, 0x7FC00000, 0x7FC00000, 0] &&
        (t.band .mod 0).st == ⟨0, 0, 0x7FC00000, 0x7FC00000⟩) = true := by decide +kernel
/-- Worked by hand from 41_filterbank.md R203 and 40_biquad.md R163: edges 1000, 3000, 9000 and Tan = 1.0 give Q = 2.0, w0 = w2 = 1,
wq = 0.5, den = 2.5, norm = f32(0.4) and so A0 = f32(0.2), B1 = 0 and B2 = 1.5 · norm in both bands. -/
theorem test_build_bank_two_bands :
    next (exec (.buildBank .both) { fresh with arg0 := 0x447A0000, arg1 := 0x460CA000 })
      (fun t => t.band .mod 0 == conf ⟨0x3E4CCCCD, 0, 0xBE4CCCCD, 0, 0x3F19999A⟩ && t.modBands == t.carBands &&
        t.band .mod 1 == t.band .mod 0) = true := by decide +kernel
/-- The second band's center (9000 + 30000)/2 is valid and the first invalid band is named: with edges 1000, 9000 and 30000 band 1 has
fc = 19500 and band 0 fc = 5000, so at fs = 30000 band 1 is the invalid one (V3.2, row 1, has the same form). -/
theorem test_build_bank_names_lowest_invalid_band :
    next (exec (.buildBank .mod) { fresh with arg0 := 0x447A0000, arg1 := 0x46EA6000, fs := 0x46EA6000 })
      (fun t => t.errCause == some .cfgRange && t.errInfo == 0x00000001 && t.modBands == fresh.modBands) = true := by
  decide +kernel
/-- V5.1, rows 1 and 4. -/
theorem test_envelope_v5_1 :
    next (exec (.envelope 1) (withWords fresh 0x41000 [0x3E800000, 0xBF800000, 0x3F400000, 0x3F000000]))
      (fun t => t.env == [0, 0x3F400000]) = true ∧
    next (exec (.envelope 1) (withWords fresh 0x41000 [0x00000000, 0x7FC00000, 0x3F000000, 0x7FC00000]))
      (fun t => t.env == [0, 0x3F000000]) = true := by decide +kernel
/-- V5.1, row 3. -/
theorem test_envelope_negative_zeros : peak [0x80000000, 0x80000000] = 0x00000000 := by decide +kernel
/-- V5.2. -/
theorem test_modulate_v5_2 :
    next (exec (.modulate 0)
      { withWords fresh 0x80000 [0x3F800000, 0xC0000000, 0x7FC00000, 0x7F800000] with env := [0x3F000000, 0] })
      (fun t => t.scrBlock .car 0 == [0x3F000000, 0xBF800000, 0x7FC00000, 0x7F800000]) = true := by decide +kernel
theorem test_modulate_v5_2_zero :
    next (exec (.modulate 0) (withWords fresh 0x80000 [0xBF800000, 0x7F800000]))
      (fun t => t.scr .car 0 0 == 0x80000000 && t.scr .car 0 1 == 0x7FC00000) = true := by decide +kernel
/-- V4.1. -/
theorem test_mix_v4_1 :
    next (exec .mix (withWords (withWords (withWords fresh 0x06000 [0, 0x3F800000, 0, 0xBF800000])
      0x80000 [0x3F000000, 0x3E800000, 0xBF000000, 0x3F800000]) 0x81000 [0x3F000000, 0xBE800000, 0x3E800000, 0]))
      (fun t => t.outBlock == [0x3F800000, 0x3F800000, 0xBE800000, 0x00000000]) = true := by decide +kernel
/-- V4.3. -/
theorem test_mix_order_v4_3 :
    next (exec .mix (withWords (withWords (withWords fresh 0x06000 [0x3F800000]) 0x80000 [0x33800000]) 0x81000 [0x33800000]))
      (fun t => t.out 0 == 0x3F800000) = true := by decide +kernel
/-- V4.2. -/
theorem test_makeup_v4_2 :
    next (exec .makeup (withWords fresh 0x06000 [0x3F800000, 0x3F800000, 0xBE800000, 0]))
      (fun t => t.outBlock == [0x41200000, 0x41200000, 0xC0200000, 0x00000000]) = true := by decide +kernel
/-- V4.4. -/
theorem test_makeup_gain_v4_4 :
    makeupGain Build.default = 0x3F2AAAAB ∧ fmul 0x40400000 0x3F2AAAAB = 0x40000000 := by decide +kernel
/-- V5.4. -/
theorem test_generate_v5_4 :
    next (exec .generate loaded)
      (fun t => t.outBlock == [0x41200000, 0x41480000, 0x40F00000, 0x408C0000] && t.env == [0x3F000000, 0x3F800000] &&
        (t.band .car 1).st == ⟨0x3F800000, 0x3F800000, 0xBD800000, 0x3E800000⟩) = true := by decide +kernel
/-- The MOD bands are checked before the CAR bands (42_engine.md R240). -/
theorem test_generate_unconfigured :
    next (exec .generate { ready with modBands := [conf dy, fresh.band .mod 1], carBands := fresh.carBands })
      (fun t => t.errCause == some .unconfigured && t.errInfo == 0x00000001 && t.mem == ready.mem) = true := by decide +kernel
/-- V5.3. -/
theorem test_clear_out_v5_3 :
    next (exec .clearOut (withWords fresh 0x06000 [0x3F800000, 0xBF800000, 0x7FC00000, 0x80000000, 0x3F800000]))
      (fun t => t.outBlock == [0, 0, 0, 0] && t.out 4 == 0x3F800000) = true := by decide +kernel

/-! ### Registers and errors (programs P3 and P4) -/

theorem test_identity_registers :
    readWord fresh 0x000 = 0x564F4331 ∧ readWord fresh 0x004 = 0x00000402 ∧ readWord ready 0x00C = 0x00000006 ∧
    readWord fresh 0x034 = 0x00000004 := by decide +kernel
/-- Program P4, transactions 25 to 28. -/
theorem test_misaligned_write :
    next (serve (.write 0x012 0x00000009) { fresh with cmd := 0x0000000B })
      (fun t => readWord t 0x014 == 0x00000008 && readWord t 0x018 == 0 && readWord t 0x01C == 0x00000012 &&
        readWord t 0x010 == 0x0000000B) = true := by decide +kernel
/-- STATUS and irq with an error pending, and after clrerr (program P4). -/
theorem test_status_and_clrerr :
    readWord failed 0x00C = 0x00000009 ∧ failed.irq = true ∧
    next (serve (.write 0x014 0xFFFFFFFF) failed) (fun t => readWord t 0x00C == 0 && !t.irq && t.irqEn) = true := by
  decide +kernel
theorem test_soft_reset :
    next (serve (.write 0x008 0x00000003) { loaded with arg0 := 1, irqEn := true }) (fun t => t == { fresh with reply := .ack }) = true := by
  decide +kernel
/-- Ties to even, the smallest subnormal, and overflow. -/
theorem test_rounding :
    fadd 0x3F800000 0x33800000 = 0x3F800000 ∧ fadd 0x3F800001 0x33800000 = 0x3F800002 ∧
    fmul 0x00000001 0x3F000000 = 0x00000000 ∧ fmul 0x00000003 0x3F000000 = 0x00000002 ∧
    fmul 0x7F7FFFFF 0x40000000 = 0x7F800000 ∧ fsub 0x3F800000 0x3F800000 = 0x00000000 := by decide +kernel
/-- `bandpass.mod 0, 22050, 2` and `load.mod 1, 1.0, -0.5` expand as 30_encoding.md R141 says. -/
theorem test_assembler :
    assemble 30 (.line (.bandpass .mod 0 ⟨false, 22050, 1⟩ ⟨false, 2, 1⟩) .done) =
      some [.write 0x020 0x46AC4400, .write 0x024 0x40000000, .write 0x010 0x00000001] ∧
    assemble 30 (.repeated 2 (.line (.load .mod 1 [⟨true, 5, 10⟩]) .done) .done) =
      some [.write 0x04004 0xBF000000, .write 0x04004 0xBF000000] ∧
    assemble 30 (.line (.command .envelope none (some 30)) .done) = none := by decide +kernel

/-! ### Witnesses: for every obligation with hypotheses, a state and operands that meet them -/

theorem next_exists {o : Host.Outcome State Fault Refusal} {f : State → Bool} (h : next o f = true) :
    ∃ t, o = .next t ∧ f t = true := by
  cases o with
  | next t => exact ⟨t, rfl, h⟩
  | fault r => cases h
  | refused r => cases h

/-- `s` with these transactions at the port. -/
def serving (s : State) (es : List PortEvent) : State := { s with port := es }

/-- SET_BANDPASS and BUILD_BANK arguments that are valid. -/
def bandpassArgs : State := { fresh with arg0 := 0x447A0000, arg1 := 0x40000000 }
def bankArgs : State := { fresh with arg0 := 0x447A0000, arg1 := 0x460CA000 }
def highBank : State := { fresh with arg0 := 0x447A0000, arg1 := 0x46EA6000, fs := 0x46EA6000 }

/-- MOD band 0 and CAR band 1 configured, the others not. -/
def half : State :=
  { fresh with modBands := [conf dy, fresh.band .mod 1], carBands := [fresh.band .car 0, conf dy] }

theorem witness_EncodeInvertsDecode :
    decode 0x00001D81#32 = .ok (.setBandpass .both 29) ∧ decode 0x0000FF06#32 = .ok (.modulate 255) := by decide
/-- OP at both ends of 0x0B to 0x3F; each of the four reserved fields; and words with none of them. -/
theorem witness_DecodeChecksRaise :
    (0x0B ≤ (0x0000000B#32).toNat % 64 ∧ 0x0B ≤ (0xFFFFFFFF#32).toNat % 64) ∧
    ((0x0001000A#32).toNat % 64 < 0x0B ∧ (0x0001000A#32).toNat / 65536 ≠ 0) ∧
    ((0x000000C1#32).toNat % 64 < 0x0B ∧ (0x000000C1#32).toNat / 64 % 4 = 3) ∧
    ((0x00000045#32).toNat % 64 = 5 ∧ (0x00000045#32).toNat / 64 % 4 ≠ 0) ∧
    ((0x00000104#32).toNat % 64 = 4 ∧ (0x00000104#32).toNat / 256 % 256 ≠ 0) ∧
    ((0x0000FF83#32).toNat % 64 = 3 ∧ (0x0000FF83#32).toNat / 64 % 4 = 2 ∧ (0x0000FF83#32).toNat / 65536 = 0) := by decide
theorem witness_OpcodeMapSelectsCommand :
    (⟨.envelope, 0x00000005#32, 0xFFFF00FF#32⟩ : OpcodeRow) ∈ opcodeTable ∧ 0x00000505#32 &&& 0xFFFF00FF#32 = 0x00000005#32 ∧
    decode 0x00000505#32 = .ok (.envelope 5) := by decide
/-- Accepted lines, the last band of the largest chip among them; then lines refused for each reason. -/
theorem witness_AssembledCommandDecodes :
    (assembleCommand 64 .filter (some .car) (some 63) = some 0x00003F43#32 ∧ assembleCommand 30 .mix none none = some 0x00000007#32 ∧
      assembleCommand 30 .buildBank (some .both) none = some 0x00000084#32) ∧
    (assembleCommand 64 .filter (some .car) (some 64) = none ∧ assembleCommand 30 .filter none (some 0) = none ∧
      assembleCommand 30 .mix (some .mod) none = none ∧ assembleCommand 30 .envelope none none = none ∧
      assembleCommand 30 .buildBank (some .both) (some 0) = none) := by decide
theorem witness_StepRunsDecodedCommand :
    (serving fresh [.write 0x010 0x00000105, .rst]).port = .write 0x010 0x00000105#32 :: [.rst] ∧
    decode 0x00000105#32 = .ok (.envelope 1) := by decide
theorem witness_StepServesOldestEvent :
    fresh.port = [] ∧ (serving fresh [.read 0x000, .rst]).port = .read 0x000 :: [.rst] := by decide
theorem witness_StepKeepsInvariant :
    (serving loaded [.write 0x010 0x00000009]).Inv ∧ ∃ t, step (serving loaded [.write 0x010 0x00000009]) = .next t ∧
      (t.env == [0x3F000000, 0x3F800000]) = true :=
  ⟨by decide +kernel, next_exists (f := fun t => t.env == [0x3F000000, 0x3F800000]) (by decide +kernel)⟩
theorem witness_InvariantAtReset : small.wf = true := by decide
theorem witness_CaptureKeepsFirstError : fresh.errCause = none ∧ failed.errCause ≠ none := by decide
/-- Both cases: a command without an error, and one with. -/
theorem witness_CommandErrorsArePrecise :
    (∃ t, serve (.write 0x010 0x00000007) failed = .next t ∧ (t.errCause == failed.errCause && !t.errOvf) = true) ∧
    (∃ t, serve (.write 0x010 0x00000043) fresh = .next t ∧ (t.errCause == some .unconfigured) = true) :=
  ⟨next_exists (f := fun t => t.errCause == failed.errCause && !t.errOvf) (by decide +kernel),
   next_exists (f := fun t => t.errCause == some .unconfigured) (by decide +kernel)⟩
/-- One state with an error pending and one with none; a word that raises an error and one that does not. -/
theorem witness_CommandsIgnorePendingErrors :
    let quiet : State := { fresh with cmd := 0x0000000B }
    forgetErrors failed = forgetErrors quiet ∧ failed.errCause ≠ none ∧ quiet.errCause = none ∧
    (∃ t', execute 0x00000043 quiet = .next t' ∧ (t'.errCause != none) = true) ∧
    (∃ t', execute 0x00000007 quiet = .next t' ∧ (t'.errCause == none) = true) :=
  ⟨by decide, by decide, by decide, next_exists (f := fun t => t.errCause != none) (by decide +kernel),
   next_exists (f := fun t => t.errCause == none) (by decide +kernel)⟩
theorem witness_BandOutOfRangeRaises :
    fresh.build.n ≤ (2 : BitVec 8).toNat ∧ fresh.build.n ≤ (255 : BitVec 8).toNat ∧
    decode 0x00000205#32 = .ok (.envelope 2) ∧ decode 0x0000FF43#32 = .ok (.filter .car 255) := by decide
/-- SET_BANDPASS and WRITE_COEF with the second target locked; BUILD_BANK with the last band locked. -/
theorem witness_ConfiguredTargetIsLocked :
    (targets .both 1 = [(.mod, 1)] ++ (.car, 1) :: [] ∧ half.Unconfigured [(.mod, 1)] ∧ (half.band .car 1).conf = true) ∧
    (bankTargets .car half.build.n = [(.car, 0)] ++ (.car, 1) :: [] ∧ half.Unconfigured [(.car, 0)]) ∧
    (targets .mod 0 = [] ++ (.mod, 0) :: [] ∧ (half.band .mod 0).conf = true) := by decide
/-- Arguments at reset, +0.0, are invalid for both commands; a valid range whose band 1 lies above fs/2; and a NaN. -/
theorem witness_InvalidArgumentsRaise :
    (fresh.Unconfigured (targets .both 1) ∧ fresh.Unconfigured (bankTargets .both 2) ∧ fgt fresh.arg0 0x00000000 = false) ∧
    (highBank.Unconfigured (bankTargets .both highBank.build.n) ∧
      (isFinite highBank.arg0 && isFinite highBank.arg1 && isFinite highBank.fs && fgt highBank.arg0 0x00000000 &&
        flt highBank.arg0 highBank.arg1 && fgt highBank.fs 0x00000000) = true ∧
      bankBandValid highBank.build highBank.arg0 highBank.arg1 highBank.fs 0 = true ∧ 1 < highBank.build.n ∧
      bankBandValid highBank.build highBank.arg0 highBank.arg1 highBank.fs 1 = false) ∧
    isNaN 0x7FC00000 = true := by decide +kernel
theorem witness_UnconfiguredTargetRaises :
    (targets .both 0 = [(.mod, 0)] ++ (.car, 0) :: [] ∧ half.Configured [(.mod, 0)] ∧ (half.band .car 0).conf = false) ∧
    (bankTargets .both half.build.n = [(.mod, 0)] ++ (.mod, 1) :: [(.car, 0), (.car, 1)] ∧ (half.band .mod 1).conf = false) := by
  decide
/-- LEN = 1, LEN = 0, and OFF + LEN one past FRAMES. -/
theorem witness_BadWindowRaises :
    ready.Configured (targets .both 1) ∧ (({ ready with blkLen := 1 } : State).blkLen.toNat < 2) ∧
    (({ ready with blkLen := 0 } : State).blkLen.toNat < 2) ∧
    (let s : State := { ready with blkOff := 1 }
     s.build.frames < s.blkOff.toNat + s.blkLen.toNat) := by decide
theorem witness_NopChangesOnlyCmd :
    (0x00000040#32).toNat % 64 = 0 ∧ 0x00000040#32 ≠ 0 ∧ (0xFFFFFFC0#32).toNat % 64 = 0 ∧ 0xFFFFFFC0#32 ≠ 0 := by decide
theorem witness_SetBandpassConfigures :
    bandpassArgs.SizesOk ∧ (1 : BitVec 8).toNat < bandpassArgs.build.n ∧ bandpassArgs.Unconfigured (targets .both 1) ∧
    isFinite bandpassArgs.fs = true ∧ fgt bandpassArgs.fs 0x00000000 = true ∧ fgt bandpassArgs.arg0 0x00000000 = true ∧
    flt bandpassArgs.arg0 (fmul bandpassArgs.fs 0x3F000000) = true ∧ isFinite bandpassArgs.arg1 = true ∧
    fgt bandpassArgs.arg1 0x00000000 = true := by decide +kernel
/-- The intermediate values of V1.1; an a0 that is a number, and one that is NaN. -/
theorem witness_BandpassComputesItsOperations :
    (0x3D922480 = tan32 small (fdiv (fmul 0x40490FDB 0x447A0000) 0x472C4400) ∧ 0x3D122480 = fdiv 0x3D922480 0x40000000 ∧
      0x3BA6DB4E = fmul 0x3D922480 0x3D922480 ∧
      0x3F75F8AE = fdiv 0x3F800000 (fadd (fadd 0x3F800000 0x3D122480) 0x3BA6DB4E)) ∧
    isNaN (bandpass small 0x447A0000 0x40000000 0x472C4400).a0 = false ∧
    isNaN (bandpass { small with tanTable := [(0x7FC00000, 0x7FC00000)] } 0x7FC00000 0x40000000 0x472C4400).a0 = true := by
  decide +kernel
theorem witness_WriteCoefCopiesStaging :
    fresh.SizesOk ∧ (0 : BitVec 8).toNat < fresh.build.n ∧ half.SizesOk ∧ half.Unconfigured (targets .car 0) ∧
    fresh.Unconfigured (targets .both 1) := by decide
/-- The edges, centers and Q of the bank meet the equations of BankArgs, and its arguments are valid. -/
theorem witness_BuildBankConfiguresAllBands :
    let b := bankArgs.build
    let low := bankArgs.arg0
    let high := bankArgs.arg1
    (∀ i, bankEdge b low high i = exp32 b (fadd (ln32 b low) (fmul (f32 i) (fdiv (fsub (ln32 b high) (ln32 b low)) (f32 b.n)))) ∧
      bankCenter b low high i = fdiv (fadd (bankEdge b low high i) (bankEdge b low high (i + 1))) 0x40000000 ∧
      bankQ b low high i = fmul 0x40000000
        (fdiv (bankCenter b low high i) (fsub (bankEdge b low high (i + 1)) (bankEdge b low high i)))) ∧
    bankArgs.SizesOk ∧ bankArgs.Unconfigured (bankTargets .both b.n) ∧
    (isFinite low && isFinite high && isFinite bankArgs.fs && fgt low 0x00000000 && flt low high &&
      fgt bankArgs.fs 0x00000000) = true ∧
    (∀ i < b.n, fgt (bankCenter b low high i) 0x00000000 = true ∧
      flt (bankCenter b low high i) (fmul bankArgs.fs 0x3F000000) = true ∧ isFinite (bankQ b low high i) = true ∧
      fgt (bankQ b low high i) 0x00000000 = true) :=
  ⟨fun _ => ⟨rfl, rfl, rfl⟩, by decide +kernel, by decide +kernel, by decide +kernel, by decide +kernel⟩
/-- The whole block, and the shortest window at the end of the block. -/
theorem witness_FilterRunsRecurrence :
    loaded.build.wf = true ∧ loaded.SizesOk ∧ loaded.Configured (targets .both 1) ∧ 2 ≤ loaded.blkLen.toNat ∧
    loaded.blkOff.toNat + loaded.blkLen.toNat ≤ loaded.build.frames ∧
    (let s : State := { loaded with blkOff := 2, blkLen := 2 }
     2 ≤ s.blkLen.toNat ∧ s.blkOff.toNat + s.blkLen.toNat ≤ s.build.frames) := by decide +kernel
theorem witness_SplitWindowsAgree :
    loaded.Inv ∧ loaded.Configured (targets .both 0) ∧ 2 ≤ (2 : BitVec 12).toNat ∧
    (2 : BitVec 12).toNat + 2 ≤ (4 : BitVec 12).toNat ∧ (0 : BitVec 11).toNat + (4 : BitVec 12).toNat ≤ loaded.build.frames ∧
    (2 : BitVec 11).toNat = (0 : BitVec 11).toNat + (2 : BitVec 12).toNat ∧
    (2 : BitVec 12).toNat = (4 : BitVec 12).toNat - (2 : BitVec 12).toNat := by decide +kernel
/-- V2.7: a window of −0.0 from zero state. -/
theorem witness_ZeroStateIsFixed :
    let s := withWords ready 0x04000 [0x80000000, 0x80000000, 0x80000000, 0x80000000]
    s.build.wf = true ∧ s.SizesOk ∧ s.Configured (targets .mod 0) ∧ 2 ≤ s.blkLen.toNat ∧
    s.blkOff.toNat + s.blkLen.toNat ≤ s.build.frames ∧ (∃ t, exec (.filter .mod 0) s = .next t ∧ true = true) ∧
    (isFinite dy.a0 && isFinite dy.a1 && isFinite dy.a2 && isFinite dy.b1 && isFinite dy.b2) = true ∧
    (let st := (s.band .mod 0).st
     (isZero st.x1 && isZero st.x2 && isZero st.y1 && isZero st.y2) = true) ∧
    (∀ k < s.blkLen.toNat, isZero (s.inp .mod (s.blkOff.toNat + k)) = true) := by
  refine ⟨by decide +kernel, by decide +kernel, by decide +kernel, by decide +kernel, by decide +kernel,
    next_exists (f := fun _ => true) (by decide +kernel), by decide +kernel, by decide +kernel, by decide +kernel⟩
theorem witness_EnvelopeIsPositivePeak : fresh.SizesOk ∧ (1 : BitVec 8).toNat < fresh.build.n := by decide
theorem witness_ModulateScalesCarrierBand : (1 : BitVec 8).toNat < fresh.build.n := by decide
theorem witness_GenerateProcessesBlock :
    loaded.build.wf = true ∧ loaded.SizesOk ∧ loaded.Configured (bankTargets .both loaded.build.n) := by decide +kernel
theorem witness_GenerateIsItsCommandSequence :
    loaded.Inv ∧ loaded.Configured (bankTargets .both loaded.build.n) := by decide +kernel
/-- V5.6: a silent modulator and a carrier of ones. -/
theorem witness_SilentModulatorGatesOutput :
    let s := withWords ready 0x05000 [0x3F800000, 0x3F800000, 0x3F800000, 0x3F800000]
    s.build.wf = true ∧ s.SizesOk ∧ s.Configured (bankTargets .both s.build.n) ∧ isFinite s.build.g = true ∧
    (∀ n < s.build.frames, isZero (s.out n) = true) ∧
    (∃ t, exec .generate s = .next t ∧ decide (∀ i < s.build.n, t.envAt i = 0x00000000) = true) ∧
    (∀ i < s.build.n, ∀ x ∈ biquadOuts (s.band .car i).coef (s.band .car i).st (s.inBlock .car 0 s.build.frames),
      isFinite x = true) := by
  have h : ∀ i < small.n, (biquadOuts (ready.band .car i).coef (ready.band .car i).st
      ((withWords ready 0x05000 [0x3F800000, 0x3F800000, 0x3F800000, 0x3F800000]).inBlock .car 0 4)).all isFinite = true := by
    decide +kernel
  exact ⟨by decide +kernel, by decide +kernel, by decide +kernel, by decide +kernel, by decide +kernel,
    next_exists (f := fun t => decide (∀ i < small.n, t.envAt i = 0x00000000)) (by decide +kernel),
    fun i hi x hx => List.all_eq_true.1 (h i hi) x hx⟩
theorem witness_ConfiguredBandKeepsCoefficients :
    isReset (.write 0x010 0x00000083) = false ∧ isReset (.write 0x008 0xFFFFFFFD) = false ∧ (loaded.band .car 1).conf = true ∧
    ∃ t, step (serving loaded [.write 0x010 0x00000083]) = .next t ∧ true = true :=
  ⟨by decide, by decide, by decide, next_exists (f := fun _ => true) (by decide +kernel)⟩
theorem witness_BandIsConfiguredWithZeroState :
    (serving { fresh with stg := dy } [.write 0x010 0x00000142]).Inv ∧ (fresh.band .car 1).conf = false ∧
    ∃ t, step (serving { fresh with stg := dy } [.write 0x010 0x00000142]) = .next t ∧ (t.band .car 1).conf = true :=
  ⟨by decide +kernel, by decide, next_exists (f := fun t => (t.band .car 1).conf) (by decide +kernel)⟩
/-- A command that writes coefficients, and one that writes state scalars. -/
theorem witness_CommandsWriteOnlyTheirBandState :
    (∃ t, exec (.writeCoef .car 1) fresh = .next t ∧ (t.band .car 1).conf = true) ∧
    (∃ t, exec .generate loaded = .next t ∧ ((t.band .car 1).st != FiltState.zero) = true) :=
  ⟨next_exists (f := fun t => (t.band .car 1).conf) (by decide +kernel),
   next_exists (f := fun t => (t.band .car 1).st != FiltState.zero) (by decide +kernel)⟩
theorem witness_CommandsKeepOperandsAndInputs :
    loaded.build.wf = true ∧ ∃ t, exec .generate loaded = .next t ∧ (t.inp .mod 0 == 0x3F800000) = true :=
  ⟨by decide, next_exists (f := fun t => t.inp .mod 0 == 0x3F800000) (by decide +kernel)⟩
theorem witness_NoHiddenState :
    loaded.Inv ∧ ({ loaded with reply := .ack } : State).Inv ∧ loaded ≠ { loaded with reply := .ack } ∧
    ∀ addr : BitVec 20, readWord loaded addr = readWord { loaded with reply := .ack } addr := by
  refine ⟨by decide +kernel, by decide +kernel, by decide +kernel, fun addr => ?_⟩
  unfold readWord
  split
  · rfl
  · cases locate loaded.build addr <;> rfl
theorem witness_FilterOrderIsImmaterial :
    loaded.Inv ∧ 0 < loaded.build.n ∧ 1 < loaded.build.n ∧ ((.mod, 0) : Path × Nat) ≠ (.mod, 1) ∧
    0 + 4 ≤ loaded.build.frames ∧ 2 + 2 ≤ loaded.build.frames := by decide +kernel
theorem witness_ReadsAndMisalignedAccesses :
    (0xFFFFC : BitVec 20).toNat % 4 = 0 ∧ (0xFFFFF : BitVec 20).toNat % 4 ≠ 0 ∧ (0x00001 : BitVec 20).toNat % 4 ≠ 0 := by decide
theorem witness_ControlRegistersReadTheirState : State.reset.build.wf = true := by decide
/-- The last band and the last sample. -/
theorem witness_ArraysReadTheirState : small.wf = true ∧ 1 < small.n ∧ 3 < small.frames := by decide
/-- The first and the last reserved word of each range, with N = 2 and FRAMES = 4. -/
theorem witness_ReservedIsReadZeroWriteIgnored :
    small.wf = true ∧
    (∀ a ∈ [0x038, 0x03C, 0x054, 0x0FC, 0x108, 0xFFC, 0x01080, 0x01FFC, 0x01028, 0x0203C, 0x02FFC, 0x03000, 0x03FFC, 0x04010,
        0x04FFC, 0x05010, 0x06FFC, 0x07000, 0x3FFFC, 0x40010, 0x40FFC, 0x42000, 0x7FFFC, 0xBFFFC, 0xC0000, 0xFFFFC],
      a % 4 = 0 ∧ a < 2 ^ 20 ∧
      (a = 0x038 ∨ a = 0x03C ∨ (0x054 ≤ a ∧ a < 0x100) ∨ (0x100 + 4 * 2 ≤ a ∧ a < 0x01000) ∨
        (0x01000 ≤ a ∧ a < 0x03000 ∧ (2 ≤ a % 0x01000 / 0x40 ∨ 0x28 ≤ a % 0x40)) ∨ (0x03000 ≤ a ∧ a < 0x04000) ∨
        (0x04000 ≤ a ∧ a < 0x07000 ∧ 4 ≤ a % 0x01000 / 4) ∨ (0x07000 ≤ a ∧ a < 0x40000) ∨
        (0x40000 ≤ a ∧ a < 0xC0000 ∧ (2 ≤ a % 0x40000 / 0x01000 ∨ 4 ≤ a % 0x01000 / 4)) ∨ 0xC0000 ≤ a)) := by decide
theorem witness_ReadOnlyIgnoresWrites :
    small.wf = true ∧ ∀ a ∈ [0x000, 0x004, 0x00C, 0x018, 0x01C, 0x02C, 0x100, 0x02FFC, 0x40000, 0xFFFFC], a % 4 = 0 ∧
      (a = 0x000 ∨ a = 0x004 ∨ a = 0x00C ∨ a = 0x018 ∨ a = 0x01C ∨ a = 0x02C ∨ (0x100 ≤ a ∧ a < 0x03000) ∨ 0x40000 ≤ a) := by
  decide
theorem witness_RegisterWritesStore :
    (0xFFFFFFFD#32).toNat / 2 % 2 = 0 ∧ (0xFFFFFFFD#32).toNat % 2 = 1 ∧ (0x00000000#32).toNat / 2 % 2 = 0 := by decide
theorem witness_BufferWritesReadBack : fresh.build.wf = true ∧ 3 < fresh.build.frames ∧ 0 < fresh.build.frames := by decide
/-- A buffer word, and CTRL with bit 1 clear. -/
theorem witness_RegisterAndBufferWritesIdempotent :
    loaded.Inv ∧ ((0x05004 : BitVec 20).toNat % 4 = 0 ∧ (0x05004 : BitVec 20) ≠ 0x008 ∧ (0x05004 : BitVec 20) ≠ 0x010 ∧
      (0x05004 : BitVec 20) ≠ 0x014 ∧ ∃ t, serve (.write 0x05004 0x00000000) loaded = .next t ∧ (t.inp .car 1 == 0) = true) ∧
    ((0x00000001#32).toNat / 2 % 2 = 0 ∧ ∃ t, serve (.write 0x008 0x00000001) loaded = .next t ∧ t.irqEn = true) :=
  ⟨by decide +kernel,
   ⟨by decide, by decide, by decide, by decide, next_exists (f := fun t => t.inp .car 1 == 0) (by decide +kernel)⟩,
   ⟨by decide, next_exists (f := fun t => t.irqEn) (by decide +kernel)⟩⟩
theorem witness_ResetsAgree : (0x00000002#32).toNat / 2 % 2 = 1 ∧ (0xFFFFFFFF#32).toNat / 2 % 2 = 1 := by decide
theorem witness_ResetValues : small.wf = true ∧ ({ small with coefReset := .identity } : Build).wf = true := by decide
theorem witness_PlatformViewIsLittleEndian : 4 * 0x3FFFF < 2 ^ 20 ∧ 3 < 4 := by decide
/-- A finite result, a tie, and ∞. -/
theorem witness_RoundsToNearestEven :
    0 < 2 ∧ roundMag 1 2 = 0 ∧ roundMag 3 2 = 2 ∧ roundMag (2 ^ 300) 1 = 0x7F800000 := by decide +kernel
/-- Finite operands with a sum and a difference that are not zero and that are, a zero divisor, and infinite operands. -/
theorem witness_ArithmeticRoundsOnce :
    (isFinite 0x3F800000 = true ∧ isFinite 0x40400000 = true ∧ units 0x3F800000 + units 0x40400000 ≠ 0 ∧
      units 0x3F800000 - units 0x40400000 ≠ 0 ∧ isZero 0x40400000 = false) ∧
    (isFinite 0xBF800000 = true ∧ units 0x3F800000 + units 0xBF800000 = 0 ∧ units 0x3F800000 - units 0x3F800000 = 0) ∧
    (isFinite 0x80000000 = true ∧ isZero 0x80000000 = true ∧ isZero 0x3F800000 = false) ∧
    (isInf 0x7F800000 = true ∧ isInf 0xFF800000 = true ∧ signBit 0x7F800000 ≠ signBit 0xFF800000) := by decide +kernel
/-- NaNs with other payloads, infinities of both signs and both zeros. -/
theorem witness_NanResultsAreCanonical :
    (isNaN 0x7F800001 = true ∧ isNaN 0xFFFFFFFF = true ∧ isNaN 0x3F800000 = false) ∧
    (isInf 0x7F800000 = true ∧ isInf 0xFF800000 = true ∧ signBit 0x7F800000 ≠ signBit 0xFF800000) ∧
    (isZero 0x00000000 = true ∧ isZero 0x80000000 = true) ∧
    (isNaN (fadd 0x7F800000 0xFF800000) = true ∧ isNaN (fsub 0x7F800000 0x7F800000) = true ∧
      isNaN (fmul 0x00000000 0x7F800000) = true ∧ isNaN (fdiv 0x00000000 0x80000000) = true ∧ isNaN (fneg 0xFFFFFFFF) = true) := by
  decide +kernel
theorem witness_ComparisonsAreQuiet :
    isNaN 0x7F800001 = true ∧ isNaN 0xFF800000 = false ∧ isNaN 0x7F800000 = false ∧ isFinite 0x7F7FFFFF = true ∧ isFinite 0xFF7FFFFF = true ∧ isZero 0x00000000 = true ∧
    isZero 0x80000000 = true := by decide
theorem witness_IntegersConvertExactly : 1024 ≤ 1024 ∧ 0 ≤ 1024 := by decide

end Sys2Proof.Tests
end

section
/-! PROOFS of the statements of 00_scope.md, rounding (O56). Magnitude encodings are strictly increasing in their values, a rounding
is within half a unit of its exponent, and so no other encoding is nearer. -/

namespace Sys2Proof.Machine

/-! ### The value of a magnitude encoding -/

/-- The value, in units of 2^-149, of the magnitude bits `m` (00_scope.md R17). -/
def magValue (m : Nat) : Nat := magUnits (BitVec.ofNat 32 m)

/-- An encoding splits into an exponent `e` and a significand `s` whose leading bit is bit 23 unless `e` is 0. -/
theorem exists_exponent_significand (m : Nat) :
    ∃ e s, m = e * 2 ^ 23 + s ∧ (e = 0 ∨ 2 ^ 23 ≤ s) ∧ s < 2 ^ 24 :=
  ⟨m / 2 ^ 23 - 1, m - (m / 2 ^ 23 - 1) * 2 ^ 23, by omega, by omega, by omega⟩

theorem magValue_eq {m : Nat} (h : m ≤ infMag) :
    magValue m = if m / 2 ^ 23 = 0 then m % 2 ^ 23 else (2 ^ 23 + m % 2 ^ 23) * 2 ^ (m / 2 ^ 23 - 1) := by
  have hm : (BitVec.ofNat 32 m).toNat = m := by simp only [infMag] at h; simp; omega
  have he : m / 2 ^ 23 % 256 = m / 2 ^ 23 := by simp only [infMag] at h; omega
  rw [magValue, magUnits, expField_eq, fracField_eq, hm, he]

/-- The significand may be 2^24, where the encoding carries into the next binade. -/
theorem magValue_significand {e s : Nat} (hs : e = 0 ∨ 2 ^ 23 ≤ s) (hs' : s ≤ 2 ^ 24) (h : e * 2 ^ 23 + s ≤ infMag) :
    magValue (e * 2 ^ 23 + s) = s * 2 ^ e := by
  rw [magValue_eq h]
  obtain hlt | hge := Nat.lt_or_ge s (2 ^ 23)
  · obtain rfl : e = 0 := by omega
    rw [if_pos (by omega)]; omega
  obtain heq | hlt := Nat.eq_or_lt_of_le hs'
  · rw [if_neg (by omega), show (e * 2 ^ 23 + s) / 2 ^ 23 - 1 = e + 1 by omega,
      show (e * 2 ^ 23 + s) % 2 ^ 23 = 0 by omega, heq, Nat.pow_succ 2 e]
    omega
  · rw [if_neg (by omega), show (e * 2 ^ 23 + s) / 2 ^ 23 - 1 = e by omega,
      show 2 ^ 23 + (e * 2 ^ 23 + s) % 2 ^ 23 = s by omega]

theorem magValue_lt_succ {m : Nat} (h : m < infMag) : magValue m < magValue (m + 1) := by
  obtain ⟨e, s, rfl, hs, hs'⟩ := exists_exponent_significand m
  rw [magValue_significand hs hs'.le h.le, Nat.add_assoc, magValue_significand (by omega) hs' h]
  exact Nat.mul_lt_mul_of_pos_right s.lt_succ_self (Nat.two_pow_pos e)

theorem magValue_lt {m n : Nat} (hmn : m < n) (h : n ≤ infMag) : magValue m < magValue n := by
  induction n, hmn using Nat.le_induction with
  | base => exact magValue_lt_succ h
  | succ n _ ih => exact (ih (Nat.le_of_succ_le h)).trans (magValue_lt_succ h)

theorem magValue_le {m n : Nat} (hmn : m ≤ n) (h : n ≤ infMag) : magValue m ≤ magValue n := by
  obtain rfl | hlt := Nat.eq_or_lt_of_le hmn
  · exact Nat.le_refl _
  · exact (magValue_lt hlt h).le

theorem magValue_inj {m n : Nat} (hm : m ≤ infMag) (hn : n ≤ infMag) (h : magValue m = magValue n) : m = n := by
  obtain hlt | heq | hgt := Nat.lt_trichotomy m n
  · exact absurd h (magValue_lt hlt hn).ne
  · exact heq
  · exact absurd h (magValue_lt hgt hm).ne'

/-- Encodings above e·2^23 + s are at least one unit of the exponent away. -/
theorem magValue_above {e s m : Nat} (hs : e = 0 ∨ 2 ^ 23 ≤ s) (hs' : s ≤ 2 ^ 24) (hm : e * 2 ^ 23 + s < m)
    (h : m ≤ infMag) : (s + 1) * 2 ^ e ≤ magValue m := by
  obtain hlt | hge := Nat.lt_or_ge s (2 ^ 24)
  · rw [← magValue_significand (by omega) hlt (by omega)]
    exact magValue_le hm h
  · have hnext : magValue ((e + 1) * 2 ^ 23 + (2 ^ 23 + 1)) = (2 ^ 23 + 1) * 2 ^ (e + 1) :=
      magValue_significand (by omega) (by omega) (by omega)
    calc (s + 1) * 2 ^ e ≤ (2 ^ 23 + 1) * 2 ^ (e + 1) := by
          rw [Nat.pow_succ 2 e, Nat.mul_comm (2 ^ e), ← Nat.mul_assoc]
          exact Nat.mul_le_mul_right _ (by omega)
      _ = magValue ((e + 1) * 2 ^ 23 + (2 ^ 23 + 1)) := hnext.symm
      _ ≤ magValue m := magValue_le (by omega) h

/-- Encodings below e·2^23 + s are at least one unit of the exponent away, unless s is the least significand of `e`. -/
theorem magValue_below {e s m : Nat} (hs : e = 0 ∨ 2 ^ 23 < s) (hs' : s ≤ 2 ^ 24) (hm : m < e * 2 ^ 23 + s)
    (h : e * 2 ^ 23 + s ≤ infMag) : magValue m + 2 ^ e ≤ s * 2 ^ e := by
  obtain ⟨s, rfl⟩ : ∃ p, s = p + 1 := ⟨s - 1, by omega⟩
  rw [Nat.succ_mul, Nat.add_le_add_iff_right, ← magValue_significand (by omega) (by omega) (by omega : _ ≤ infMag)]
  exact magValue_le (by omega) (by omega)

/-! ### Rounding -/

/-- The rounded integer is within one half of the ratio, and even at one half. -/
theorem roundHalfEven_spec (num : Nat) {den : Nat} (hden : 0 < den) :
    2 * (den * roundHalfEven num den) ≤ 2 * num + den ∧ 2 * num ≤ 2 * (den * roundHalfEven num den) + den ∧
    (2 * (den * roundHalfEven num den) = 2 * num + den ∨ 2 * num = 2 * (den * roundHalfEven num den) + den →
      roundHalfEven num den % 2 = 0) := by
  have hdiv := Nat.div_add_mod num den
  have hmod := Nat.mod_lt num hden
  unfold roundHalfEven
  dsimp only
  split
  · omega
  split
  · rw [Nat.mul_add_one]; omega
  split
  · omega
  · rw [Nat.mul_add_one]; omega

theorem roundHalfEven_eq_or (num den : Nat) :
    roundHalfEven num den = num / den ∨ roundHalfEven num den = num / den + 1 := by
  unfold roundHalfEven
  dsimp only
  split
  · exact .inl rfl
  split
  · exact .inr rfl
  split
  · exact .inl rfl
  · exact .inr rfl

theorem le_roundHalfEven {num den k : Nat} (hden : 0 < den) (h : den * k ≤ num) : k ≤ roundHalfEven num den := by
  have hq : k ≤ num / den := (Nat.le_div_iff_mul_le hden).2 (Nat.mul_comm den k ▸ h)
  obtain h | h := roundHalfEven_eq_or num den <;> omega

theorem roundHalfEven_le {num den k : Nat} (hden : 0 < den) (h : num < den * k) : roundHalfEven num den ≤ k := by
  have hq : num / den < k := (Nat.div_lt_iff_lt_mul hden).2 (Nat.mul_comm den k ▸ h)
  obtain h | h := roundHalfEven_eq_or num den <;> omega

/-- The exponent that rounding uses: the ratio lies between 2^23 and 2^24 times its unit, or below 2^24 for exponent 0. -/
theorem exponent_spec (num : Nat) {den : Nat} (hden : 0 < den) :
    let e := Nat.log2 (num / den) - 23
    (e = 0 ∨ den * 2 ^ e * 2 ^ 23 ≤ num) ∧ num < den * 2 ^ e * 2 ^ 24 := by
  intro e
  have hlt : num / den < 2 ^ (e + 24) :=
    Nat.lt_log2_self.trans_le (Nat.pow_le_pow_right (by decide) (by omega))
  refine ⟨?_, ?_⟩
  · refine or_iff_not_imp_left.2 fun he => ?_
    have hle : 2 ^ (e + 23) ≤ num / den := by
      rw [show e + 23 = Nat.log2 (num / den) by omega]
      exact Nat.log2_self_le fun h0 => by simp [e, h0] at he
    rw [Nat.mul_assoc, ← Nat.pow_add, Nat.mul_comm]
    exact (Nat.le_div_iff_mul_le hden).1 hle
  · rw [Nat.mul_assoc, ← Nat.pow_add, Nat.mul_comm]
    exact (Nat.div_lt_iff_lt_mul hden).1 hlt

/-- `s` is the ratio num / den in units of 2^e, rounded to nearest and to even at a tie, with 24 significant bits kept unless `e`
is 0. -/
structure IsRounding (num den e s : Nat) : Prop where
  significand_le : s ≤ 2 ^ 24
  normal : e = 0 ∨ 2 ^ 23 ≤ s ∧ den * 2 ^ e * 2 ^ 23 ≤ num
  not_high : 2 * (den * 2 ^ e * s) ≤ 2 * num + den * 2 ^ e
  not_low : 2 * num ≤ 2 * (den * 2 ^ e * s) + den * 2 ^ e
  tie_even : 2 * (den * 2 ^ e * s) = 2 * num + den * 2 ^ e ∨ 2 * num = 2 * (den * 2 ^ e * s) + den * 2 ^ e → s % 2 = 0

/-- What `roundMag` computes: the encoding of a rounding of the ratio, up to ∞. -/
theorem roundMag_spec (num : Nat) {den : Nat} (hden : 0 < den) :
    ∃ e s, IsRounding num den e s ∧ roundMag num den = min (e * 2 ^ 23 + s) infMag := by
  obtain ⟨hnorm, htop⟩ := exponent_spec num hden
  have hD : 0 < den * 2 ^ (Nat.log2 (num / den) - 23) := Nat.mul_pos hden (Nat.two_pow_pos _)
  obtain ⟨hlo, hhi, htie⟩ := roundHalfEven_spec num hD
  exact ⟨_, _, ⟨roundHalfEven_le hD htop, hnorm.imp_right fun h => ⟨le_roundHalfEven hD h, h⟩, hlo, hhi, htie⟩, rfl⟩

/-- A rounding overflows exactly from the midpoint between the greatest finite value and 2^128: with a smaller exponent than 253
neither side holds, with 253 the significand must carry, and with a greater one the ratio itself is above. -/
theorem IsRounding.overflow_iff {num den e s : Nat} (hden : 0 < den) (h : IsRounding num den e s) :
    infMag ≤ e * 2 ^ 23 + s ↔ (2 ^ 25 - 1) * 2 ^ 252 * den ≤ num := by
  obtain ⟨hle, hnorm, hhigh, hlow, htie⟩ := h
  have hmono : ∀ {i j : Nat}, i ≤ j → den * 2 ^ i ≤ den * 2 ^ j := fun hij =>
    Nat.mul_le_mul_left _ (Nat.pow_le_pow_right (by decide) hij)
  have hu : 0 < den * 2 ^ 252 := Nat.mul_pos hden (Nat.two_pow_pos _)
  have htop : (2 ^ 25 - 1) * 2 ^ 252 * den = (2 ^ 25 - 1) * (den * 2 ^ 252) := by
    rw [Nat.mul_assoc, Nat.mul_comm (2 ^ 252) den]
  rw [htop, infMag]
  obtain hlt | heq | hgt := Nat.lt_trichotomy e 253
  · have hD := hmono (Nat.le_of_lt_succ hlt)
    have hDs := Nat.mul_le_mul_left (den * 2 ^ e) hle
    omega
  · have hD : den * 2 ^ e = 2 * (den * 2 ^ 252) := by rw [heq]; omega
    rw [hD] at hhigh hlow htie
    obtain rfl | rfl | hlow' : s = 2 ^ 24 ∨ s = 2 ^ 24 - 1 ∨ s ≤ 2 ^ 24 - 2 := by omega
    · omega
    · omega
    · have hus := Nat.mul_le_mul_left (2 * (den * 2 ^ 252)) hlow'
      omega
  · have hD := hmono hgt
    have h254 : den * 2 ^ 254 = 4 * (den * 2 ^ 252) := by omega
    omega

/-- No finite value is nearer to the ratio than its rounding, and an equally near one only when the rounding is even. -/
theorem IsRounding.nearest {num den e s m : Nat} (hden : 0 < den) (h : IsRounding num den e s)
    (hr : e * 2 ^ 23 + s ≤ infMag) (hm : m ≤ infMag) (hne : m ≠ e * 2 ^ 23 + s) :
    let dist := fun m : Nat => ((num : Int) - (den * magValue m : Nat)).natAbs
    dist (e * 2 ^ 23 + s) ≤ dist m ∧ (dist (e * 2 ^ 23 + s) = dist m → s % 2 = 0) := by
  obtain ⟨hle, hnorm, hhigh, hlow, htie⟩ := h
  have hD : 0 < den * 2 ^ e := Nat.mul_pos hden (Nat.two_pow_pos _)
  have hval : den * magValue (e * 2 ^ 23 + s) = den * 2 ^ e * s := by
    rw [magValue_significand (hnorm.imp_right And.left) hle hr, Nat.mul_comm s, Nat.mul_assoc]
  have habove : e * 2 ^ 23 + s < m → den * 2 ^ e * s + den * 2 ^ e ≤ den * magValue m := fun hlt => by
    rw [← Nat.mul_add_one, Nat.mul_assoc, Nat.mul_comm (2 ^ e)]
    exact Nat.mul_le_mul_left den (magValue_above (hnorm.imp_right And.left) hle hlt hm)
  dsimp only
  rw [hval]
  obtain hbelow | hup := Nat.lt_or_ge num (den * 2 ^ e * s)
  · have hgap : m < e * 2 ^ 23 + s → den * magValue m + den * 2 ^ e ≤ den * 2 ^ e * s := fun hlt => by
      rw [← Nat.mul_add, Nat.mul_assoc, Nat.mul_comm (2 ^ e)]
      refine Nat.mul_le_mul_left den (magValue_below (hnorm.imp_right fun hn => ?_) hle hlt hr)
      exact Nat.lt_of_mul_lt_mul_left (hn.2.trans_lt hbelow)
    omega
  · have hlt : m < e * 2 ^ 23 + s → den * magValue m < den * 2 ^ e * s := fun hlt =>
      hval ▸ Nat.mul_lt_mul_of_pos_left (magValue_lt hlt hr) hden
    omega

/-- Settles O56, by what `roundMag` computes: overflow is `IsRounding.overflow_iff`, and below ∞ the parity of the encoding
is that of its significand, so `IsRounding.nearest` gives the rest. -/
theorem roundsToNearestEven : Obligations.RoundsToNearestEven := by
  intro num den hden r dist
  obtain ⟨e, s, h, hround⟩ := roundMag_spec num hden
  have hover := h.overflow_iff hden
  have hr : r = min (e * 2 ^ 23 + s) infMag := hround
  simp only [infMag] at hr hover
  refine ⟨by omega, by omega, fun hfin m hm => ?_⟩
  obtain rfl | hne := eq_or_ne m r
  · exact ⟨le_rfl, fun _ => .inl rfl⟩
  have hrs : r = e * 2 ^ 23 + s := by omega
  obtain ⟨hle, htie⟩ := h.nearest hden (m := m) (by simp only [infMag]; omega) (by simp only [infMag]; omega)
    (hrs ▸ hne)
  simp only [Int.natCast_mul] at hle htie
  rw [← hrs] at hle htie
  exact ⟨hle, fun heq => .inr (by have := htie heq; omega)⟩

end Sys2Proof.Machine
end

section
/-! PROOFS of the statements of 00_scope.md on conversions (O60), the operations (O57, O58) and comparisons (O59). A conversion is exact
as the rounding of a value with an encoding is that encoding; an operation has one lemma per kind of its operands. -/

namespace Sys2Proof.Machine

/-! ### Exact conversions -/

/-- Every value of at most 24 significant bits in range has an encoding: shift it left until it is normal or the exponent is 0. -/
theorem exists_magValue_eq {n e : Nat} (hn : n < 2 ^ 24) (he : e ≤ 253) : ∃ m < infMag, magValue m = n * 2 ^ e := by
  induction e generalizing n with
  | zero =>
    have hm : 0 * 2 ^ 23 + n < infMag := by simp only [infMag]; omega
    exact ⟨_, hm, magValue_significand (.inl rfl) hn.le hm.le⟩
  | succ e ih =>
    obtain hsub | hnorm := Nat.lt_or_ge n (2 ^ 23)
    · obtain ⟨m, hm, hval⟩ := ih (n := 2 * n) (by omega) (by omega)
      exact ⟨m, hm, by rw [hval, Nat.pow_succ 2 e]; ring⟩
    · have hm : (e + 1) * 2 ^ 23 + n < infMag := by simp only [infMag]; omega
      exact ⟨_, hm, magValue_significand (.inr hnorm) hn.le hm.le⟩

/-- Rounding gives a finite value back. -/
theorem roundMag_magValue {m : Nat} (hm : m < infMag) : roundMag (magValue m) 1 = m := by
  obtain ⟨hle, hover, hnear⟩ := roundsToNearestEven (magValue m) 1 Nat.one_pos
  have hmax : magValue (253 * 2 ^ 23 + (2 ^ 24 - 1)) = (2 ^ 24 - 1) * 2 ^ 253 :=
    magValue_significand (by omega) (by omega) (by simp only [infMag]; omega)
  have hm_max : magValue m ≤ magValue (253 * 2 ^ 23 + (2 ^ 24 - 1)) :=
    magValue_le (by simp only [infMag] at hm; omega) (by simp only [infMag]; omega)
  have hfin : roundMag (magValue m) 1 < 0x7F800000 := by omega
  have hdist : ((magValue m : Int) - (1 : Nat) * (magValue (roundMag (magValue m) 1) : Int)).natAbs ≤
      ((magValue m : Int) - (1 : Nat) * (magValue m : Int)).natAbs := (hnear hfin m hm).1
  exact magValue_inj (roundMag_le _ _) hm.le (by omega)

theorem isFinite_pack (neg : Bool) {mag : Nat} (h : mag < infMag) : isFinite (pack neg mag) = true := by
  rw [isFinite_iff, pack_toNat neg h.le]
  simp only [infMag] at h
  cases neg <;> simp only [if_true, Bool.false_eq_true, if_false] <;> omega

theorem units_pack_false {mag : Nat} (h : mag ≤ infMag) : units (pack false mag) = magValue mag := by
  have hsign : signBit (pack false mag) = false := by
    rw [Bool.eq_false_iff, ne_eq, signBit_iff, pack_toNat false h]
    simp only [infMag] at h
    simp only [Bool.false_eq_true, if_false]
    omega
  rw [units, hsign, if_neg Bool.false_ne_true, magValue, pack, if_neg Bool.false_ne_true, Nat.zero_add]

/-- An integer of at most 24 bits converts exactly. -/
theorem f32_exact {k : Nat} (hk : k < 2 ^ 24) : isFinite (f32 k) = true ∧ units (f32 k) = (k : Int) * 2 ^ 149 := by
  obtain ⟨m, hm, hval⟩ := exists_magValue_eq (e := 149) hk (by decide)
  have hf : f32 k = pack false m := by rw [f32, f32OfRatio, ← hval, roundMag_magValue hm]
  rw [hf]
  refine ⟨isFinite_pack false hm, ?_⟩
  rw [units_pack_false hm.le, hval, Nat.cast_mul, Nat.cast_pow, Nat.cast_ofNat]

/-- Settles O60: 1024 has fewer than 24 bits. -/
theorem integersConvertExactly : Obligations.IntegersConvertExactly :=
  fun _ hk => f32_exact (hk.trans_lt (by decide))

/-! ### The operations on infinite operands and zeros -/

theorem isFinite_fneg {a : Word} (h : isNaN a = false) : isFinite (fneg a) = isFinite a := by
  rw [fneg_of_number h, isFinite, expField_flip, isFinite]

theorem fadd_inf_finite {a b : Word} (ha : isInf a = true) (hb : isFinite b = true) : fadd a b = a := by
  simp [fadd, ha, inf_kind ha, finite_kind hb]

theorem fadd_finite_inf {a b : Word} (ha : isFinite a = true) (hb : isInf b = true) : fadd a b = b := by
  simp [fadd, hb, inf_kind hb, finite_kind ha]

theorem fadd_inf_inf {a b : Word} (ha : isInf a = true) (hb : isInf b = true) :
    fadd a b = if signBit a = signBit b then a else nan32 := by
  by_cases hs : signBit a = signBit b <;> simp [fadd, ha, hb, inf_kind ha, inf_kind hb, hs]

/-- The difference of finite words: the exact difference rounded, and +0 for a zero difference unless it is (−0) − (+0). -/
theorem fsub_finite {a b : Word} (ha : isFinite a = true) (hb : isFinite b = true) :
    fsub a b = if units a - units b = 0 then pack (signBit a && !signBit b) 0
      else pack (decide (units a - units b < 0)) (roundMag (units a - units b).natAbs 1) := by
  have hn := (finite_kind hb).1
  rw [fsub, fadd_finite ha (by rwa [isFinite_fneg hn]), units_fneg hn, signBit_fneg hn, ← Int.sub_eq_add_neg]

theorem fsub_inf_finite {a b : Word} (ha : isInf a = true) (hb : isFinite b = true) : fsub a b = a :=
  fadd_inf_finite ha (by rwa [isFinite_fneg (finite_kind hb).1])

theorem fsub_finite_inf {a b : Word} (ha : isFinite a = true) (hb : isInf b = true) : fsub a b = b ^^^ 0x80000000 := by
  rw [fsub, fadd_finite_inf ha (by rwa [isInf_fneg]), fneg_of_number (inf_kind hb).1]

theorem fsub_inf_inf {a b : Word} (ha : isInf a = true) (hb : isInf b = true) :
    fsub a b = if signBit a = signBit b then nan32 else a := by
  rw [fsub, fadd_inf_inf ha (by rwa [isInf_fneg]), signBit_fneg (inf_kind hb).1]
  cases signBit a <;> cases signBit b <;> rfl

theorem fmul_inf {a b : Word} (ha : isNaN a = false) (hb : isNaN b = false) (h : isInf a = true ∨ isInf b = true)
    (hza : isZero a = false) (hzb : isZero b = false) : fmul a b = pack (signBit a != signBit b) infMag := by
  rcases h with h | h <;> simp [fmul, ha, hb, h, hza, hzb]

theorem fmul_zero_inf {a b : Word} (ha : isZero a = true) (hb : isInf b = true) :
    fmul a b = nan32 ∧ fmul b a = nan32 := by
  simp [fmul, ha, hb, inf_kind hb, finite_kind (zero_finite ha)]

theorem fdiv_inf_finite {a b : Word} (ha : isInf a = true) (hb : isFinite b = true) :
    fdiv a b = pack (signBit a != signBit b) infMag := by
  simp [fdiv, ha, inf_kind ha, finite_kind hb]

theorem fdiv_finite_inf {a b : Word} (ha : isFinite a = true) (hb : isInf b = true) :
    fdiv a b = pack (signBit a != signBit b) 0 := by
  simp [fdiv, hb, inf_kind hb, finite_kind ha]

theorem fdiv_inf_inf {a b : Word} (ha : isInf a = true) (hb : isInf b = true) : fdiv a b = nan32 := by
  simp [fdiv, ha, hb, inf_kind ha, inf_kind hb]

theorem fdiv_zero {a b : Word} (ha : isFinite a = true) (hb : isZero b = true) :
    fdiv a b = if isZero a then nan32 else pack (signBit a != signBit b) infMag := by
  simp [fdiv, hb, finite_kind ha, finite_kind (zero_finite hb)]

/-! ### The rules of the arithmetic -/

/-- Settles O57, by the kinds of the operands. -/
theorem arithmeticRoundsOnce : Obligations.ArithmeticRoundsOnce := by
  intro a b bits rounded neg
  have hround : ∀ n num den, (pack n (roundMag num den)).toNat = bits n (roundMag num den) := fun n num den =>
    pack_toNat n (roundMag_le num den)
  have hzero : ∀ n, (pack n 0).toNat = bits n 0 := fun n => pack_toNat n (Nat.zero_le _)
  have hinf : ∀ n, (pack n infMag).toNat = bits n 0x7F800000 := fun n => pack_toNat n le_rfl
  refine ⟨fun ha hb => ⟨fun h => ?_, fun h => ?_, fun h => ?_, fun h => ?_, ?_, fun hz => ?_, fun hzb hza => ?_⟩,
    fun ha hb => ⟨fadd_inf_finite ha hb, fadd_finite_inf hb ha, fsub_inf_finite ha hb, fsub_finite_inf hb ha,
      fun hz => ⟨?_, ?_⟩, ?_, ?_⟩,
    fun ha hb => ⟨?_, fun h => ?_, fun h => ?_⟩⟩
  · rw [fadd_finite ha hb, if_neg h]; exact hround ..
  · rw [fadd_finite ha hb, if_pos h]; exact hzero _
  · rw [fsub_finite ha hb, if_neg h]; exact hround ..
  · rw [fsub_finite ha hb, if_pos h]; exact hzero _
  · rw [fmul_finite ha hb, Int.natAbs_mul, units_natAbs, units_natAbs]; exact hround ..
  · rw [fdiv_finite ha hb hz, units_natAbs, units_natAbs]; exact hround ..
  · rw [fdiv_zero ha hzb, hza]; exact hinf _
  · rw [fmul_inf (inf_kind ha).1 (finite_kind hb).1 (.inl ha) (inf_kind ha).2 hz]; exact hinf _
  · rw [fmul_inf (finite_kind hb).1 (inf_kind ha).1 (.inr ha) hz (inf_kind ha).2, bne_comm]; exact hinf _
  · rw [fdiv_inf_finite ha hb]; exact hinf _
  · rw [fdiv_finite_inf hb ha, bne_comm]; exact hzero _
  · rw [fmul_inf (inf_kind ha).1 (inf_kind hb).1 (.inl ha) (inf_kind ha).2 (inf_kind hb).2]; exact hinf _
  · rw [fadd_inf_inf ha hb, if_pos h]
  · rw [fsub_inf_inf ha hb, if_neg h]

/-! ### NaN results -/

/-- The word holds the canonical NaN or no NaN (00_scope.md R21). -/
def CanonicalIfNaN (w : Word) : Prop := isNaN w = true → w = nan32

theorem canonicalIfNaN_nan32 : CanonicalIfNaN nan32 := fun _ => rfl

theorem canonicalIfNaN_of_number {w : Word} (h : isNaN w = false) : CanonicalIfNaN w :=
  fun hn => absurd hn (by rw [h]; exact Bool.false_ne_true)

theorem canonicalIfNaN_pack (neg : Bool) {mag : Nat} (h : mag ≤ infMag) : CanonicalIfNaN (pack neg mag) :=
  canonicalIfNaN_of_number (isNaN_pack neg h)

theorem canonicalIfNaN_fneg (a : Word) : CanonicalIfNaN (fneg a) := fun h =>
  fneg_of_nan (by rwa [isNaN_fneg] at h)

theorem canonicalIfNaN_fadd (a b : Word) : CanonicalIfNaN (fadd a b) := by
  unfold fadd
  split
  · exact canonicalIfNaN_nan32
  split
  case isTrue hinf =>
    split
    · exact canonicalIfNaN_nan32
    · exact canonicalIfNaN_of_number (inf_kind hinf).1
  split
  case isTrue hinf => exact canonicalIfNaN_of_number (inf_kind hinf).1
  dsimp only
  split
  · exact canonicalIfNaN_pack _ (Nat.zero_le _)
  · exact canonicalIfNaN_pack _ (roundMag_le _ _)

theorem canonicalIfNaN_fsub (a b : Word) : CanonicalIfNaN (fsub a b) := canonicalIfNaN_fadd a (fneg b)

theorem canonicalIfNaN_fmul (a b : Word) : CanonicalIfNaN (fmul a b) := by
  unfold fmul
  dsimp only
  split
  · exact canonicalIfNaN_nan32
  split
  · split
    · exact canonicalIfNaN_nan32
    · exact canonicalIfNaN_pack _ le_rfl
  · exact canonicalIfNaN_pack _ (roundMag_le _ _)

theorem canonicalIfNaN_fdiv (a b : Word) : CanonicalIfNaN (fdiv a b) := by
  unfold fdiv
  dsimp only
  split
  · exact canonicalIfNaN_nan32
  split
  · split
    · exact canonicalIfNaN_nan32
    · exact canonicalIfNaN_pack _ le_rfl
  split
  · exact canonicalIfNaN_pack _ (Nat.zero_le _)
  split
  · split
    · exact canonicalIfNaN_nan32
    · exact canonicalIfNaN_pack _ le_rfl
  · exact canonicalIfNaN_pack _ (roundMag_le _ _)

/-- Settles O58: each invalid operation by the kind of its operands, and the NaN results by `CanonicalIfNaN`. -/
theorem nanResultsAreCanonical : Obligations.NanResultsAreCanonical := fun a b =>
  ⟨fun h => ⟨fadd_nan h, fsub_nan h, fmul_nan h, fdiv_nan h⟩,
    fun ha hb => ⟨fun hs => (fadd_inf_inf ha hb).trans (if_neg hs), fun hs => (fsub_inf_inf ha hb).trans (if_pos hs),
      fdiv_inf_inf ha hb⟩,
    fmul_zero_inf, fun ha hb => (fdiv_zero (zero_finite ha) hb).trans (if_pos ha), fneg_of_nan, fneg_of_number,
    canonicalIfNaN_fadd a b, canonicalIfNaN_fsub a b, canonicalIfNaN_fmul a b, canonicalIfNaN_fdiv a b,
    canonicalIfNaN_fneg a⟩

/-! ### Comparisons -/

/-- The value of a word by its fields (00_scope.md R17, R20). -/
theorem units_eq (a : Word) : units a = (if 2 ^ 31 ≤ a.toNat then -1 else 1) *
    (if a.toNat / 2 ^ 23 % 256 = 0 then ((a.toNat % 2 ^ 23 : Nat) : Int)
      else (2 ^ 23 + ((a.toNat % 2 ^ 23 : Nat) : Int)) * 2 ^ (a.toNat / 2 ^ 23 % 256 - 1)) := by
  have hmag : (magUnits a : Int) = if a.toNat / 2 ^ 23 % 256 = 0 then ((a.toNat % 2 ^ 23 : Nat) : Int)
      else (2 ^ 23 + ((a.toNat % 2 ^ 23 : Nat) : Int)) * 2 ^ (a.toNat / 2 ^ 23 % 256 - 1) := by
    rw [magUnits, expField_eq, fracField_eq]
    split <;> push_cast <;> rfl
  rw [← hmag, units]
  by_cases hs : 2 ^ 31 ≤ a.toNat
  · rw [if_pos ((signBit_iff a).2 hs), if_pos hs, Int.neg_one_mul]
  · rw [if_neg (mt (signBit_iff a).1 hs), if_neg hs, Int.one_mul]

/-- A finite magnitude is below the 2^277 units that stand for ∞. -/
theorem magUnits_lt_of_finite {a : Word} (h : isFinite a = true) : magUnits a < 2 ^ 23 * 2 ^ 254 := by
  have hfrac : fracField a < 2 ^ 23 := by rw [fracField_eq]; exact Nat.mod_lt _ (by decide)
  have hexp : expField a < 255 := by
    rw [isFinite_iff] at h
    rw [expField_eq]; omega
  unfold magUnits
  split
  · omega
  · calc (2 ^ 23 + fracField a) * 2 ^ (expField a - 1) ≤ (2 ^ 24 - 1) * 2 ^ 253 :=
          Nat.mul_le_mul (by omega) (Nat.pow_le_pow_right (by decide) (by omega))
      _ < 2 ^ 23 * 2 ^ 254 := by decide

theorem units_finite_between {a : Word} (h : isFinite a = true) :
    units 0xFF800000 < units a ∧ units a < units 0x7F800000 := by
  have hpos : units 0x7F800000 = 2 ^ 23 * 2 ^ 254 := by decide
  have hneg : units 0xFF800000 = -(2 ^ 23 * 2 ^ 254) := by decide
  have habs := units_natAbs a
  have hlt := magUnits_lt_of_finite h
  omega

/-- Settles O59. The claims about the fields are the laws of the fields; ∞ stands for 2^277 units, above every finite value. -/
theorem comparisonsAreQuiet : Obligations.ComparisonsAreQuiet := by
  intro a b
  refine ⟨⟨isNaN_iff a, isInf_iff a, isFinite_iff a, isZero_iff a, signBit_iff a, fun _ => units_eq a⟩, fun h => ?_,
    fun ha hb => ?_, (units_eq_zero a).2, units_finite_between, rfl⟩
  · rcases h with h | h <;> simp [flt, fle, h]
  · simp [flt, fle, ha, hb, Int.le_iff_lt_or_eq]

end Sys2Proof.Machine
end

section
/-! PROOFS of the statements of 10_state.md on the invariant (O10, O11). The commands are `Inv_effect` and `Inv_capture`; what is left
is one case per location of a write. -/

namespace Sys2Proof.Machine

/-- A write to an implemented word of MOD_IN or CAR_IN keeps the invariant. -/
theorem Inv_storeInp {s : State} (h : s.Inv) (p : Path) {n : Nat} (hn : n < s.build.frames) (v : Word) :
    (s.setMem (Memory.storeWords s.mem (inAddr p n) [v])).Inv := by
  obtain ⟨hb, hsize, hmem, hcap, hfresh, henv⟩ := h
  exact ⟨hb, hsize, MemOk_storeWords hmem _ _ fun x h1 h2 => bufferByte_inp (Build.wf_bounds hb).2.2.2 hn h1 h2,
    hcap, hfresh, henv⟩

/-- A write to an implemented word of OUT keeps the invariant. -/
theorem Inv_storeOutWord {s : State} (h : s.Inv) {n : Nat} (hn : n < s.build.frames) (v : Word) :
    (s.setMem (Memory.storeWords s.mem (outAddr n) [v])).Inv := by
  obtain ⟨hb, hsize, hmem, hcap, hfresh, henv⟩ := h
  exact ⟨hb, hsize, MemOk_storeWords hmem _ _ fun x h1 h2 => bufferByte_out (Build.wf_bounds hb).2.2.2 hn h1 h2,
    hcap, hfresh, henv⟩

theorem Inv_execute {s t : State} (h : s.Inv) (w : Word) (ht : execute w s = .next t) : t.Inv := by
  rcases execute_cases w s with ⟨code, info, hne, he⟩ | ⟨i, -, hready, he⟩
  · cases he.symm.trans ht
    exact Inv_capture h code _ info fun hbus => absurd hbus hne
  · cases he.symm.trans ht
    exact Inv_effect h hready

/-- A write to a location that the build implements keeps the invariant: only IN and OUT, the commands and the resets write what
the invariant speaks of. -/
theorem Inv_writeLoc {s t : State} (h : s.Inv) (l : Loc) (a : Nat) (hl : l.At s.build a) (v : Word)
    (ht : writeLoc l v s = .next t) : t.Inv := by
  cases l with
  | ctrl =>
    simp only [writeLoc] at ht
    split at ht
    · cases ht; exact Inv_resetCore s h.1
    · cases ht; exact h
  | cmd => exact Inv_execute (s := { s with cmd := v }) h v ht
  | err => cases ht; exact Inv_clearErr h
  | inp p n => cases ht; exact Inv_storeInp h p hl.2 v
  | out n => cases ht; exact Inv_storeOutWord h hl.2 v
  | _ => cases ht; exact h

theorem Inv_busRead {s t : State} (h : s.Inv) (addr : BitVec 20) (ht : busRead addr s = .next t) : t.Inv := by
  simp only [busRead] at ht
  split at ht
  · cases ht; exact Inv_capture (s := { s with reply := .data (readWord s addr) }) h _ _ _ fun _ => rfl
  · cases ht; exact h

theorem Inv_busWrite {s t : State} (h : s.Inv) (addr : BitVec 20) (v : Word) (ht : busWrite addr v s = .next t) : t.Inv := by
  by_cases ha : addr.toNat % 4 = 0
  · rw [busWrite_aligned ha] at ht
    exact Inv_writeLoc (s := { s with reply := .ack }) h _ _ (locate_at s.build addr ha) v ht
  · rw [busWrite, if_pos ((misaligned_iff addr).2 ha)] at ht
    cases ht
    exact Inv_capture (s := { s with reply := .ack }) h _ _ _ fun _ => rfl

theorem Inv_serve {s t : State} (h : s.Inv) (e : PortEvent) (ht : serve e s = .next t) : t.Inv := by
  cases e with
  | read addr => exact Inv_busRead h addr ht
  | write addr v => exact Inv_busWrite h addr v ht
  | rst => cases ht; exact Inv_resetCore _ h.1

/-- A step leaves the state as it is, with nothing at the port, or serves the oldest event. -/
theorem step_cases (s : State) :
    step s = .next s ∨ ∃ e rest, s.port = e :: rest ∧ step s = serve e { s with port := rest } := by
  unfold step takeEvent
  cases hp : s.port with
  | nil => exact .inl rfl
  | cons e rest => exact .inr ⟨e, rest, rfl, rfl⟩

/-- Settles O10: an empty port leaves the state, and serving an event keeps the invariant. -/
theorem stepKeepsInvariant : Obligations.StepKeepsInvariant := by
  intro s t h ht
  rcases step_cases s with hs | ⟨e, rest, -, hs⟩
  · cases hs.symm.trans ht; exact h
  · exact Inv_serve (s := { s with port := rest }) h e (hs.symm.trans ht)

/-- Settles O11: the reset state of a build is what a reset makes of itself. -/
theorem invariantAtReset : Obligations.InvariantAtReset :=
  have reset (b : Build) (hb : b.wf = true) : (State.resetOf b).Inv := Inv_resetCore (State.resetOf b) hb
  ⟨reset Build.default (by decide), reset⟩

end Sys2Proof.Machine
end

section
/-! PROOFS of the statements of 10_state.md on the control registers (O16, O17, O46, O50, O54). Each offset is an entry of
`controlRegs`, so a transaction at it reads or writes that register. -/

namespace Sys2Proof.Machine

/-! ### A register at its offset -/

theorem controlRegs_aligned : ∀ e ∈ controlRegs, e.1 % 4 = 0 := by decide

theorem readWord_register (s : State) (addr : BitVec 20) (l : Loc) (h : (addr.toNat, l) ∈ controlRegs := by decide) :
    readWord s addr = readLoc s l := readWord_control s addr l h (controlRegs_aligned _ h)

theorem serve_write_register (s : State) (v : Word) (addr : BitVec 20) (l : Loc)
    (h : (addr.toNat, l) ∈ controlRegs := by decide) :
    serve (.write addr v) s = writeLoc l v { s with reply := .ack } :=
  busWrite_control s addr v l h (controlRegs_aligned _ h)

/-! ### Fields of a word -/

theorem append_toNat {n m : Nat} (x : BitVec n) (y : BitVec m) : (x ++ y).toNat = 2 ^ m * x.toNat + y.toNat := by
  rw [BitVec.toNat_append, Nat.shiftLeft_eq, Nat.mul_comm, ← Nat.two_pow_add_eq_or_of_lt y.isLt]

theorem getLsbD_append_ofBool {n : Nat} (x : BitVec n) (b : Bool) (k : Nat) :
    (x ++ BitVec.ofBool b).getLsbD k = if k = 0 then b else x.getLsbD (k - 1) := by
  rw [BitVec.getLsbD_append, BitVec.getLsbD_ofBool]
  rcases k with _ | k <;> simp

theorem ofBool_setWidth_toNat (b : Bool) : ((BitVec.ofBool b).setWidth 32).toNat = if b then 1 else 0 := by
  cases b <;> rfl

theorem cfgWord_toNat {b : Build} (h : b.wf = true) : (cfgWord b).toNat = b.n + 256 * b.frames := by
  obtain ⟨-, hn, -, hf⟩ := Build.wf_bounds h
  refine (append_toNat ((0 : BitVec 12) ++ BitVec.ofNat 12 b.frames) (BitVec.ofNat 8 b.n)).trans ?_
  rw [append_toNat, BitVec.toNat_ofNat, BitVec.toNat_ofNat, show (0 : BitVec 12).toNat = 0 from rfl]
  omega

/-! ### ERR and STATUS -/

theorem errWord_toNat (s : State) :
    (errWord s).toNat = (causeCode s.errCause).toNat + (if s.errOvf then 256 else 0) := by
  refine (append_toNat ((0 : BitVec 23) ++ BitVec.ofBool s.errOvf) (causeCode s.errCause)).trans ?_
  rw [append_toNat, BitVec.toNat_ofBool]
  cases s.errOvf <;> simp [Nat.add_comm]

/-- Settles O16: the word is the code and OVF's 256, and the codes are those of 60_exceptions.md R280. -/
theorem errReadsCauseAndOverflow : Obligations.ErrReadsCauseAndOverflow := by
  intro s
  rw [readWord_register s 0x014 .err, readLoc, errWord_toNat]
  congr 1
  rcases s.errCause with _ | code
  · rfl
  · cases code <;> rfl

/-- The bits of STATUS, from the right. -/
theorem statusWord_getLsbD (s : State) (k : Nat) : (statusWord s).getLsbD k =
    if k = 0 then s.errPend else if k = 1 then s.ready .mod else if k = 2 then s.ready .car else
      if k = 3 then s.irq else false := by
  refine (getLsbD_append_ofBool ((0 : BitVec 28) ++ BitVec.ofBool s.irq ++ BitVec.ofBool (s.ready .car) ++
    BitVec.ofBool (s.ready .mod)) s.errPend k).trans ?_
  rw [getLsbD_append_ofBool, getLsbD_append_ofBool, getLsbD_append_ofBool]
  rcases k with _ | _ | _ | _ | k <;> simp

theorem ready_iff (s : State) (p : Path) : s.ready p = true ↔ ∀ i < s.build.n, (s.band p i).conf = true := by
  simp [State.ready]

theorem errPend_iff (s : State) : s.errPend = true ↔ s.errCause ≠ none := Option.isSome_iff_ne_none

/-- Settles O17: each bit of STATUS is the flag it is named after. -/
theorem statusReadsItsBits : Obligations.StatusReadsItsBits := by
  intro s
  rw [readWord_register s 0x00C .status, readLoc]
  simp only [statusWord_getLsbD]
  refine ⟨errPend_iff s, ready_iff s .mod, ready_iff s .car, Iff.rfl, fun k hk => ?_, ?_⟩
  · simp (disch := omega) only [if_neg]
  · rw [State.irq, Bool.and_eq_true, errPend_iff]

/-! ### The other registers -/

/-- Settles O46: each register reads as its field, the narrow ones widened with zeros. -/
theorem controlRegistersReadTheirState : Obligations.ControlRegistersReadTheirState := by
  intro s hb
  have read := @readWord_register s
  refine ⟨read 0x000 .id, ?_, ?_, read 0x010 .cmd, read 0x018 .errCmd, read 0x01C .errInfo, read 0x020 .arg0,
    read 0x024 .arg1, read 0x028 .fs, read 0x02C .gain, ?_, ?_, read 0x040 (.stg .a0), read 0x044 (.stg .a1),
    read 0x048 (.stg .a2), read 0x04C (.stg .b1), read 0x050 (.stg .b2)⟩
  · rw [read 0x004 .cfg]; exact cfgWord_toNat hb
  · rw [read 0x008 .ctrl]; exact ofBool_setWidth_toNat s.irqEn
  · rw [read 0x030 .blkOff]; exact BitVec.toNat_setWidth_of_le (by decide)
  · rw [read 0x034 .blkLen]; exact BitVec.toNat_setWidth_of_le (by decide)

theorem ofNat_mod_eq_setWidth (n : Nat) (v : Word) : BitVec.ofNat n (v.toNat % 2 ^ n) = v.setWidth n := by
  apply BitVec.eq_of_toNat_eq; simp

theorem getLsbD_zero_eq (v : Word) : v.getLsbD 0 = decide (v.toNat % 2 = 1) := by
  simp [BitVec.getLsbD, Nat.testBit_zero]

theorem getLsbD_one_eq (v : Word) : v.getLsbD 1 = decide (v.toNat / 2 % 2 = 1) := by
  simp [BitVec.getLsbD, Nat.testBit_succ]

/-- Settles O50: each write stores in its own field, the narrow ones the low bits of the word. -/
theorem registerWritesStore : Obligations.RegisterWritesStore := by
  intro s v
  have write := @serve_write_register s v
  refine ⟨write 0x020 .arg0, write 0x024 .arg1, write 0x028 .fs, ?_, ?_, write 0x040 (.stg .a0), write 0x044 (.stg .a1),
    write 0x048 (.stg .a2), write 0x04C (.stg .b1), write 0x050 (.stg .b2), fun hbit => ?_⟩
  · rw [write 0x030 .blkOff, show 2048 = 2 ^ 11 from rfl, ofNat_mod_eq_setWidth]; rfl
  · rw [write 0x034 .blkLen, show 4096 = 2 ^ 12 from rfl, ofNat_mod_eq_setWidth]; rfl
  · rw [write 0x008 .ctrl, writeLoc, if_neg (by rw [getLsbD_one_eq, hbit]; decide), getLsbD_zero_eq]

/-! ### Reset -/

@[simp] theorem loadWord_nil (a : Nat) : Memory.loadWord [] a = 0 := by simp [Memory.loadWord]

theorem resetOf_band (b : Build) (p : Path) (i : Nat) : (State.resetOf b).band p i = Band.reset b.coefReset := by
  rw [State.band, List.getD_eq_getElem?_getD]
  cases p <;> exact List.getElem?_getD_replicate_default_eq ..

/-- Settles O54: the list of 10_state.md R67, read off the reset state. -/
theorem resetValues : Obligations.ResetValues := by
  refine ⟨fun b hb => ?_, rfl, rfl, rfl, rfl, ?_⟩
  · obtain ⟨-, -, -, hf⟩ := Build.wf_bounds hb
    refine ⟨rfl, rfl, rfl, rfl, rfl, rfl, rfl, rfl, rfl, rfl, ?_, rfl, List.length_replicate,
      fun _ he => List.eq_of_mem_replicate he, fun p => ?_, fun p i _ => ?_, fun _ _ => loadWord_nil _,
      fun _ => loadWord_nil _, fun _ _ _ => loadWord_nil _⟩
    · exact Nat.mod_eq_of_lt (by omega)
    · cases p <;> exact List.length_replicate
    · rw [resetOf_band, Band.reset]
      cases b.coefReset <;> rfl
  · rw [readWord_register _ 0x004 .cfg]
    rfl

end Sys2Proof.Machine
end

section
/-! PROOFS of the statements of 10_state.md on the address map (O47, O48, O49, O51): which location each region gives, and so what a
transaction there does. -/

namespace Sys2Proof.Machine

/-! ### The control region -/

/-- An offset below 0x01000 that is no register's is an envelope's or reserved. -/
theorem locate_control_rest {b : Build} {addr : BitVec 20} (h : addr.toNat < 0x01000)
    (hreg : ∀ e ∈ controlRegs, e.1 ≠ addr.toNat) : locate b addr =
      if 0x100 ≤ addr.toNat ∧ (addr.toNat - 0x100) / 4 < b.n then .env ((addr.toNat - 0x100) / 4) else .reserved := by
  have hnone : controlRegs.find? (fun e => e.1 == addr.toNat) = none := by
    rw [List.find?_eq_none]
    exact fun e he => by simpa using hreg e he
  simp only [locate, if_pos h, locateControl, hnone]

/-- The registers lie below 0x054 and leave the two offsets 0x038 and 0x03C out. -/
theorem controlRegs_offsets : ∀ e ∈ controlRegs, e.1 < 0x054 ∧ e.1 ≠ 0x038 ∧ e.1 ≠ 0x03C := by decide

theorem controlRegs_ne {a : Nat} (h : a = 0x038 ∨ a = 0x03C ∨ 0x054 ≤ a) : ∀ e ∈ controlRegs, e.1 ≠ a := fun e he => by
  have := controlRegs_offsets e he
  omega

theorem locate_env {b : Build} (hb : b.wf = true) (i : Nat) (hi : i < b.n) :
    locate b (BitVec.ofNat 20 (0x100 + 4 * i)) = .env i := by
  obtain ⟨-, hn, -, -⟩ := Build.wf_bounds hb
  have ha : (BitVec.ofNat 20 (0x100 + 4 * i)).toNat = 0x100 + 4 * i := by rw [BitVec.toNat_ofNat]; omega
  rw [locate_control_rest (by omega) (controlRegs_ne (by omega)), ha, if_pos (by omega)]
  congr 1; omega

/-! ### The band files -/

/-- An offset in the band files of a path is located in them. -/
theorem locate_band {b : Build} {addr : BitVec 20} (p : Path) (h : 0x01000 + 0x01000 * pathNum p ≤ addr.toNat)
    (h' : addr.toNat < 0x02000 + 0x01000 * pathNum p) :
    locate b addr = locateBand b p (addr.toNat - (0x01000 + 0x01000 * pathNum p)) := by
  cases p <;> simp only [pathNum] at h h' ⊢ <;> unfold locate <;> simp (disch := omega) only [if_pos, if_neg]

/-- The words of a band's file lie below 0x28, and a search for an offset of one finds its entry. -/
theorem bandRegs_found : ∀ e ∈ bandRegs, e.1 < 0x28 ∧ e.1 % 4 = 0 ∧ bandRegs.find? (fun r => r.1 == e.1) = some e := by decide

theorem locate_bandWord {b : Build} (hb : b.wf = true) (p : Path) (i : Nat) (hi : i < b.n) (off : Nat) (k : BandReg)
    (hk : (off, k) ∈ bandRegs) :
    locate b (BitVec.ofNat 20 (0x01000 + pathNum p * 0x01000 + i * 0x40 + off)) = .bandWord p i k := by
  obtain ⟨-, hn, -, -⟩ := Build.wf_bounds hb
  obtain ⟨hoff, -, hfind⟩ := bandRegs_found _ hk
  have hp : pathNum p < 2 := by cases p <;> decide
  have ha : (BitVec.ofNat 20 (0x01000 + pathNum p * 0x01000 + i * 0x40 + off)).toNat =
      0x01000 + pathNum p * 0x01000 + i * 0x40 + off := by rw [BitVec.toNat_ofNat]; omega
  have hr : 0x01000 + pathNum p * 0x01000 + i * 0x40 + off - (0x01000 + 0x01000 * pathNum p) = i * 0x40 + off := by omega
  have hmod : (i * 0x40 + off) % 0x40 = off := by omega
  have hdiv : (i * 0x40 + off) / 0x40 = i := by omega
  rw [locate_band p (by omega) (by omega), ha, hr, locateBand, hmod, hfind]
  simp only [hdiv, if_pos hi]

/-- The slots of bands ≥ N and the end of each file are reserved. -/
theorem locateBand_reserved {b : Build} {p : Path} {r : Nat} (h : b.n ≤ r / 0x40 ∨ 0x28 ≤ r % 0x40) :
    locateBand b p r = .reserved := by
  unfold locateBand
  cases hf : bandRegs.find? (fun e => e.1 == r % 0x40) with
  | none => rfl
  | some e =>
    have hoff := (bandRegs_found e (List.mem_of_find?_eq_some hf)).1
    have heq : e.1 = r % 0x40 := by simpa using List.find?_some hf
    exact if_neg (by omega)

theorem locateBand_readOnly (b : Build) (p : Path) (r : Nat) : (locateBand b p r).readOnly = true := by
  unfold locateBand
  split
  · split <;> rfl
  · rfl

/-! ### The buffers -/

theorem locateScr_reserved {b : Build} {p : Path} {r : Nat} (h : b.n ≤ r / 0x1000 ∨ b.frames ≤ r / 4 % 1024) :
    locateScr b p r = .reserved := by
  simp only [locateScr, Config.framesMax]
  exact if_neg (by omega)

theorem locateScr_readOnly (b : Build) (p : Path) (r : Nat) : (locateScr b p r).readOnly = true := by
  simp only [locateScr]
  split <;> rfl

/-- The slots of samples ≥ FRAMES in MOD_IN, CAR_IN and OUT are reserved. -/
theorem locate_sample_reserved {b : Build} {addr : BitVec 20} (h : 0x04000 ≤ addr.toNat) (h' : addr.toNat < 0x07000)
    (hf : b.frames ≤ addr.toNat % 0x01000 / 4) : locate b addr = .reserved := by
  unfold locate
  rcases (by omega : addr.toNat < 0x05000 ∨ (0x05000 ≤ addr.toNat ∧ addr.toNat < 0x06000) ∨ 0x06000 ≤ addr.toNat) with
    ha | ⟨ha, ha'⟩ | ha <;> simp (disch := omega) only [if_pos, if_neg]

/-- The regions that no build uses. -/
theorem locate_gap {b : Build} {addr : BitVec 20} (h : (0x03000 ≤ addr.toNat ∧ addr.toNat < 0x04000) ∨
    (0x07000 ≤ addr.toNat ∧ addr.toNat < 0x40000) ∨ 0xC0000 ≤ addr.toNat) : locate b addr = .reserved := by
  unfold locate
  rcases h with ⟨ha, ha'⟩ | ⟨ha, ha'⟩ | ha <;> simp (disch := omega) only [if_pos, if_neg]

/-! ### Reads -/

theorem inAddr_aligned (p : Path) (n : Nat) : inAddr p n % 4 = 0 := by simp only [inAddr]; omega

theorem outAddr_aligned (n : Nat) : outAddr n % 4 = 0 := by simp only [outAddr]; omega

theorem scrAddr_aligned (p : Path) (i n : Nat) : scrAddr p i n % 4 = 0 := by simp only [scrAddr]; omega

/-- An aligned offset reads as the location it names. -/
theorem readWord_ofNat (s : State) {a : Nat} {l : Loc} (ha : a % 4 = 0) (hl : locate s.build (BitVec.ofNat 20 a) = l) :
    readWord s (BitVec.ofNat 20 a) = readLoc s l := by
  rw [readWord_aligned (by rw [BitVec.toNat_ofNat]; omega), hl]

/-- Settles O47: each word is located at its offset. -/
theorem arraysReadTheirState : Obligations.ArraysReadTheirState := by
  intro s hb
  obtain ⟨-, -, -, hf⟩ := Build.wf_bounds hb
  refine ⟨fun i hi => readWord_ofNat s (by omega) (locate_env hb i hi), fun p i hi => ?_, fun n hn => ?_,
    fun i hi n hn => ?_⟩
  · have word (off : Nat) (k : BandReg) (hk : (off, k) ∈ bandRegs := by decide) :
        readWord s (BitVec.ofNat 20 (0x01000 + pathNum p * 0x01000 + i * 0x40 + off)) = bandWord (s.band p i) k :=
      readWord_ofNat s (by have := (bandRegs_found _ hk).2.1; omega) (locate_bandWord hb p i hi off k hk)
    refine ⟨word 0x00 .a0, word 0x04 .a1, word 0x08 .a2, word 0x0C .b1, word 0x10 .b2, word 0x14 .x1, word 0x18 .x2,
      word 0x1C .y1, word 0x20 .y2, ?_⟩
    simp only [word 0x24 .bstat]
    exact ofBool_setWidth_toNat _
  · exact ⟨readWord_ofNat s (inAddr_aligned .mod n) (locate_inp hf .mod n hn),
      readWord_ofNat s (inAddr_aligned .car n) (locate_inp hf .car n hn),
      readWord_ofNat s (outAddr_aligned n) (locate_out hf n hn)⟩
  · exact ⟨readWord_ofNat s (scrAddr_aligned .mod i n) (locate_scr hb .mod i n hi hn),
      readWord_ofNat s (scrAddr_aligned .car i n) (locate_scr hb .car i n hi hn)⟩

/-! ### Reserved and read-only offsets -/

theorem serve_write_readOnly (s : State) {addr : BitVec 20} (v : Word) (ha : addr.toNat % 4 = 0)
    (hl : (locate s.build addr).readOnly = true) : serve (.write addr v) s = .next { s with reply := .ack } :=
  (busWrite_aligned ha v s).trans (writeLoc_readOnly hl v _)

/-- Settles O48: every offset of the list is located as reserved. -/
theorem reservedIsReadZeroWriteIgnored : Obligations.ReservedIsReadZeroWriteIgnored := by
  intro s addr v hb a n f ha h
  have hl : locate s.build addr = .reserved := by
    have low (hlt : a < 0x01000) (hreg : a = 0x038 ∨ a = 0x03C ∨ 0x054 ≤ a) (henv : a < 0x100 ∨ 0x100 + 4 * n ≤ a) :
        locate s.build addr = .reserved := by
      rw [locate_control_rest hlt (controlRegs_ne hreg), if_neg (by omega)]
    rcases h with h | h | ⟨h1, h2⟩ | ⟨h1, h2⟩ | ⟨h1, h2, h3⟩ | h | ⟨h1, h2, h3⟩ | h | ⟨h1, h2, h3⟩ | h
    · exact low (by omega) (by omega) (by omega)
    · exact low (by omega) (by omega) (by omega)
    · exact low (by omega) (by omega) (by omega)
    · exact low (by omega) (by omega) (by omega)
    · rcases Nat.lt_or_ge a 0x02000 with hp | hp
      · rw [locate_band .mod h1 hp]
        exact locateBand_reserved (by simp only [pathNum]; omega)
      · rw [locate_band .car hp h2]
        exact locateBand_reserved (by simp only [pathNum]; omega)
    · exact locate_gap (.inl h)
    · exact locate_sample_reserved h1 h2 h3
    · exact locate_gap (.inr (.inl h))
    · rcases Nat.lt_or_ge a 0x80000 with hp | hp
      · rw [locate_scratch .mod h1 hp]
        exact locateScr_reserved (by simp only [pathNum]; omega)
      · rw [locate_scratch .car hp h2]
        exact locateScr_reserved (by simp only [pathNum]; omega)
    · exact locate_gap (.inr (.inr h))
  exact ⟨by rw [readWord_aligned ha, hl, readLoc], serve_write_readOnly s v ha (by rw [hl]; rfl)⟩

/-- Settles O49: every offset of the list is located as a read-only register, a word of ENV, a band file or the scratch, or as
reserved. -/
theorem readOnlyIgnoresWrites : Obligations.ReadOnlyIgnoresWrites := by
  intro s addr v hb a ha h
  refine serve_write_readOnly s v ha ?_
  have reg (l : Loc) (hl : (a, l) ∈ controlRegs) (hro : l.readOnly = true) : (locate s.build addr).readOnly = true := by
    rw [locate_control s.build addr l hl, hro]
  rcases h with h | h | h | h | h | h | ⟨h1, h2⟩ | h
  · exact reg .id (by rw [h]; decide) rfl
  · exact reg .cfg (by rw [h]; decide) rfl
  · exact reg .status (by rw [h]; decide) rfl
  · exact reg .errCmd (by rw [h]; decide) rfl
  · exact reg .errInfo (by rw [h]; decide) rfl
  · exact reg .gain (by rw [h]; decide) rfl
  · rcases (by omega : a < 0x01000 ∨ (0x01000 ≤ a ∧ a < 0x02000) ∨ 0x02000 ≤ a) with hp | ⟨hp, hp'⟩ | hp
    · rw [locate_control_rest hp (controlRegs_ne (by omega))]
      split <;> rfl
    · rw [locate_band .mod hp hp']; exact locateBand_readOnly _ _ _
    · rw [locate_band .car hp h2]; exact locateBand_readOnly _ _ _
  · rcases (by omega : a < 0x80000 ∨ (0x80000 ≤ a ∧ a < 0xC0000) ∨ 0xC0000 ≤ a) with hp | ⟨hp, hp'⟩ | hp
    · rw [locate_scratch .mod h hp]; exact locateScr_readOnly _ _ _
    · rw [locate_scratch .car hp hp']; exact locateScr_readOnly _ _ _
    · rw [locate_gap (.inr (.inr hp))]; rfl

/-! ### Buffer writes -/

/-- A location that holds the word of memory at its offset and stores what is written reads back what is written, and nothing else
changes. -/
theorem write_reads_back (s : State) (v : Word) (a : Nat) (l : Loc) (ha : a % 4 = 0)
    (hl : locate s.build (BitVec.ofNat 20 a) = l) (hread : ∀ t : State, readLoc t l = Memory.loadWord t.mem a)
    (hwrite : ∀ t : State, writeLoc l v t = .next (t.setMem (Memory.storeWords t.mem a [v]))) :
    ∃ t, serve (.write (BitVec.ofNat 20 a) v) s = .next t ∧ readWord t (BitVec.ofNat 20 a) = v ∧
      (∀ x, x < a ∨ a + 4 ≤ x → Memory.byte t.mem x = Memory.byte s.mem x) ∧
      { t with mem := s.mem } = { s with reply := .ack } := by
  have hs : serve (.write (BitVec.ofNat 20 a) v) s =
      .next ({ s with reply := .ack }.setMem (Memory.storeWords s.mem a [v])) := by
    rw [serve, busWrite_aligned (by rw [BitVec.toNat_ofNat]; omega), hl, hwrite]
  have hback (t : State) (hb : t.build = s.build) (hm : t.mem = Memory.storeWords s.mem a [v]) :
      readWord t (BitVec.ofNat 20 a) = v := by
    rw [readWord_ofNat t ha (hb ▸ hl), hread, hm]
    exact loadWord_storeWords_in s.mem a [v] 0 (by simp)
  exact ⟨_, hs, hback _ rfl rfl, fun x hx => byte_storeWords_out _ _ _ _ (by simpa using hx), rfl⟩

/-- Settles O51: the three buffers, each by its location. -/
theorem bufferWritesReadBack : Obligations.BufferWritesReadBack := by
  intro s v base n hb hn hbase
  obtain ⟨-, -, -, hf⟩ := Build.wf_bounds hb
  rcases hbase with rfl | rfl | rfl
  · exact write_reads_back s v _ (.inp .mod n) (by omega) (locate_inp hf .mod n hn) (fun _ => rfl) fun _ => rfl
  · exact write_reads_back s v _ (.inp .car n) (by omega) (locate_inp hf .car n hn) (fun _ => rfl) fun _ => rfl
  · exact write_reads_back s v _ (.out n) (by omega) (locate_out hf n hn) (fun _ => rfl) fun _ => rfl

end Sys2Proof.Machine
end

section
/-! PROOFS of the statements of 10_state.md on what the commands leave (O41, O42): the frame of each operation, then of the effect of
each command. -/

namespace Sys2Proof.Machine

/-! ### Loops -/

/-- What an operation keeps for each index, the loop over the bands keeps. -/
theorem eachBand_keeps {γ : Type} (f : State → γ) (op : Nat → State → State) (h : ∀ i s, f (op i s) = f s) (n : Nat)
    (s : State) : f (eachBand n op s) = f s :=
  foldl_keeps f (fun s i => op i s) (fun s i => h i s) _ s

/-- GENERATE keeps what its five operations keep. -/
theorem generateBlock_keeps {γ : Type} (f : State → γ) (hfilter : ∀ t off len s, f (filterWindow t off len s) = f s)
    (henv : ∀ i s, f (envelopeBand i s) = f s) (hmodulate : ∀ i s, f (modulateBand i s) = f s)
    (hmix : ∀ s, f (mixOut s) = f s) (hmakeup : ∀ s, f (makeupOut s) = f s) (s : State) : f (generateBlock s) = f s := by
  have hband (i : Nat) (s : State) : f (filterBand i s) = f s := by rw [filterBand, hfilter, hfilter]
  rw [generateBlock, hmakeup, hmix, eachBand_keeps f modulateBand hmodulate, eachBand_keeps f envelopeBand henv,
    eachBand_keeps f filterBand hband]

/-- A command captures an error or has its effect. -/
theorem exec_eq_capture_or_effect {i : Instr} {s t : State} (h : exec i s = .next t) :
    (∃ code info, t = capture code s.cmd info s) ∨ t = effect i s := by
  rcases exec_cases i s with ⟨code, info, -, he⟩ | ⟨-, he⟩
  · exact .inl ⟨code, info, Host.Outcome.next.inj (h.symm.trans he)⟩
  · exact .inr (Host.Outcome.next.inj (h.symm.trans he))

/-! ### Bands -/

@[simp] theorem envelopeBand_band (i : Nat) (s : State) (q : Path) (k : Nat) : (envelopeBand i s).band q k = s.band q k :=
  setEnv_band s i _ q k
@[simp] theorem modulateBand_band (i : Nat) (s : State) (q : Path) (k : Nat) : (modulateBand i s).band q k = s.band q k :=
  noMem_band (noMem_modulateBand i s) q k
@[simp] theorem mixOut_band (s : State) (q : Path) (k : Nat) : (mixOut s).band q k = s.band q k :=
  noMem_band (noMem_mixOut s) q k
@[simp] theorem makeupOut_band (s : State) (q : Path) (k : Nat) : (makeupOut s).band q k = s.band q k :=
  noMem_band (noMem_makeupOut s) q k
@[simp] theorem clearOut_band (s : State) (q : Path) (k : Nat) : (clearOut s).band q k = s.band q k :=
  noMem_band (noMem_clearOut s) q k

/-- Configuring a band leaves the state scalars of every band, whether or not the band exists. -/
theorem configure_st (t : Path × Nat) (c : Coef) (s : State) (q : Path) (k : Nat) :
    ((configure t c s).band q k).st = (s.band q k).st := by
  obtain ⟨p, i⟩ := t
  by_cases hqk : (q, k) = (p, i)
  · obtain ⟨rfl, rfl⟩ := Prod.mk.inj hqk
    by_cases hk : k < (s.bands q).length
    · rw [configure, setBand_band_same _ _ _ _ hk]
    · simp [configure, State.band, List.getD_eq_getElem?_getD, hk]
  · rw [configure, setBand_band_other _ _ _ _ _ _ hqk]

theorem configureAll_st (ts : List (Path × Nat)) (c : Nat → Coef) (s : State) (q : Path) (k : Nat) :
    ((configureAll ts c s).band q k).st = (s.band q k).st :=
  foldl_keeps (fun s => (s.band q k).st) _ (fun s t => configure_st t (c t.2) s q k) ts s

theorem generateBlock_coef (s : State) (q : Path) (k : Nat) : ((generateBlock s).band q k).coef = (s.band q k).coef :=
  generateBlock_keeps (fun s => (s.band q k).coef) (fun t off len s => (filterWindow_coef_conf t off len s q k).1)
    (by simp) (by simp) (by simp) (by simp) s

theorem generateBlock_conf (s : State) (q : Path) (k : Nat) : ((generateBlock s).band q k).conf = (s.band q k).conf :=
  generateBlock_keeps (fun s => (s.band q k).conf) (fun t off len s => (filterWindow_coef_conf t off len s q k).2)
    (by simp) (by simp) (by simp) (by simp) s

theorem effect_st {i : Instr} (hfilter : ∀ p b, i ≠ .filter p b) (hgenerate : i ≠ .generate) (s : State) (q : Path) (k : Nat) :
    ((effect i s).band q k).st = (s.band q k).st := by
  cases i with
  | filter p b => exact absurd rfl (hfilter p b)
  | generate => exact absurd rfl hgenerate
  | setBandpass | writeCoef | buildBank => exact configureAll_st _ _ s q k
  | nop | envelope | modulate | mix | makeup | clearOut => simp [effect]

theorem effect_coef_conf {i : Instr} (hbandpass : ∀ p b, i ≠ .setBandpass p b) (hcoef : ∀ p b, i ≠ .writeCoef p b)
    (hbank : ∀ p, i ≠ .buildBank p) (s : State) (q : Path) (k : Nat) :
    ((effect i s).band q k).coef = (s.band q k).coef ∧ ((effect i s).band q k).conf = (s.band q k).conf := by
  cases i with
  | setBandpass p b => exact absurd rfl (hbandpass p b)
  | writeCoef p b => exact absurd rfl (hcoef p b)
  | buildBank p => exact absurd rfl (hbank p)
  | filter p b => exact filterAll_coef_conf _ _ _ q k s
  | generate => exact ⟨generateBlock_coef s q k, generateBlock_conf s q k⟩
  | nop | envelope | modulate | mix | makeup | clearOut => simp [effect]

/-- Settles O41: an error leaves the bands, and the effects are `effect_st` and `effect_coef_conf`. -/
theorem commandsWriteOnlyTheirBandState : Obligations.CommandsWriteOnlyTheirBandState := by
  intro i s t h
  rcases exec_eq_capture_or_effect h with ⟨code, info, rfl⟩ | rfl
  · simp
  · exact ⟨fun hf hg => effect_st hf hg s, fun hp hc hb => effect_coef_conf hp hc hb s⟩

/-! ### Registers, the build and the port -/

/-- The state without what a command may write: the bands, the envelopes, the buffers and the error capture. -/
def commandFrame (s : State) : State :=
  { noBandsMem s with env := [], errCause := none, errOvf := false, errCmd := 0, errInfo := 0 }

theorem commandFrame_capture (code : ErrCode) (w info : Word) (s : State) :
    commandFrame (capture code w info s) = commandFrame s := by
  unfold capture
  split <;> rfl

theorem commandFrame_of_noBandsMem {s t : State} (h : noBandsMem t = noBandsMem s) : commandFrame t = commandFrame s := by
  rw [commandFrame, h, commandFrame]

theorem commandFrame_configureAll (ts : List (Path × Nat)) (c : Nat → Coef) (s : State) :
    commandFrame (configureAll ts c s) = commandFrame s :=
  foldl_keeps commandFrame _ (fun s _ => commandFrame_of_noBandsMem (noBandsMem_setBand s _ _ _)) ts s

theorem commandFrame_effect (i : Instr) (s : State) : commandFrame (effect i s) = commandFrame s := by
  cases i with
  | setBandpass | writeCoef | buildBank => exact commandFrame_configureAll _ _ s
  | filter => exact commandFrame_of_noBandsMem (noBandsMem_filterAll _ _ _ s)
  | generate =>
    exact generateBlock_keeps commandFrame (fun t off len s => commandFrame_of_noBandsMem (noBandsMem_filterWindow t off len s))
      (fun _ _ => rfl) (fun _ _ => rfl) (fun _ => rfl) (fun _ => rfl) s
  | nop | envelope | modulate | mix | makeup | clearOut => rfl

/-! ### Input blocks -/

theorem inp_setBand (s : State) (q : Path) (i : Nat) (b : Band) (p : Path) (n : Nat) :
    (s.setBand q i b).inp p n = s.inp p n := by simp [State.inp]

/-- A store to the scratch leaves the input blocks. -/
theorem inp_storeScr (s : State) (q : Path) (i off : Nat) (ys : List Word) (p : Path) {n : Nat} (h : n < 1024) :
    (s.storeScr q i off ys).inp p n = s.inp p n := by
  refine loadWord_storeWords_out _ _ _ _ (.inl ?_)
  have hin := inAddr_lt p (n + 1) h
  rw [inAddr_add] at hin
  have hscr := scrAddr_ge q i off
  omega

/-- A store to OUT leaves the input blocks. -/
theorem inp_storeOut (s : State) (ys : List Word) (p : Path) {n : Nat} (h : n < 1024) :
    (s.storeOut ys).inp p n = s.inp p n := by
  refine loadWord_storeWords_out _ _ _ _ (.inl ?_)
  have hin := inAddr_lt p (n + 1) h
  rw [inAddr_add] at hin
  simp only [outAddr]
  omega

theorem inp_filterWindow (t : Path × Nat) (off len : Nat) (s : State) (p : Path) {n : Nat} (h : n < 1024) :
    (filterWindow t off len s).inp p n = s.inp p n := by
  rw [filterWindow, inp_storeScr _ _ _ _ _ _ h, inp_setBand]

theorem effect_inp (i : Instr) (s : State) (p : Path) {n : Nat} (h : n < 1024) : (effect i s).inp p n = s.inp p n := by
  cases i with
  | nop => rfl
  | setBandpass | writeCoef | buildBank =>
    exact foldl_keeps (fun s => s.inp p n) _ (fun s t => inp_setBand s _ _ _ p n) _ s
  | filter => exact foldl_keeps (fun s => s.inp p n) _ (fun s t => inp_filterWindow t _ _ s p h) _ s
  | envelope => rfl
  | modulate => exact inp_storeScr s _ _ _ _ p h
  | mix | makeup | clearOut => exact inp_storeOut s _ p h
  | generate =>
    exact generateBlock_keeps (fun s => s.inp p n) (fun t off len s => inp_filterWindow t off len s p h) (fun _ _ => rfl)
      (fun _ s => inp_storeScr s _ _ _ _ p h) (fun s => inp_storeOut s _ p h) (fun s => inp_storeOut s _ p h) s

/-- Settles O42: the frame of an error and of every effect. -/
theorem commandsKeepOperandsAndInputs : Obligations.CommandsKeepOperandsAndInputs := by
  intro i s t hb h
  have hkept : commandFrame t = commandFrame s ∧ ∀ p, ∀ n < 1024, t.inp p n = s.inp p n := by
    rcases exec_eq_capture_or_effect h with ⟨code, info, rfl⟩ | rfl
    · exact ⟨commandFrame_capture _ _ _ s, by simp [State.inp]⟩
    · exact ⟨commandFrame_effect i s, fun p n hn => effect_inp i s p hn⟩
  obtain ⟨hframe, hinp⟩ := hkept
  obtain ⟨-, -, -, hf⟩ := Build.wf_bounds hb
  have field {α : Type} (f : State → α) : f (commandFrame t) = f (commandFrame s) := congrArg f hframe
  exact ⟨field State.arg0, field State.arg1, field State.fs, field State.stg, field State.blkOff, field State.blkLen,
    field State.irqEn, field State.cmd, field State.build, field State.port, field State.reply,
    fun p n hn => hinp p n (by omega)⟩

end Sys2Proof.Machine
end

section
/-! PROOFS of the statement of 10_state.md that there is no hidden state (O43): every part of the state is read at some offset, and
what is read there determines it. -/

namespace Sys2Proof.Machine

/-! ### What a word determines -/

theorem causeCode_injective {c d : Option ErrCode} (h : causeCode c = causeCode d) : c = d := by
  have left (c : Option ErrCode) : [none, some .illegalOp, some .reservedField, some .bandRange, some .locked,
      some .unconfigured, some .cfgRange, some .blockRange, some .bus][(causeCode c).toNat]? = some c := by
    rcases c with _ | code
    · rfl
    · cases code <;> rfl
  exact Option.some.inj ((left c).symm.trans (h ▸ left d))

/-- ERR determines the cause and OVF: the code is below 256. -/
theorem errWord_injective {s t : State} (h : errWord s = errWord t) : s.errCause = t.errCause ∧ s.errOvf = t.errOvf := by
  have hn := congrArg BitVec.toNat h
  rw [errWord_toNat, errWord_toNat] at hn
  have hs := (causeCode s.errCause).isLt
  have ht := (causeCode t.errCause).isLt
  have hovf : s.errOvf = t.errOvf := by
    cases hso : s.errOvf <;> cases hto : t.errOvf <;> simp [hso, hto] at hn ⊢ <;> omega
  rw [hovf] at hn
  exact ⟨causeCode_injective (BitVec.eq_of_toNat_eq (by omega)), hovf⟩

theorem setWidth_word_injective {n : Nat} (hn : n ≤ 32) {x y : BitVec n} (h : x.setWidth 32 = y.setWidth 32) : x = y := by
  have := congrArg BitVec.toNat h
  rw [BitVec.toNat_setWidth_of_le hn, BitVec.toNat_setWidth_of_le hn] at this
  exact BitVec.eq_of_toNat_eq this

theorem ofBool_word_injective {b c : Bool} (h : (BitVec.ofBool b).setWidth 32 = (BitVec.ofBool c).setWidth 32) : b = c := by
  have := congrArg BitVec.toNat h
  rw [ofBool_setWidth_toNat, ofBool_setWidth_toNat] at this
  cases b <;> cases c <;> simp_all

theorem coef_eq_of_stgWord {c d : Coef} (h : ∀ k, stgWord c k = stgWord d k) : c = d :=
  Coef.mk.injEq .. ▸ ⟨h .a0, h .a1, h .a2, h .b1, h .b2⟩

theorem band_eq_of_bandWord {b c : Band} (h : ∀ k, bandWord b k = bandWord c k) : b = c := by
  have hcoef : b.coef = c.coef := Coef.mk.injEq .. ▸ ⟨h .a0, h .a1, h .a2, h .b1, h .b2⟩
  have hst : b.st = c.st := FiltState.mk.injEq .. ▸ ⟨h .x1, h .x2, h .y1, h .y2⟩
  exact Band.mk.injEq .. ▸ ⟨hcoef, hst, ofBool_word_injective (h .bstat)⟩

/-- A word of memory determines its four bytes. -/
theorem byte_eq_of_loadWord {m m' : List Host.Cell} {a : Nat} (h : Memory.loadWord m a = Memory.loadWord m' a) {j : Nat}
    (hj : j < 4) : Memory.byte m (a + j) = Memory.byte m' (a + j) := by
  have value (m : List Host.Cell) : (Memory.loadWord m a).toNat = 2 ^ 8 * (2 ^ 8 * (2 ^ 8 *
      (Memory.byte m (a + 3)).toNat + (Memory.byte m (a + 2)).toNat) + (Memory.byte m (a + 1)).toNat) + (Memory.byte m a).toNat := by
    refine (append_toNat (Memory.byte m (a + 3) ++ Memory.byte m (a + 2) ++ Memory.byte m (a + 1)) (Memory.byte m a)).trans ?_
    rw [append_toNat, append_toNat]
  have hn := congrArg BitVec.toNat h
  rw [value, value] at hn
  have lt (m : List Host.Cell) (x : Nat) : (Memory.byte m x).toNat < 256 := (Memory.byte m x).isLt
  have h0 := lt m a; have h1 := lt m (a + 1); have h2 := lt m (a + 2)
  have h0' := lt m' a; have h1' := lt m' (a + 1); have h2' := lt m' (a + 2)
  apply BitVec.eq_of_toNat_eq
  match j, hj with
  | 0, _ => simp only [Nat.add_zero]; omega
  | 1, _ => omega
  | 2, _ => omega
  | 3, _ => omega

theorem list_eq_of_getD {α : Type} {l m : List α} {d e : α} {n : Nat} (hl : l.length = n) (hm : m.length = n)
    (h : ∀ i < n, l.getD i d = m.getD i e) : l = m := by
  refine List.ext_getElem (hl.trans hm.symm) fun i hi hi' => ?_
  simpa [List.getD_eq_getElem?_getD, hi, hi'] using h i (hl ▸ hi)

/-! ### Every implemented location is read -/

/-- Two states that read the same at every aligned offset. -/
def ReadsSame (s t : State) : Prop := ∀ addr : BitVec 20, addr.toNat % 4 = 0 → readWord s addr = readWord t addr

section

variable {s t : State}

/-- They hold the same at every location that has an offset. -/
theorem ReadsSame.readLoc_eq (h : ReadsSame s t) (hb : s.build = t.build) {a : Nat} {l : Loc} (ha : a % 4 = 0)
    (hl : locate s.build (BitVec.ofNat 20 a) = l) : readLoc s l = readLoc t l := by
  rw [← readWord_ofNat s ha hl, ← readWord_ofNat t ha (hb ▸ hl)]
  exact h _ (by rw [BitVec.toNat_ofNat]; omega)

theorem ReadsSame.register_eq (h : ReadsSame s t) (addr : BitVec 20) (l : Loc)
    (hl : (addr.toNat, l) ∈ controlRegs := by decide) : readLoc s l = readLoc t l := by
  rw [← readWord_register s addr l hl, ← readWord_register t addr l hl]
  exact h addr (controlRegs_aligned _ hl)

theorem ReadsSame.stg_eq (h : ReadsSame s t) : s.stg = t.stg := by
  refine coef_eq_of_stgWord fun k => ?_
  cases k with
  | a0 => exact h.register_eq 0x040 (.stg .a0)
  | a1 => exact h.register_eq 0x044 (.stg .a1)
  | a2 => exact h.register_eq 0x048 (.stg .a2)
  | b1 => exact h.register_eq 0x04C (.stg .b1)
  | b2 => exact h.register_eq 0x050 (.stg .b2)

theorem bandRegs_complete (k : BandReg) : ∃ off, (off, k) ∈ bandRegs := by
  cases k <;> simp [bandRegs]

theorem ReadsSame.band_eq (h : ReadsSame s t) (hb : s.build = t.build) (hwf : s.build.wf = true) (p : Path) {i : Nat}
    (hi : i < s.build.n) : s.band p i = t.band p i := by
  refine band_eq_of_bandWord fun k => ?_
  obtain ⟨off, hk⟩ := bandRegs_complete k
  have haligned := (bandRegs_found _ hk).2.1
  exact h.readLoc_eq hb (by omega) (locate_bandWord hwf p i hi off k hk)

theorem ReadsSame.bands_eq (h : ReadsSame s t) (hb : s.build = t.build) (hwf : s.build.wf = true) (hs : s.SizesOk)
    (ht : t.SizesOk) (p : Path) : s.bands p = t.bands p :=
  list_eq_of_getD (SizesOk.length hs p) ((SizesOk.length ht p).trans (by rw [hb])) fun _ hi => h.band_eq hb hwf p hi

theorem ReadsSame.env_eq (h : ReadsSame s t) (hb : s.build = t.build) (hwf : s.build.wf = true) (hs : s.SizesOk)
    (ht : t.SizesOk) : s.env = t.env := by
  obtain ⟨-, -, hslen⟩ := hs
  obtain ⟨-, -, htlen⟩ := ht
  exact list_eq_of_getD hslen (htlen.trans (by rw [hb])) fun i hi => h.readLoc_eq hb (by omega) (locate_env hwf i hi)

/-- A byte of an implemented buffer word lies in a location that reads as the word around it. -/
theorem bufferByte_readLoc {b : Build} {a : Nat} (h : bufferByte b a = true) :
    ∃ l, locate b (BitVec.ofNat 20 (a / 4 * 4)) = l ∧ ∀ s : State, readLoc s l = Memory.loadWord s.mem (a / 4 * 4) := by
  simp only [bufferByte, Bool.and_eq_true, decide_eq_true_eq] at h
  obtain ⟨hlt, hl⟩ := h
  have ha : (BitVec.ofNat 20 (a / 4 * 4)).toNat = a / 4 * 4 := by rw [BitVec.toNat_ofNat]; omega
  have hat := locate_at b (BitVec.ofNat 20 (a / 4 * 4)) (by omega)
  rw [ha] at hat
  refine ⟨_, rfl, fun s => ?_⟩
  cases hloc : locate b (BitVec.ofNat 20 (a / 4 * 4)) with
  | inp p n => rw [hloc] at hat; rw [hat.1]; rfl
  | out n => rw [hloc] at hat; rw [hat.1]; rfl
  | scr p i n => rw [hloc] at hat; rw [hat.1]; rfl
  | _ => rw [hloc] at hl; cases hl

/-- A byte outside the implemented buffers reads 0. -/
theorem byte_of_not_bufferByte (hs : s.MemOk) {a : Nat} (h : bufferByte s.build a ≠ true) : Memory.byte s.mem a = 0 := by
  by_contra hne
  exact h (hs.2 _ ((mem_iff_byte s.mem hs.1 a _).2 ⟨rfl, hne⟩))

theorem ReadsSame.mem_eq (h : ReadsSame s t) (hb : s.build = t.build) (hs : s.MemOk) (ht : t.MemOk) : s.mem = t.mem := by
  refine memory_ext _ _ hs.1 ht.1 fun a => ?_
  by_cases ha : bufferByte s.build a = true
  · obtain ⟨l, hl, hread⟩ := bufferByte_readLoc ha
    have hword := h.readLoc_eq hb (by omega) hl
    rw [hread, hread] at hword
    have := byte_eq_of_loadWord hword (j := a % 4) (by omega)
    rwa [show a / 4 * 4 + a % 4 = a by omega] at this
  · rw [byte_of_not_bufferByte hs ha, byte_of_not_bufferByte ht (hb ▸ ha)]

end

/-- Settles O43: each field is read at its offset. -/
theorem noHiddenState : Obligations.NoHiddenState := by
  rintro s t ⟨hwf, hsizes, hmem, -⟩ ⟨-, tsizes, tmem, -⟩ hb hread
  have h : ReadsSame s t := hread
  have reg := @h.register_eq
  obtain ⟨hcause, hovf⟩ := errWord_injective (reg 0x014 .err)
  have hirq : s.irqEn = t.irqEn := ofBool_word_injective (reg 0x008 .ctrl)
  have hoff : s.blkOff = t.blkOff := setWidth_word_injective (by decide) (reg 0x030 .blkOff)
  have hlen : s.blkLen = t.blkLen := setWidth_word_injective (by decide) (reg 0x034 .blkLen)
  have hcmd : s.cmd = t.cmd := reg 0x010 .cmd
  have herrCmd : s.errCmd = t.errCmd := reg 0x018 .errCmd
  have hinfo : s.errInfo = t.errInfo := reg 0x01C .errInfo
  have harg0 : s.arg0 = t.arg0 := reg 0x020 .arg0
  have harg1 : s.arg1 = t.arg1 := reg 0x024 .arg1
  have hfs : s.fs = t.fs := reg 0x028 .fs
  have hmod : s.modBands = t.modBands := h.bands_eq hb hwf hsizes tsizes .mod
  have hcar : s.carBands = t.carBands := h.bands_eq hb hwf hsizes tsizes .car
  simp only [forgetPort, hb, hirq, hcmd, hcause, hovf, herrCmd, hinfo, harg0, harg1, hfs, hoff, hlen, h.stg_eq,
    h.env_eq hb hwf hsizes tsizes, hmod, hcar, h.mem_eq hb hmem tmem]

end Sys2Proof.Machine
end

section
/-! PROOFS of the statements of 20_memory.md (O8, O9, O45, O52, O55): what one transaction does at the port, that a run never stops,
that a write done twice is a write done once, and the byte view. -/

namespace Sys2Proof.Machine

/-! ### The port and runs -/

/-- Settles O8: a step takes the head of the list. -/
theorem stepServesOldestEvent : Obligations.StepServesOldestEvent := by
  refine fun s => ⟨fun hport => ?_, fun e rest hport => ?_⟩
  · rw [step, takeEvent, hport]
  · rw [step, takeEvent, hport]

theorem step_next (s : State) : ∃ t, step s = .next t := by
  rcases step_cases s with hs | ⟨e, rest, -, hs⟩
  · exact ⟨s, hs⟩
  · rw [hs]; exact serve_next e _

/-- A run goes on with what its first step leaves. -/
theorem run_succ_of_next (M : Host.Core) {k : Nat} {s t : M.State} (h : M.step s = .next t) : M.run (k + 1) s = M.run k t := by
  rw [Host.Core.run, h]

/-- Settles O9, by induction on the number of steps. -/
theorem everyRunCompletes : Obligations.EveryRunCompletes := by
  intro k
  induction k with
  | zero => exact fun s => ⟨s, rfl⟩
  | succ k ih =>
    intro s
    obtain ⟨t, ht⟩ := step_next s
    obtain ⟨u, hu⟩ := ih t
    exact ⟨u, (run_succ_of_next Sys2Proof.core ht).trans hu⟩

/-! ### Aligned reads and misaligned transactions -/

theorem busRead_aligned {addr : BitVec 20} (h : addr.toNat % 4 = 0) (s : State) :
    busRead addr s = .next { s with reply := .data (readWord s addr) } := by
  rw [busRead, if_neg (by simp [misaligned_eq_false h])]

theorem readWord_misaligned {addr : BitVec 20} (h : addr.toNat % 4 ≠ 0) (s : State) : readWord s addr = 0 :=
  if_pos ((misaligned_iff addr).2 h)

theorem busRead_misaligned {addr : BitVec 20} (h : addr.toNat % 4 ≠ 0) (s : State) :
    busRead addr s = .next (capture .bus 0 (addr.setWidth 32) { s with reply := .data 0 }) := by
  rw [busRead, if_pos ((misaligned_iff addr).2 h), readWord_misaligned h]

theorem busWrite_misaligned {addr : BitVec 20} (h : addr.toNat % 4 ≠ 0) (v : Word) (s : State) :
    busWrite addr v s = .next (capture .bus 0 (addr.setWidth 32) { s with reply := .ack }) :=
  if_pos ((misaligned_iff addr).2 h)

/-- Settles O45: the two kinds of offset, each by its lemma. -/
theorem readsAndMisalignedAccesses : Obligations.ReadsAndMisalignedAccesses := by
  refine fun s addr v => ⟨fun ha => busRead_aligned ha s, fun ha => ?_⟩
  rw [BitVec.ofNat_toNat]
  exact ⟨busRead_misaligned ha s, busWrite_misaligned ha v s⟩

/-! ### A write done twice -/

theorem storeWords_repeat (m : List Host.Cell) (h : Memory.wf m) (a : Nat) (ws : List Word) :
    Memory.storeWords (Memory.storeWords m a ws) a ws = Memory.storeWords m a ws := by
  have hwf := storeWords_wf m a ws h
  refine memory_ext _ _ (storeWords_wf _ _ _ hwf) hwf fun x => ?_
  by_cases hx : x < a ∨ a + 4 * ws.length ≤ x
  · exact byte_storeWords_out _ _ _ _ hx
  · obtain ⟨k, rfl⟩ := Nat.exists_eq_add_of_le (show a ≤ x by omega)
    have hk : k < (ws.flatMap wordBytes).length := by rw [flatMap_wordBytes_length]; omega
    simp only [Memory.storeWords, byte_store_in _ _ _ _ hk]

/-- Every location but CMD takes the same write again without a change, ERR and CTRL with bit 1 set too: what they clear or reset is
already so. -/
theorem writeLoc_repeat {l : Loc} (hl : l ≠ .cmd) {v : Word} {s t : State} (hm : Memory.wf s.mem)
    (h : writeLoc l v s = .next t) : t.build = s.build ∧ t.reply = s.reply ∧ writeLoc l v t = .next t := by
  have buffer (a : Nat) : let u := s.setMem (Memory.storeWords s.mem a [v])
      u.setMem (Memory.storeWords u.mem a [v]) = u :=
    congrArg s.setMem (storeWords_repeat s.mem hm a [v])
  cases l with
  | cmd => exact absurd rfl hl
  | ctrl =>
    simp only [writeLoc] at h ⊢
    by_cases hv : v.getLsbD 1 = true
    · rw [if_pos hv] at h ⊢; cases h; exact ⟨rfl, rfl, rfl⟩
    · rw [if_neg hv] at h ⊢; cases h; exact ⟨rfl, rfl, rfl⟩
  | stg k => cases h; cases k <;> exact ⟨rfl, rfl, rfl⟩
  | inp p n => cases h; exact ⟨rfl, rfl, congrArg Host.Outcome.next (buffer (inAddr p n))⟩
  | out n => cases h; exact ⟨rfl, rfl, congrArg Host.Outcome.next (buffer (outAddr n))⟩
  | _ => cases h; exact ⟨rfl, rfl, rfl⟩

theorem locateControl_cases (b : Build) (a : Nat) :
    (a, locateControl b a) ∈ controlRegs ∨ (locateControl b a).readOnly = true := by
  unfold locateControl
  split
  · rename_i e he
    have ha : e.1 = a := by simpa using List.find?_some he
    exact .inl (ha ▸ List.mem_of_find?_eq_some he)
  · exact .inr (by split <;> rfl)

/-- The regions of MOD_IN, CAR_IN and OUT hold samples and reserved words. -/
theorem locate_sample_cases {b : Build} {addr : BitVec 20} (h : 0x04000 ≤ addr.toNat) (h' : addr.toNat < 0x07000) :
    (∃ p n, locate b addr = .inp p n) ∨ (∃ n, locate b addr = .out n) ∨ (locate b addr).readOnly = true := by
  by_cases hf : b.frames ≤ addr.toNat % 0x01000 / 4
  · rw [locate_sample_reserved h h' hf]; exact .inr (.inr rfl)
  unfold locate
  rcases (by omega : addr.toNat < 0x05000 ∨ (0x05000 ≤ addr.toNat ∧ addr.toNat < 0x06000) ∨ 0x06000 ≤ addr.toNat) with
    ha | ⟨ha, ha'⟩ | ha
  · simp (disch := omega) only [if_pos, if_neg]; exact .inl ⟨_, _, rfl⟩
  · simp (disch := omega) only [if_pos, if_neg]; exact .inl ⟨_, _, rfl⟩
  · simp (disch := omega) only [if_pos, if_neg]; exact .inr (.inl ⟨_, rfl⟩)

/-- An offset names a control register, an input or output sample, or a location whose writes are ignored. -/
theorem locate_cases (b : Build) (addr : BitVec 20) :
    (addr.toNat, locate b addr) ∈ controlRegs ∨ (∃ p n, locate b addr = .inp p n) ∨ (∃ n, locate b addr = .out n) ∨
      (locate b addr).readOnly = true := by
  have gap (h : (0x03000 ≤ addr.toNat ∧ addr.toNat < 0x04000) ∨ (0x07000 ≤ addr.toNat ∧ addr.toNat < 0x40000) ∨
      0xC0000 ≤ addr.toNat) : (locate b addr).readOnly = true := by rw [locate_gap h]; rfl
  rcases Nat.lt_or_ge addr.toNat 0x01000 with h1 | h1
  · rw [show locate b addr = locateControl b addr.toNat from if_pos h1]
    exact (locateControl_cases b addr.toNat).imp_right fun h => .inr (.inr h)
  right
  rcases Nat.lt_or_ge addr.toNat 0x02000 with h2 | h2
  · rw [locate_band .mod h1 h2]; exact .inr (.inr (locateBand_readOnly _ _ _))
  rcases Nat.lt_or_ge addr.toNat 0x03000 with h3 | h3
  · rw [locate_band .car h2 h3]; exact .inr (.inr (locateBand_readOnly _ _ _))
  rcases Nat.lt_or_ge addr.toNat 0x04000 with h4 | h4
  · exact .inr (.inr (gap (.inl ⟨h3, h4⟩)))
  rcases Nat.lt_or_ge addr.toNat 0x07000 with h5 | h5
  · exact locate_sample_cases h4 h5
  rcases Nat.lt_or_ge addr.toNat 0x40000 with h6 | h6
  · exact .inr (.inr (gap (.inr (.inl ⟨h5, h6⟩))))
  rcases Nat.lt_or_ge addr.toNat 0x80000 with h7 | h7
  · rw [locate_scratch .mod h6 h7]; exact .inr (.inr (locateScr_readOnly _ _ _))
  rcases Nat.lt_or_ge addr.toNat 0xC0000 with h8 | h8
  · rw [locate_scratch .car h7 h8]; exact .inr (.inr (locateScr_readOnly _ _ _))
  · exact .inr (.inr (gap (.inr (.inr h8))))

theorem locate_ne_cmd (b : Build) {addr : BitVec 20} (h : addr ≠ 0x010) : locate b addr ≠ .cmd := by
  intro hl
  rcases locate_cases b addr with hreg | ⟨p, n, hin⟩ | ⟨n, hout⟩ | hro
  · rw [hl] at hreg
    have : addr.toNat = 0x010 := by simpa [controlRegs] using hreg
    exact h (BitVec.eq_of_toNat_eq this)
  · cases hl.symm.trans hin
  · cases hl.symm.trans hout
  · rw [hl] at hro; cases hro

/-- Settles O52: of the exceptions that R107 names, only CMD is needed. -/
theorem registerAndBufferWritesIdempotent : Obligations.RegisterAndBufferWritesIdempotent := by
  intro s t addr v ⟨_, _, ⟨hwf, _⟩, _⟩ ha _ hcmd _ ht
  rw [serve, busWrite_aligned ha] at ht ⊢
  obtain ⟨hb, hreply, hagain⟩ := writeLoc_repeat (s := { s with reply := .ack }) (locate_ne_cmd s.build hcmd) hwf ht
  have hack : { t with reply := .ack } = t := by rw [← show t.reply = .ack from hreply]
  rw [hack, hb, hagain]

/-! ### The platform's view -/

/-- The index is an open constant, which a proof names by a variable: the kernel would evaluate a closed product. -/
theorem base_multiple : ∃ n, Config.base = n * 2 ^ 20 := ⟨Config.baseIndex, rfl⟩

theorem base_aligned : Config.base % 2 ^ 20 = 0 := by
  obtain ⟨n, hn⟩ := base_multiple
  rw [hn, Nat.mul_mod_left]

theorem offsetOf_effectiveAddress (addr : BitVec 20) : offsetOf (effectiveAddress addr) = some addr := by
  have hlt := addr.isLt
  rw [offsetOf, effectiveAddress, if_pos (by omega), Nat.add_sub_cancel_left, BitVec.ofNat_toNat, BitVec.setWidth_eq]

/-- The mask of a byte's offset clears its lane. -/
theorem ofNat_and_lane_mask (k : Nat) {j : Nat} (hj : j < 4) :
    BitVec.ofNat 20 (4 * k + j) &&& 0xFFFFC = BitVec.ofNat 20 (4 * k) := by
  have mask : ∀ i < 20, (0xFFFFC : BitVec 20).getLsbD i = decide (2 ≤ i) := by decide
  refine BitVec.eq_of_getLsbD_eq fun i hi => ?_
  have hbyte : (4 * k + j).testBit i = if i < 2 then j.testBit i else k.testBit (i - 2) :=
    Nat.testBit_two_pow_mul_add (i := 2) k hj i
  have hword : (4 * k).testBit i = (decide (2 ≤ i) && k.testBit (i - 2)) := Nat.testBit_two_pow_mul (i := 2)
  simp only [BitVec.getLsbD_and, mask i hi, BitVec.getLsbD_ofNat, hi, decide_true, Bool.true_and]
  rw [hbyte, hword]
  rcases Nat.lt_or_ge i 2 with h2 | h2
  · simp [Nat.not_le.2 h2]
  · simp [h2, Nat.not_lt.2 h2]

/-- Settles O55: `4 * k` is the word around a byte's offset and `j` its lane. -/
theorem platformViewIsLittleEndian : Obligations.PlatformViewIsLittleEndian := by
  refine ⟨base_aligned, fun addr => ⟨rfl, offsetOf_effectiveAddress addr⟩, fun s k j hk hj => ?_⟩
  have hlane : (BitVec.ofNat 20 (4 * k + j)).toNat % 4 = j := by rw [BitVec.toNat_ofNat]; omega
  rw [windowByte, ofNat_and_lane_mask k hj, hlane]

end Sys2Proof.Machine
end

section
/-! PROOFS of the statements of 30_encoding.md on words (O1 to O3, O5): a word is its four fields, the decoder reads an opcode from
exactly the words whose fields fit it, and an encoding has the fields of its command. -/

namespace Sys2Proof

/-! ### A word is its four fields -/

/-- The word with these fields (30_encoding.md R131). -/
def ofFields (rsv : BitVec 16) (band : BitVec 8) (path : BitVec 2) (op : BitVec 6) : Word := rsv ++ band ++ path ++ op

section
variable (rsv : BitVec 16) (band : BitVec 8) (path : BitVec 2) (op : BitVec 6)

@[simp] theorem opField_ofFields : opField (ofFields rsv band path op) = op :=
  BitVec.extractLsb'_append_eq_right (a := rsv ++ band ++ path)

@[simp] theorem pathField_ofFields : pathField (ofFields rsv band path op) = path :=
  (BitVec.extractLsb'_append_eq_of_le (xhi := rsv ++ band ++ path) (by decide)).trans
    (BitVec.extractLsb'_append_eq_right (a := rsv ++ band))

@[simp] theorem bandField_ofFields : bandField (ofFields rsv band path op) = band :=
  ((BitVec.extractLsb'_append_eq_of_le (xhi := rsv ++ band ++ path) (by decide)).trans
    (BitVec.extractLsb'_append_eq_of_le (xhi := rsv ++ band) (by decide))).trans
    (BitVec.extractLsb'_append_eq_right (a := rsv))

@[simp] theorem rsvField_ofFields : rsvField (ofFields rsv band path op) = rsv :=
  ((BitVec.extractLsb'_append_eq_of_le (xhi := rsv ++ band ++ path) (by decide)).trans
    (BitVec.extractLsb'_append_eq_of_le (xhi := rsv ++ band) (by decide))).trans
    (BitVec.extractLsb'_append_eq_left (b := band))

theorem ofFields_toNat :
    (ofFields rsv band path op).toNat = 65536 * rsv.toNat + 256 * band.toNat + 64 * path.toNat + op.toNat := by
  have outer := Machine.append_toNat (rsv ++ band ++ path) op
  have inner := Machine.append_toNat (rsv ++ band) path
  have high := Machine.append_toNat rsv band
  rw [ofFields, outer, inner, high]
  omega

end

theorem ofFields_inj {rsv rsv' : BitVec 16} {band band' : BitVec 8} {path path' : BitVec 2} {op op' : BitVec 6} :
    ofFields rsv band path op = ofFields rsv' band' path' op' ↔ rsv = rsv' ∧ band = band' ∧ path = path' ∧ op = op' := by
  refine ⟨fun h => ⟨?_, ?_, ?_, ?_⟩, fun ⟨hr, hb, hp, ho⟩ => by rw [hr, hb, hp, ho]⟩
  · simpa using congrArg rsvField h
  · simpa using congrArg bandField h
  · simpa using congrArg pathField h
  · simpa using congrArg opField h

theorem opField_toNat (w : Word) : (opField w).toNat = w.toNat % 64 := by
  simp [opField]

theorem pathField_toNat (w : Word) : (pathField w).toNat = w.toNat / 64 % 4 := by
  simp [pathField, Nat.shiftRight_eq_div_pow]

theorem bandField_toNat (w : Word) : (bandField w).toNat = w.toNat / 256 % 256 := by
  simp [bandField, Nat.shiftRight_eq_div_pow]

theorem rsvField_toNat (w : Word) : (rsvField w).toNat = w.toNat / 65536 := by
  have hlt := w.isLt
  simp [rsvField, Nat.shiftRight_eq_div_pow]
  omega

@[simp] theorem ofFields_fields (w : Word) : ofFields (rsvField w) (bandField w) (pathField w) (opField w) = w := by
  apply BitVec.eq_of_toNat_eq
  rw [ofFields_toNat, rsvField_toNat, bandField_toNat, pathField_toNat, opField_toNat]
  omega

/-- Masking a word masks each of its fields. -/
theorem and_ofFields (w : Word) (rsv : BitVec 16) (band : BitVec 8) (path : BitVec 2) (op : BitVec 6) :
    w &&& ofFields rsv band path op =
      ofFields (rsvField w &&& rsv) (bandField w &&& band) (pathField w &&& path) (opField w &&& op) := by
  have fieldwise : (rsvField w ++ bandField w ++ pathField w ++ opField w) &&& (rsv ++ band ++ path ++ op) =
      (rsvField w &&& rsv) ++ (bandField w &&& band) ++ (pathField w &&& path) ++ (opField w &&& op) := by
    simp only [BitVec.and_append]
  conv_lhs => rw [← ofFields_fields w]
  exact fieldwise

/-! ### The values of a field -/

theorem decodeOp_code (op : Op) : decodeOp op.code = some op := by
  cases op <;> rfl

theorem decodeOp_eq_none {c : BitVec 6} (h : 11 ≤ c.toNat) : decodeOp c = none := by
  revert c; decide

theorem exists_op_of_lt {c : BitVec 6} (h : c.toNat < 11) : ∃ op : Op, c = op.code := by
  have listed : ∀ c : BitVec 6, c.toNat < 11 → ∃ op ∈ allOps, c = op.code := by decide
  obtain ⟨op, -, hop⟩ := listed c h
  exact ⟨op, hop⟩

theorem Op.code_injective {op op' : Op} (h : op.code = op'.code) : op = op' :=
  Option.some.inj <| by rw [← decodeOp_code, h, decodeOp_code]

theorem decodePath_code (path : PathSel) : decodePath path.code = some path := by
  cases path <;> rfl

theorem exists_path_of_ne {v : BitVec 2} (h : v ≠ 3) : ∃ path : PathSel, v = path.code := by
  have listed : ∀ v : BitVec 2, v ≠ 3 → ∃ path ∈ [PathSel.mod, .car, .both], v = path.code := by decide
  obtain ⟨path, -, hpath⟩ := listed v h
  exact ⟨path, hpath⟩

theorem PathSel.code_ne_three (path : PathSel) : path.code ≠ 3 := by
  cases path <;> decide

/-! ### The command of an opcode -/

@[simp] theorem Op.instr_op (op : Op) (path : PathSel) (band : BitVec 8) : (op.instr path band).op = op := by
  cases op <;> rfl

@[simp] theorem Op.instr_pathCode (op : Op) (path : PathSel) (band : BitVec 8) :
    (op.instr path band).pathCode = if op.takesPath then path.code else 0 := by
  cases op <;> rfl

@[simp] theorem Op.instr_bandCode (op : Op) (path : PathSel) (band : BitVec 8) :
    (op.instr path band).bandCode = if op.takesBand then band else 0 := by
  cases op <;> rfl

/-- Every command is the one of its opcode and fields. -/
theorem Instr.exists_path (i : Instr) : ∃ path : PathSel, i.pathCode = path.code ∧ i = i.op.instr path i.bandCode := by
  cases i with
  | nop => exact ⟨.mod, rfl, rfl⟩
  | setBandpass path band => exact ⟨path, rfl, rfl⟩
  | writeCoef path band => exact ⟨path, rfl, rfl⟩
  | filter path band => exact ⟨path, rfl, rfl⟩
  | buildBank path => exact ⟨path, rfl, rfl⟩
  | envelope band => exact ⟨.mod, rfl, rfl⟩
  | modulate band => exact ⟨.mod, rfl, rfl⟩
  | mix => exact ⟨.mod, rfl, rfl⟩
  | makeup => exact ⟨.mod, rfl, rfl⟩
  | generate => exact ⟨.mod, rfl, rfl⟩
  | clearOut => exact ⟨.mod, rfl, rfl⟩

theorem Instr.pathCode_eq_zero {i : Instr} (h : i.op.takesPath = false) : i.pathCode = 0 := by
  obtain ⟨path, -, hi⟩ := i.exists_path
  rw [hi, Op.instr_pathCode, h]
  rfl

theorem Instr.bandCode_eq_zero {i : Instr} (h : i.op.takesBand = false) : i.bandCode = 0 := by
  obtain ⟨path, -, hi⟩ := i.exists_path
  rw [hi, Op.instr_bandCode, h]
  rfl

/-! ### What the decoder reads -/

/-- The fields of the word are those of a command of this opcode: PATH is not the reserved 3, and a field that the command does
not take is 0 (30_encoding.md R133, R135). -/
structure Op.Fits (op : Op) (w : Word) : Prop where
  opcode : opField w = op.code
  rsv : rsvField w = 0
  path_ne_three : pathField w ≠ 3
  path_zero : op.takesPath = false → pathField w = 0
  band_zero : op.takesBand = false → bandField w = 0

theorem decode_illegal {w : Word} (h : 11 ≤ (opField w).toNat) : decode w = .error .illegalOp := by
  rw [decode, decodeOp_eq_none h]

/-- A word whose fields fit its opcode decodes to that command. -/
theorem decode_of_fits {op : Op} {w : Word} {path : PathSel} (h : op.Fits w) (hpath : pathField w = path.code) :
    decode w = .ok (op.instr path (bandField w)) := by
  obtain ⟨hop, hrsv, -, hpath0, hband0⟩ := h
  rw [decode, hop, decodeOp_code]
  dsimp only
  rw [if_neg (not_not_intro hrsv), if_neg (fun h => h.2 (hpath0 h.1)), hpath, decodePath_code]
  dsimp only
  rw [if_neg (fun h => h.2 (hband0 h.1))]

/-- A word with a legal opcode whose fields do not fit it is reserved. -/
theorem decode_reserved {op : Op} {w : Word} (hop : opField w = op.code) (h : ¬ op.Fits w) :
    decode w = .error .reservedField := by
  rw [decode, hop, decodeOp_code]
  dsimp only
  split_ifs with hrsv hpath hband
  · rfl
  · rfl
  · cases decodePath (pathField w) <;> rfl
  · have hthree : pathField w = 3 := by_contra fun hne =>
      h ⟨hop, not_not.1 hrsv, hne, fun ht => by_contra fun h0 => hpath ⟨ht, h0⟩, fun ht => by_contra fun h0 => hband ⟨ht, h0⟩⟩
    rw [hthree]
    rfl

/-- What a word that decodes has in its fields, and its command. -/
theorem exists_fits_of_decode {w : Word} {i : Instr} (h : decode w = .ok i) :
    ∃ (op : Op) (path : PathSel), op.Fits w ∧ pathField w = path.code ∧ i = op.instr path (bandField w) := by
  rcases Nat.lt_or_ge (opField w).toNat 11 with hlt | hge
  · obtain ⟨op, hop⟩ := exists_op_of_lt hlt
    by_cases hfits : op.Fits w
    · obtain ⟨path, hpath⟩ := exists_path_of_ne hfits.path_ne_three
      rw [decode_of_fits hfits hpath] at h
      exact ⟨op, path, hfits, hpath, (Except.ok.inj h).symm⟩
    · rw [decode_reserved hop hfits] at h
      cases h
  · rw [decode_illegal hge] at h
    cases h

/-- The decoder reads an opcode from exactly the words whose fields fit it. -/
theorem decodes_to_op_iff (op : Op) (w : Word) : (∃ i, decode w = .ok i ∧ i.op = op) ↔ op.Fits w := by
  constructor
  · rintro ⟨i, hi, rfl⟩
    obtain ⟨op, path, hfits, -, rfl⟩ := exists_fits_of_decode hi
    rwa [Op.instr_op]
  · intro hfits
    obtain ⟨path, hpath⟩ := exists_path_of_ne hfits.path_ne_three
    exact ⟨_, decode_of_fits hfits hpath, Op.instr_op ..⟩

/-! ### The round trip -/

theorem encode_eq (i : Instr) : encode i = ofFields 0 i.bandCode i.pathCode i.op.code := rfl

theorem fits_encode (i : Instr) : i.op.Fits (encode i) where
  opcode := opField_ofFields ..
  rsv := rsvField_ofFields ..
  path_ne_three := by
    obtain ⟨path, hpath, -⟩ := i.exists_path
    rw [encode_eq, pathField_ofFields, hpath]
    exact path.code_ne_three
  path_zero h := (pathField_ofFields ..).trans (Instr.pathCode_eq_zero h)
  band_zero h := (bandField_ofFields ..).trans (Instr.bandCode_eq_zero h)

/-- Settles O2: an encoding fits the opcode of its command and has its fields. -/
theorem decodeInvertsEncode : Obligations.DecodeInvertsEncode := by
  intro i
  obtain ⟨path, hpath, hi⟩ := i.exists_path
  have hread : pathField (encode i) = path.code := (pathField_ofFields ..).trans hpath
  rw [decode_of_fits (fits_encode i) hread, encode_eq, bandField_ofFields, ← hi]

/-- Settles O3: the command has the fields of the word, those it does not take being 0 in both. -/
theorem encodeInvertsDecode : Obligations.EncodeInvertsDecode := by
  intro w i hi
  obtain ⟨op, path, hfits, hpath, rfl⟩ := exists_fits_of_decode hi
  rw [encode_eq, ← ofFields_fields w, ofFields_inj, Op.instr_bandCode, Op.instr_pathCode, Op.instr_op, ofFields_fields]
  refine ⟨hfits.rsv.symm, ?_, ?_, hfits.opcode.symm⟩
  · split
    case isTrue => rfl
    case isFalse h => exact (hfits.band_zero (Bool.eq_false_of_not_eq_true h)).symm
  · split
    case isTrue => exact hpath.symm
    case isFalse h => exact (hfits.path_zero (Bool.eq_false_of_not_eq_true h)).symm

/-- Settles O1: the decoder evaluates on each word. -/
theorem specWordsDecode : Obligations.SpecWordsDecode := by
  unfold Obligations.SpecWordsDecode
  decide

/-! ### The match and mask table -/

/-- Each row fixes RSV, OP and the fields that its command does not take. -/
theorem opcodeTable_rows : ∀ r ∈ opcodeTable,
    r.mask = ofFields (BitVec.allOnes 16) (if r.op.takesBand then 0 else BitVec.allOnes 8)
      (if r.op.takesPath then 0 else BitVec.allOnes 2) (BitVec.allOnes 6) ∧
    r.pattern = ofFields 0 0 0 r.op.code := by decide

theorem and_ite_allOnes_eq_zero {n : Nat} (x : BitVec n) (c : Bool) :
    x &&& (if c then 0 else BitVec.allOnes n) = 0 ↔ (c = false → x = 0) := by
  cases c <;> simp

/-- Settles O5: a row leaves open exactly the fields its command takes, so with PATH = 3 apart it selects the words that fit its
opcode. -/
theorem opcodeMapSelectsCommand : Obligations.OpcodeMapSelectsCommand := by
  intro r hr w
  obtain ⟨hmask, hpattern⟩ := opcodeTable_rows r hr
  rw [decodes_to_op_iff, hmask, hpattern, and_ofFields, ofFields_inj, and_ite_allOnes_eq_zero, and_ite_allOnes_eq_zero,
    BitVec.and_allOnes, BitVec.and_allOnes, ← pathField_toNat]
  constructor
  · rintro ⟨⟨hrsv, hband, hpath, hop⟩, hthree⟩
    refine ⟨hop, hrsv, fun h => ?_, hpath, hband⟩
    cases htakes : r.op.takesPath with
    | false => rw [hpath htakes] at h; cases h
    | true => exact hthree htakes (by rw [h]; rfl)
  · intro hfits
    exact ⟨⟨hfits.rsv, hfits.band_zero, hfits.path_zero, hfits.opcode⟩, fun _ h =>
      hfits.path_ne_three (BitVec.eq_of_toNat_eq h)⟩

end Sys2Proof
end

section
/-! PROOFS of the statements of 30_encoding.md on what a word does (O4, O6, O7, O18): executing it by what the decoder answers, and
assembling a command line. -/

namespace Sys2Proof.Machine

/-! ### Executing a word by what the decoder answers -/

theorem execute_ok {w : Word} {i : Instr} (h : decode w = .ok i) (s : State) : execute w s = exec i s := by
  rw [execute, h]

theorem execute_illegalOp {w : Word} (h : decode w = .error .illegalOp) (s : State) :
    execute w s = .next (capture .illegalOp s.cmd 0 s) := by
  rw [execute, h]; rfl

theorem execute_reservedField {w : Word} (h : decode w = .error .reservedField) (s : State) :
    execute w s = .next (capture .reservedField s.cmd 0 s) := by
  rw [execute, h]; rfl

theorem takesPath_iff (op : Op) : op.takesPath = true ↔
    op.code.toNat = 1 ∨ op.code.toNat = 2 ∨ op.code.toNat = 3 ∨ op.code.toNat = 4 := by
  cases op <;> decide

theorem takesBand_iff (op : Op) : op.takesBand = true ↔
    op.code.toNat = 1 ∨ op.code.toNat = 2 ∨ op.code.toNat = 3 ∨ op.code.toNat = 5 ∨ op.code.toNat = 6 := by
  cases op <;> decide

/-- `Op.Fits` on the word as a number. -/
theorem fits_iff_toNat {op : Op} {w : Word} (hop : opField w = op.code) : op.Fits w ↔
    ¬ (w.toNat / 65536 ≠ 0 ∨ w.toNat / 64 % 4 = 3 ∨ (¬ op.takesPath = true ∧ w.toNat / 64 % 4 ≠ 0) ∨
      (¬ op.takesBand = true ∧ w.toNat / 256 % 256 ≠ 0)) := by
  rw [← rsvField_toNat, ← pathField_toNat, ← bandField_toNat]
  constructor
  · rintro ⟨-, hrsv, hthree, hpath, hband⟩ (h | h | ⟨ht, h⟩ | ⟨ht, h⟩)
    · exact h (congrArg BitVec.toNat hrsv)
    · exact hthree (BitVec.eq_of_toNat_eq h)
    · exact h (congrArg BitVec.toNat (hpath (Bool.eq_false_of_not_eq_true ht)))
    · exact h (congrArg BitVec.toNat (hband (Bool.eq_false_of_not_eq_true ht)))
  · intro h
    obtain ⟨hrsv, hthree, hpath, hband⟩ : _ ∧ _ ∧ _ ∧ _ := by simpa only [not_or, not_and, not_not] using h
    exact ⟨hop, BitVec.eq_of_toNat_eq hrsv, fun h3 => hthree (congrArg BitVec.toNat h3),
      fun ht => BitVec.eq_of_toNat_eq (hpath (by simp [ht])), fun ht => BitVec.eq_of_toNat_eq (hband (by simp [ht]))⟩

/-- Settles O4: the reserved words of an opcode are those that do not fit it. -/
theorem decodeChecksRaise : Obligations.DecodeChecksRaise := by
  intro w s op path band rsv takesPath takesBand reserved
  have hread : (opField w).toNat = op := opField_toNat w
  have fits : op < 0x0B → ∃ o : Op, opField w = o.code ∧ (o.Fits w ↔ ¬ reserved) := by
    intro hlt
    obtain ⟨o, ho⟩ := exists_op_of_lt (hread.trans_lt hlt)
    refine ⟨o, ho, ?_⟩
    rw [fits_iff_toNat ho, takesPath_iff, takesBand_iff, ← ho, hread]
  refine ⟨fun hge => ?_, fun hlt hres => ?_, fun hlt hres => ?_⟩
  · exact execute_illegalOp (decode_illegal (hge.trans_eq hread.symm)) s
  · obtain ⟨o, ho, hfits⟩ := fits hlt
    exact execute_reservedField (decode_reserved ho fun h => hfits.1 h hres) s
  · obtain ⟨o, -, hfits⟩ := fits hlt
    obtain ⟨i, hi, -⟩ := (decodes_to_op_iff o w).2 (hfits.2 hres)
    exact ⟨i, hi, execute_ok hi s⟩

/-- Settles O7: the step serves the write, which executes the word with CMD holding it. -/
theorem stepRunsDecodedCommand : Obligations.StepRunsDecodedCommand := by
  intro s w i rest hport hi
  rw [(stepServesOldestEvent s).2 _ _ hport, serve_cmd, execute_ok hi]

/-- Every command that takes BAND starts with the check of its band. -/
theorem exec_band_out_of_range {b : BitVec 8} {s : State} (hb : s.build.n ≤ b.toNat) (p : PathSel) :
    ∀ i ∈ [.setBandpass p b, .writeCoef p b, .filter p b, .envelope b, .modulate b],
      exec i s = raise .bandRange (b.setWidth 32) s := by
  simp [exec, execSetBandpass, execWriteCoef, execFilter, execEnvelope, execModulate, withBand_bad hb]

/-- Settles O18: the check of the band comes first in each of the five commands. -/
theorem bandOutOfRangeRaises : Obligations.BandOutOfRangeRaises := by
  intro p b s hb
  rw [BitVec.ofNat_toNat]
  have hexec := exec_band_out_of_range hb p
  refine ⟨hexec _ (by simp), hexec _ (by simp), hexec _ (by simp), hexec _ (by simp), hexec _ (by simp), ?_⟩
  intro w i hi hmem
  rw [execute_ok hi, hexec i hmem]
  rfl

/-! ### Assembling a command line -/

theorem takesPath_iff_mem (op : Op) : op.takesPath = true ↔ op ∈ [.setBandpass, .writeCoef, .filter, .buildBank] := by
  cases op <;> decide

theorem takesBand_iff_mem (op : Op) :
    op.takesBand = true ↔ op ∈ [.setBandpass, .writeCoef, .filter, .envelope, .modulate] := by
  cases op <;> decide

theorem instr_wf (op : Op) (path : PathSel) (band : BitVec 8) (n : Nat) :
    (op.instr path band).wf n = (!op.takesBand || bandExists n band) := by
  cases op <;> rfl

theorem encode_toNat (i : Instr) :
    (encode i).toNat = i.op.code.toNat + 64 * i.pathCode.toNat + 256 * i.bandCode.toNat := by
  rw [encode_eq, ofFields_toNat, show (0 : BitVec 16).toNat = 0 from rfl]
  omega

theorem eq_isSome_iff {α : Type} (b : Bool) (o : Option α) : b = o.isSome ↔ ((∃ x, o = some x) ↔ b = true) := by
  rw [Bool.eq_iff_iff, ← Option.isSome_iff_exists]
  exact Iff.comm

/-- The command of a line. -/
def lineInstr (op : Op) (path : Option PathSel) (band : Option Nat) : Instr :=
  op.instr (path.getD .mod) (BitVec.ofNat 8 (band.getD 0))

/-- The lines that the assembler accepts, and their words. -/
theorem assembleCommand_eq_some_iff (n : Nat) (op : Op) (path : Option PathSel) (band : Option Nat) (w : Word) :
    assembleCommand n op path band = some w ↔
      op.takesPath = path.isSome ∧ op.takesBand = band.isSome ∧ (∀ k, band = some k → k < n) ∧
        encode (lineInstr op path band) = w := by
  have hrange : band.any (fun k => decide (n ≤ k)) = true ↔ ¬ ∀ k, band = some k → k < n := by
    cases band <;> simp
  rw [assembleCommand]
  split_ifs with hpath hband hbad
  · simp [hpath]
  · simp [hband]
  · simp [hrange.1 hbad]
  · rw [Option.some.injEq, and_iff_right (not_not.1 hpath), and_iff_right (not_not.1 hband),
      and_iff_right (not_not.1 (hrange.not.1 hbad)), lineInstr]

section
variable {n : Nat} {op : Op} {path : Option PathSel} {band : Option Nat}

theorem lineInstr_pathCode (h : op.takesPath = path.isSome) :
    (lineInstr op path band).pathCode = (path.map PathSel.code).getD 0 := by
  rw [lineInstr, Op.instr_pathCode, h]
  cases path <;> rfl

theorem lineInstr_bandCode (h : op.takesBand = band.isSome) (hlt : ∀ k, band = some k → k < 256) :
    (lineInstr op path band).bandCode.toNat = band.getD 0 := by
  rw [lineInstr, Op.instr_bandCode, h]
  cases band with
  | none => rfl
  | some k => exact Nat.mod_eq_of_lt (hlt k rfl)

theorem lineInstr_wf (h : op.takesBand = band.isSome) (hlt : ∀ k, band = some k → k < 256)
    (hn : ∀ k, band = some k → k < n) : (lineInstr op path band).wf n = true := by
  rw [lineInstr, instr_wf, h]
  cases band with
  | none => rfl
  | some k =>
    have hk : (BitVec.ofNat 8 k).toNat = k := Nat.mod_eq_of_lt (hlt k rfl)
    exact decide_eq_true (hk.trans_lt (hn k rfl))

end

/-- Settles O6: the word is the encoding of the command of the line, which decodes to it. -/
theorem assembledCommandDecodes : Obligations.AssembledCommandDecodes := by
  intro n op path band takesPath takesBand pathBits
  refine ⟨?_, fun hn w hw => ?_⟩
  · simp only [assembleCommand_eq_some_iff, exists_and_left, exists_eq', and_true, eq_isSome_iff, takesPath_iff_mem,
      takesBand_iff_mem, takesPath, takesBand]
  · obtain ⟨hpath, hband, hlt, rfl⟩ := (assembleCommand_eq_some_iff ..).1 hw
    have hbyte : ∀ k, band = some k → k < 256 := fun k hk => by have := hlt k hk; omega
    have hpathCode := lineInstr_pathCode (band := band) hpath
    have hbandCode := lineInstr_bandCode (path := path) hband hbyte
    have hbits : ((path.map PathSel.code).getD 0).toNat = pathBits := by
      rcases path with _ | _ | _ | _ <;> rfl
    refine ⟨?_, lineInstr op path band, decodeInvertsEncode _, Op.instr_op .., lineInstr_wf hband hbyte hlt, ?_, ?_⟩
    · rw [encode_toNat, hpathCode, hbandCode, hbits, lineInstr, Op.instr_op]
    · rintro p rfl
      exact hpathCode
    · rintro k rfl
      exact hbandCode

end Sys2Proof.Machine
end

section
/-! PROOFS of the statements of 40_biquad.md on errors (O19 to O22): the first check of a command that fails decides what it raises,
so each proof lets the checks before it pass. -/

namespace Sys2Proof.Machine

/-! ### Locks and missing configurations -/

/-- Settles O19: the lock is the first check of every configuration command after its band. -/
theorem configuredTargetIsLocked : Obligations.ConfiguredTargetIsLocked := by
  intro p s ts before after q i hts hbefore hconf raised
  have hlock (run : Host.Outcome State Fault Refusal) : ifUnlocked ts s run = raised := hts ▸ ifUnlocked_first hbefore hconf
  refine ⟨fun b hb ht => ?_, fun ht => ?_⟩
  · subst ht
    exact ⟨by rw [exec, execSetBandpass, withBand_ok hb, hlock], by rw [exec, execWriteCoef, withBand_ok hb, hlock]⟩
  · rw [ht] at hlock
    exact hlock _

/-- Settles O21: the configuration is the first check of FILTER after its band, and the only one of GENERATE. -/
theorem unconfiguredTargetRaises : Obligations.UnconfiguredTargetRaises := by
  intro p s ts before after q i hts hbefore hconf raised
  have hcheck (run : Host.Outcome State Fault Refusal) : ifConfigured ts s run = raised :=
    hts ▸ ifConfigured_first hbefore hconf
  refine ⟨fun b hb ht => ?_, fun ht => ?_⟩
  · subst ht
    rw [exec, execFilter, withBand_ok hb, hcheck]
  · rw [ht] at hcheck
    exact hcheck _

/-! ### Invalid arguments -/

theorem bandpassValid_no_nan {fc q fs : Word} (h : bandpassValid fc q fs = true) :
    isNaN fc = false ∧ isNaN q = false ∧ isNaN fs = false := by
  obtain ⟨hfs, -, hfc, -, hq, -⟩ := (bandpassValid_iff fc q fs).1 h
  exact ⟨(flt_not_nan hfc).2, (finite_kind hq).1, (finite_kind hfs).1⟩

theorem rangeValid_no_nan {low high fs : Word} (h : rangeValid low high fs = true) :
    isNaN low = false ∧ isNaN high = false ∧ isNaN fs = false := by
  obtain ⟨hlow, hhigh, hfs, -⟩ := (rangeValid_iff low high fs).1 h
  exact ⟨(finite_kind hlow).1, (finite_kind hhigh).1, (finite_kind hfs).1⟩

theorem exec_setBandpass_invalid {p : PathSel} {b : BitVec 8} {s : State} (hb : b.toNat < s.build.n)
    (hu : s.Unconfigured (targets p b.toNat)) (hv : ¬ bandpassValid s.arg0 s.arg1 s.fs = true) :
    exec (.setBandpass p b) s = raise .cfgRange argInfo s := by
  rw [exec, execSetBandpass, withBand_ok hb, ifUnlocked_ok hu, if_neg hv]

theorem exec_buildBank_invalidRange {p : PathSel} {s : State} (hu : s.Unconfigured (bankTargets p s.build.n))
    (hv : ¬ rangeValid s.arg0 s.arg1 s.fs = true) : exec (.buildBank p) s = raise .cfgRange argInfo s := by
  rw [exec, execBuildBank, ifUnlocked_ok hu, if_neg hv]

/-- The lowest index below `n` that fails a check is the one a search finds. -/
theorem find_range_first {check : Nat → Bool} {n i : Nat} (hi : i < n) (hlow : ∀ k < i, check k = true)
    (hfail : ¬ check i = true) : (List.range n).find? (fun k => !check k) = some i := by
  simpa [hi, hfail] using hlow

theorem exec_buildBank_invalidBand {p : PathSel} {s : State} {i : Nat} (hi : i < s.build.n)
    (hu : s.Unconfigured (bankTargets p s.build.n)) (hv : rangeValid s.arg0 s.arg1 s.fs = true)
    (hlow : ∀ k < i, bankBandValid s.build s.arg0 s.arg1 s.fs k = true)
    (hfail : ¬ bankBandValid s.build s.arg0 s.arg1 s.fs i = true) :
    exec (.buildBank p) s = raise .cfgRange (BitVec.ofNat 32 i) s := by
  rw [exec, execBuildBank, ifUnlocked_ok hu, if_pos hv, find_range_first hi hlow hfail]

/-- Settles O20: the listed conditions are `bandpassValid` and `rangeValid`, and those of a band of the bank `bankBandValid`. -/
theorem invalidArgumentsRaise : Obligations.InvalidArgumentsRaise := by
  unfold Obligations.InvalidArgumentsRaise
  intro bandpassOk rangeOk
  have hbandpass (fc q fs : Word) : bandpassOk fc q fs ↔ bandpassValid fc q fs = true := (bandpassValid_iff fc q fs).symm
  have hrange (low high fs : Word) : rangeOk low high fs ↔ rangeValid low high fs = true := (rangeValid_iff low high fs).symm
  refine ⟨fun x y z hnan => ?_, ?_⟩
  · rw [hbandpass, hrange]
    refine ⟨fun h => ?_, fun h => ?_⟩
    · simp [bandpassValid_no_nan h] at hnan
    · simp [rangeValid_no_nan h] at hnan
  · intro p s step edge fc argsOk
    have hargs (k : Nat) : argsOk k ↔ bankBandValid s.build s.arg0 s.arg1 s.fs k = true := hbandpass _ _ _
    rw [hbandpass, hrange]
    refine ⟨fun b hb hu hv => exec_setBandpass_invalid hb hu hv, exec_buildBank_invalidRange, fun i hi hu hv hlow hfail => ?_⟩
    exact exec_buildBank_invalidBand hi hu hv (fun k hk => (hargs k).1 (hlow k hk)) (mt (hargs i).2 hfail)

/-! ### Invalid windows -/

/-- (OFF << 16) | LEN as a number: LEN has fewer than 16 bits. -/
theorem windowInfo_eq (s : State) : windowInfo s = BitVec.ofNat 32 (s.blkOff.toNat * 65536 + s.blkLen.toNat) := by
  apply BitVec.eq_of_toNat_eq
  have hoff := s.blkOff.isLt
  have hlen := s.blkLen.isLt
  rw [windowInfo, append_toNat, BitVec.toNat_setWidth, BitVec.toNat_setWidth, BitVec.toNat_ofNat]
  omega

theorem windowOk_iff (s : State) :
    windowOk s = true ↔ 2 ≤ s.blkLen.toNat ∧ s.blkOff.toNat + s.blkLen.toNat ≤ s.build.frames := by
  simp [windowOk]

/-- Settles O22: the window is checked last. -/
theorem badWindowRaises : Obligations.BadWindowRaises := by
  intro p b s hb hc hw
  rw [← windowInfo_eq, exec, execFilter, withBand_ok hb, ifConfigured_ok hc, if_neg (by rw [windowOk_iff]; omega)]
  rfl

end Sys2Proof.Machine
end

section
/-! PROOFS of the statements of 40_biquad.md on configuring a band (O24 to O26). SET_BANDPASS and WRITE_COEF differ only in the
coefficients, so one lemma says what both leave. -/

namespace Sys2Proof.Machine

/-- Configuring bands that exist gives each its coefficients and its configured bit, and changes nothing else. -/
theorem configureAll_targets (p : PathSel) (i : Nat) (c : Coef) (s : State) (hs : s.SizesOk) (hi : i < s.build.n) :
    let t := configureAll (targets p i) (fun _ => c) s
    (∀ q ∈ pathsOf p, t.band q i = { coef := c, st := (s.band q i).st, conf := true }) ∧
      (∀ u, u ∉ targets p i → t.band u.1 u.2 = s.band u.1 u.2) ∧
      { t with modBands := s.modBands, carBands := s.carBands } = s :=
  ⟨fun q hq => configureAll_band_target (fun _ => c) q i _ s hs hi (mem_targets.2 ⟨hq, rfl⟩),
    fun u hu => configureAll_band_other (fun _ => c) u.1 u.2 _ s hu, eq_of_noBands (noBands_configureAll _ _ s)⟩

/-- Settles O24: the listed conditions are `bandpassValid`. -/
theorem setBandpassConfigures : Obligations.SetBandpassConfigures := by
  intro p b s hs hb hu hfs hfspos hfc hfclt hq hqpos
  have hvalid := (bandpassValid_iff s.arg0 s.arg1 s.fs).2 ⟨hfs, hfspos, hfc, hfclt, hq, hqpos⟩
  exact ⟨_, exec_of_ready (i := .setBandpass p b) ⟨hb, hu, hvalid⟩, configureAll_targets p b.toNat _ s hs hb⟩

/-- Settles O25: the operations by definition, and a2 by the two cases of fneg. -/
theorem bandpassComputesItsOperations : Obligations.BandpassComputesItsOperations := by
  rintro b fc q fs w0 wq w2 norm rfl rfl rfl rfl
  exact ⟨rfl, rfl, rfl, rfl, rfl, fneg_of_number, fneg_of_nan⟩

/-- Settles O26: the values of the staging registers are not checked. -/
theorem writeCoefCopiesStaging : Obligations.WriteCoefCopiesStaging := by
  intro p b s hs hb hu
  exact ⟨_, exec_of_ready (i := .writeCoef p b) ⟨hb, hu⟩, configureAll_targets p b.toNat s.stg s hs hb⟩

end Sys2Proof.Machine
end

section
/-! PROOFS of the statements of 40_biquad.md on FILTER (O28 to O30): the recurrence over a window, the zero state, and a window in two
parts. -/

namespace Sys2Proof.Machine

/-! ### The recurrence over a window -/

theorem delayed_congr {last second : Word} {f g : Nat → Word} {k d : Nat} (hd : 0 < d) (h : ∀ j < k, f j = g j) :
    delayed last second f k d = delayed last second g k d := by
  unfold delayed
  split
  · exact h _ (by omega)
  · rfl

theorem delayed_of_le {last second : Word} {f : Nat → Word} {k d : Nat} (h : d ≤ k) :
    delayed last second f k d = f (k - d) := if_pos h

/-- `biquadState_take` for inputs and outputs that are given as sequences. -/
theorem biquadState_take_eq (c : Coef) (st : FiltState) {xs : List Word} {x y : Nat → Word}
    (hx : ∀ k < xs.length, xs.getD k 0 = x k) (hy : ∀ k < xs.length, (biquadOuts c st xs).getD k 0 = y k) {k : Nat}
    (hk : k ≤ xs.length) : biquadState c st (xs.take k) =
      { x1 := delayed st.x1 st.x2 x k 1, x2 := delayed st.x1 st.x2 x k 2,
        y1 := delayed st.y1 st.y2 y k 1, y2 := delayed st.y1 st.y2 y k 2 } := by
  have hx' : ∀ j < k, xs.getD j 0 = x j := fun j hj => hx j (hj.trans_le hk)
  have hy' : ∀ j < k, (biquadOuts c st xs).getD j 0 = y j := fun j hj => hy j (hj.trans_le hk)
  rw [biquadState_take c st xs k hk, delayed_congr (d := 1) Nat.one_pos hx', delayed_congr (d := 2) Nat.two_pos hx',
    delayed_congr (d := 1) Nat.one_pos hy', delayed_congr (d := 2) Nat.two_pos hy']

theorem exec_filter_ok {p : PathSel} {b : BitVec 8} {s : State} (hb : b.toNat < s.build.n)
    (hc : s.Configured (targets p b.toNat)) (hlen : 2 ≤ s.blkLen.toNat)
    (hw : s.blkOff.toNat + s.blkLen.toNat ≤ s.build.frames) :
    exec (.filter p b) s = .next (filterAll (targets p b.toNat) s.blkOff.toNat s.blkLen.toNat s) :=
  exec_of_ready (i := .filter p b) ⟨hb, hc, (windowOk_iff s).2 ⟨hlen, hw⟩⟩

/-- Settles O28: every sample is `biquadOut` from the carried values that `biquadState_take_eq` gives, the last ones those of
the whole window. -/
theorem filterRunsRecurrence : Obligations.FilterRunsRecurrence := by
  intro p b s hbuild hs hb hc hlen hw
  refine ⟨_, exec_filter_ok hb hc hlen hw, fun q hq => ?_, fun u hu => ?_, fun a ha => ?_, ?_⟩
  · intro i off len c st x y
    obtain ⟨hband, hscr⟩ := filterAll_target p i off len s hbuild hs hb hw q hq
    have hconf : (s.band q i).conf = true := hc (q, i) (mem_targets.2 ⟨hq, rfl⟩)
    have hxs : (s.inBlock q off len).length = len := inBlock_length s q off len
    have hx : ∀ k < (s.inBlock q off len).length, (s.inBlock q off len).getD k 0 = x k := fun k hk =>
      inBlock_getD s q off len k (hk.trans_eq hxs)
    have hy : ∀ k < (s.inBlock q off len).length, (biquadOuts c st (s.inBlock q off len)).getD k 0 = y k := fun k hk =>
      (hscr k (hk.trans_eq hxs)).symm
    refine ⟨fun k hk => ?_, ?_⟩
    · have hk' := hk.trans_eq hxs.symm
      rw [← hy k hk', biquadOuts_getD c _ st k hk', hx k hk', biquadState_take_eq c st hx hy hk'.le]
      rfl
    · have hstate := biquadState_take_eq c st hx hy (Nat.le_refl _)
      rw [List.take_length, hxs, delayed_of_le (by omega), delayed_of_le hlen, delayed_of_le (by omega),
        delayed_of_le hlen] at hstate
      rw [hband, hstate]
      exact congrArg (Band.mk c _) hconf
  · exact filterAll_band_other _ _ _ u.1 u.2 s hu
  · refine filterAll_byte_out _ _ _ a s fun t ht => ?_
    obtain ⟨hq, hi⟩ := mem_targets.1 ht
    rw [hi]
    exact ha t.1 hq
  · exact eq_of_noBandsMem (noBandsMem_filterAll _ _ _ s)

/-! ### Zeros -/

theorem magUnits_zero {a : Word} (h : isZero a = true) : magUnits a = 0 := by
  rw [← units_natAbs, (units_eq_zero a).2 h]; rfl

theorem isZero_pack (neg : Bool) : isZero (pack neg 0) = true := by cases neg <;> decide

theorem roundMag_zero {den : Nat} (h : 0 < den) : roundMag 0 den = 0 := by
  simp [roundMag, roundHalfEven, h]

theorem isZero_fneg {a : Word} (h : isZero a = true) : isZero (fneg a) = true := by
  rw [fneg_of_number (finite_kind (zero_finite h)).1, isZero, expField_flip, fracField_flip, ← isZero, h]

theorem isZero_fadd {a b : Word} (ha : isZero a = true) (hb : isZero b = true) : isZero (fadd a b) = true := by
  rw [fadd_finite (zero_finite ha) (zero_finite hb), (units_eq_zero a).2 ha, (units_eq_zero b).2 hb, if_pos (Int.add_zero 0)]
  exact isZero_pack _

theorem isZero_fsub {a b : Word} (ha : isZero a = true) (hb : isZero b = true) : isZero (fsub a b) = true :=
  isZero_fadd ha (isZero_fneg hb)

theorem isZero_fmul {a b : Word} (ha : isFinite a = true) (hb : isZero b = true) : isZero (fmul a b) = true := by
  rw [fmul_finite ha (zero_finite hb), magUnits_zero hb, Nat.mul_zero, roundMag_zero (Nat.two_pow_pos _)]
  exact isZero_pack _

/-- The five coefficients are finite. -/
def Coef.isFinite (c : Coef) : Bool :=
  Machine.isFinite c.a0 && Machine.isFinite c.a1 && Machine.isFinite c.a2 && Machine.isFinite c.b1 && Machine.isFinite c.b2

/-- The four state scalars are ±0.0. -/
def FiltState.isZero (st : FiltState) : Bool :=
  Machine.isZero st.x1 && Machine.isZero st.x2 && Machine.isZero st.y1 && Machine.isZero st.y2

theorem biquadOut_isZero {c : Coef} {st : FiltState} {x : Word} (hc : c.isFinite = true) (hst : st.isZero = true)
    (hx : isZero x = true) : isZero (biquadOut c st x) = true := by
  simp only [Coef.isFinite, FiltState.isZero, Bool.and_eq_true, and_assoc] at hc hst
  obtain ⟨ha0, ha1, ha2, hb1, hb2⟩ := hc
  obtain ⟨hx1, hx2, hy1, hy2⟩ := hst
  exact isZero_fsub (isZero_fsub (isZero_fadd (isZero_fadd (isZero_fmul ha0 hx) (isZero_fmul ha1 hx1)) (isZero_fmul ha2 hx2))
    (isZero_fmul hb1 hy1)) (isZero_fmul hb2 hy2)

theorem biquadNext_isZero {c : Coef} {st : FiltState} {x : Word} (hc : c.isFinite = true) (hst : st.isZero = true)
    (hx : isZero x = true) : (biquadNext c st x).isZero = true := by
  have hout := biquadOut_isZero hc hst hx
  simp only [FiltState.isZero, biquadNext, Bool.and_eq_true, and_assoc] at hst ⊢
  obtain ⟨hx1, -, hy1, -⟩ := hst
  exact ⟨hx, hx1, hout, hy1⟩

/-- From zero state, zeros give zeros and zero state. -/
theorem biquad_zeros {c : Coef} (hc : c.isFinite = true) (xs : List Word) (hxs : ∀ x ∈ xs, isZero x = true) :
    ∀ st : FiltState, st.isZero = true →
      (∀ y ∈ biquadOuts c st xs, isZero y = true) ∧ (biquadState c st xs).isZero = true := by
  induction xs with
  | nil => exact fun st hst => ⟨fun _ hy => absurd hy List.not_mem_nil, hst⟩
  | cons x xs ih =>
    intro st hst
    obtain ⟨hx, hrest⟩ := List.forall_mem_cons.1 hxs
    obtain ⟨houts, hstate⟩ := ih hrest _ (biquadNext_isZero hc hst hx)
    exact ⟨List.forall_mem_cons.2 ⟨biquadOut_isZero hc hst hx, houts⟩, hstate⟩

theorem forall_mem_inBlock {s : State} {q : Path} {off len : Nat} {P : Word → Prop} (h : ∀ k < len, P (s.inp q (off + k))) :
    ∀ x ∈ s.inBlock q off len, P x := by
  intro x hx
  obtain ⟨k, hk, rfl⟩ := List.mem_iff_getElem.1 hx
  rw [inBlock_length] at hk
  rw [← List.getD_eq_getElem _ 0, inBlock_getD s q off len k hk]
  exact h k hk

/-- Settles O30: the zero state is a fixed point of the recurrence. -/
theorem zeroStateIsFixed : Obligations.ZeroStateIsFixed := by
  intro p b s t hbuild hs hb hcfg hlen hw ht q hq c st st' hc hst hin
  cases (exec_filter_ok hb hcfg hlen hw).symm.trans ht
  obtain ⟨hband, hscr⟩ := filterAll_target p b.toNat _ _ s hbuild hs hb hw q hq
  obtain ⟨houts, hstate⟩ := biquad_zeros (c := c) hc _ (forall_mem_inBlock hin) st hst
  refine ⟨fun k hk => ?_, ?_⟩
  · rw [hscr k hk, List.getD_eq_getElem _ _ (by simpa using hk)]
    exact houts _ (List.getElem_mem _)
  · simp only [st', hband]
    exact hstate

/-! ### Two windows -/

theorem setBand_setBand_same (s : State) (p : Path) (i : Nat) (b b' : Band) :
    (s.setBand p i b).setBand p i b' = s.setBand p i b' := by
  cases p <;> simp [State.setBand]

theorem setBand_comm (s : State) {p q : Path} {i k : Nat} (b b' : Band) (h : (p, i) ≠ (q, k)) :
    (s.setBand p i b).setBand q k b' = (s.setBand q k b').setBand p i b := by
  cases p <;> cases q
  case mod.mod | car.car =>
    have hik : i ≠ k := fun e => h (by rw [e])
    simp [State.setBand, List.set_comm _ _ hik]
  case mod.car | car.mod => rfl

theorem setBand_storeScr (s : State) (p : Path) (i off : Nat) (ys : List Word) (q : Path) (k : Nat) (b : Band) :
    (s.storeScr p i off ys).setBand q k b = (s.setBand q k b).storeScr p i off ys := by
  cases q <;> rfl

/-- Two adjacent stores to a scratch row are one. -/
theorem storeScr_append {s : State} (hm : Memory.wf s.mem) (p : Path) (i off : Nat) (ys zs : List Word) :
    (s.storeScr p i off ys).storeScr p i (off + ys.length) zs = s.storeScr p i off (ys ++ zs) := by
  rw [State.storeScr, scrAddr_add]
  exact congrArg s.setMem (storeWords_append s.mem hm _ ys zs)

/-- Stores inside two different scratch rows commute. -/
theorem storeScr_comm {s : State} (hm : Memory.wf s.mem) {p q : Path} {i k off off' : Nat} {ys zs : List Word} (hi : i < 64)
    (hk : k < 64) (h : (p, i) ≠ (q, k)) (hys : off + ys.length ≤ 1024) (hzs : off' + zs.length ≤ 1024) :
    (s.storeScr p i off ys).storeScr q k off' zs = (s.storeScr q k off' zs).storeScr p i off ys := by
  have hrows := scr_rows_disjoint hi hk h
  have row (p : Path) (i n : Nat) : scrAddr p i n = scrAddr p i 0 + 4 * n := by rw [← scrAddr_add, Nat.zero_add]
  rw [row p i 1024, row q k 1024] at hrows
  refine congrArg s.setMem (storeWords_comm s.mem hm _ _ ys zs ?_)
  rw [row p i off, row q k off']
  omega

theorem filterWindow_mem_wf {s : State} (hm : Memory.wf s.mem) (t : Path × Nat) (off len : Nat) :
    Memory.wf (filterWindow t off len s).mem := by
  rw [filterWindow_mem]
  exact storeWords_wf _ _ _ hm

/-- What `filterWindow` leaves, given the band and the inputs that it reads. -/
def writeWindow (t : Path × Nat) (off : Nat) (b : Band) (xs : List Word) (s : State) : State :=
  (s.setBand t.1 t.2 { b with st := biquadState b.coef b.st xs }).storeScr t.1 t.2 off (biquadOuts b.coef b.st xs)

theorem filterWindow_eq (t : Path × Nat) (off len : Nat) (s : State) :
    filterWindow t off len s = writeWindow t off (s.band t.1 t.2) (s.inBlock t.1 off len) s := rfl

/-- The second of two adjacent windows starts from the carried values that the first leaves. -/
theorem writeWindow_append {s : State} (hm : Memory.wf s.mem) (t : Path × Nat) (off : Nat) (b : Band) (xs ys : List Word) :
    writeWindow t (off + xs.length) { b with st := biquadState b.coef b.st xs } ys (writeWindow t off b xs s) =
      writeWindow t off b (xs ++ ys) s := by
  have hstore := storeScr_append (s := s.setBand t.1 t.2 { b with st := biquadState b.coef b.st (xs ++ ys) })
    (by rwa [setBand_mem]) t.1 t.2 off (biquadOuts b.coef b.st xs) (biquadOuts b.coef (biquadState b.coef b.st xs) ys)
  rw [biquadOuts_length, ← biquadOuts_append, biquadState_append] at hstore
  rw [writeWindow, writeWindow, setBand_storeScr, setBand_setBand_same, writeWindow, biquadState_append]
  exact hstore

theorem writeWindow_comm {s : State} (hm : Memory.wf s.mem) {t u : Path × Nat} (htu : t ≠ u) (ht : t.2 < 64) (hu : u.2 < 64)
    {o o' : Nat} (b b' : Band) {xs xs' : List Word} (hw : o + xs.length ≤ 1024) (hw' : o' + xs'.length ≤ 1024) :
    writeWindow t o b xs (writeWindow u o' b' xs' s) = writeWindow u o' b' xs' (writeWindow t o b xs s) := by
  simp only [writeWindow, setBand_storeScr]
  rw [setBand_comm s _ _ htu, storeScr_comm (by simpa using hm) ht hu htu (by simpa using hw) (by simpa using hw')]

/-- A window in two parts is filtered as the whole. -/
theorem filterWindow_split {s : State} (hm : Memory.wf s.mem) (hs : s.SizesOk) (t : Path × Nat) {o k l : Nat}
    (ht : t.2 < s.build.n) (hw : o + k + l ≤ 1024) :
    filterWindow t (o + k) l (filterWindow t o k s) = filterWindow t o (k + l) s := by
  have happend := writeWindow_append hm t o (s.band t.1 t.2) (s.inBlock t.1 o k) (s.inBlock t.1 (o + k) l)
  rw [inBlock_length, ← inBlock_split] at happend
  rw [filterWindow_eq t (o + k), filterWindow_band_same t o k s hs ht, filterWindow_inBlock t o k s t.1 (o + k) l hw]
  exact happend

/-- Windows of two different bands are filtered in either order. -/
theorem filterWindow_comm {s : State} (hm : Memory.wf s.mem) {t u : Path × Nat} (htu : t ≠ u) (ht : t.2 < 64) (hu : u.2 < 64)
    {o l o' l' : Nat} (hw : o + l ≤ 1024) (hw' : o' + l' ≤ 1024) :
    filterWindow t o l (filterWindow u o' l' s) = filterWindow u o' l' (filterWindow t o l s) := by
  rw [filterWindow_eq t, filterWindow_band_other u o' l' s _ _ htu, filterWindow_inBlock u o' l' s _ _ _ hw,
    filterWindow_eq u o' l' (filterWindow t o l s), filterWindow_band_other t o l s _ _ htu.symm,
    filterWindow_inBlock t o l s _ _ _ hw']
  exact writeWindow_comm hm htu ht hu _ _ (by simpa using hw) (by simpa using hw')

/-- FILTER over a window in two parts, for each path that is selected. -/
theorem filterAll_split {s : State} (hinv : s.Inv) (p : PathSel) {i o k l : Nat} (hi : i < s.build.n)
    (hw : o + k + l ≤ s.build.frames) :
    filterAll (targets p i) (o + k) l (filterAll (targets p i) o k s) = filterAll (targets p i) o (k + l) s := by
  obtain ⟨hbuild, hs, ⟨hm, -⟩, -⟩ := hinv
  obtain ⟨-, hn, -, hf⟩ := Build.wf_bounds hbuild
  cases p with
  | mod => exact filterWindow_split hm hs (.mod, i) hi (by omega)
  | car => exact filterWindow_split hm hs (.car, i) hi (by omega)
  | both =>
    calc filterWindow (.car, i) (o + k) l (filterWindow (.mod, i) (o + k) l
          (filterWindow (.car, i) o k (filterWindow (.mod, i) o k s)))
      _ = filterWindow (.car, i) (o + k) l (filterWindow (.car, i) o k
            (filterWindow (.mod, i) (o + k) l (filterWindow (.mod, i) o k s))) := by
          rw [filterWindow_comm (t := (.mod, i)) (u := (.car, i)) (filterWindow_mem_wf hm _ _ _) (by simp) (by omega)
            (by omega) (by omega) (by omega)]
      _ = filterWindow (.car, i) (o + k) l (filterWindow (.car, i) o k (filterWindow (.mod, i) o (k + l) s)) := by
          rw [filterWindow_split hm hs (.mod, i) hi (by omega)]
      _ = filterWindow (.car, i) o (k + l) (filterWindow (.mod, i) o (k + l) s) :=
          filterWindow_split (filterWindow_mem_wf hm _ _ _) (filterWindow_SizesOk _ _ _ s hs) (.car, i)
            (by simpa using hi) (by omega)

/-! ### The window registers -/

/-- Other values in the window registers. -/
def State.setWindow (s : State) (o : BitVec 11) (l : BitVec 12) : State := { s with blkOff := o, blkLen := l }

theorem filterWindow_setWindow (t : Path × Nat) (off len : Nat) (s : State) (o : BitVec 11) (l : BitVec 12) :
    filterWindow t off len (s.setWindow o l) = (filterWindow t off len s).setWindow o l := by
  obtain ⟨q, i⟩ := t
  cases q <;> rfl

theorem filterAll_setWindow (ts : List (Path × Nat)) (off len : Nat) (o : BitVec 11) (l : BitVec 12) :
    ∀ s : State, filterAll ts off len (s.setWindow o l) = (filterAll ts off len s).setWindow o l := by
  induction ts with
  | nil => exact fun s => rfl
  | cons t ts ih => intro s; rw [filterAll_cons, filterWindow_setWindow, ih, filterAll_cons]

/-- FILTER over the window that was just set. -/
theorem exec_filter_setWindow {p : PathSel} {b : BitVec 8} {s : State} {o : BitVec 11} {l : BitVec 12}
    (hb : b.toNat < s.build.n) (hc : s.Configured (targets p b.toNat)) (hlen : 2 ≤ l.toNat)
    (hw : o.toNat + l.toNat ≤ s.build.frames) :
    exec (.filter p b) (s.setWindow o l) = .next ((filterAll (targets p b.toNat) o.toNat l.toNat s).setWindow o l) := by
  rw [← filterAll_setWindow]
  exact exec_filter_ok (s := s.setWindow o l) hb hc hlen hw

/-- Settles O29: the window registers do not matter to `filterAll_split`. -/
theorem splitWindowsAgree : Obligations.SplitWindowsAgree := by
  intro p b s o o' k l l' hinv hb hc hk hkl hw ho' hl'
  have hsplit := filterAll_split hinv p (o := o.toNat) (k := k.toNat) (l := l'.toNat) hb (by omega)
  rw [← ho', show k.toNat + l'.toNat = l.toNat by omega] at hsplit
  have hfirst := exec_filter_setWindow (o := o) (l := k) hb hc hk (by omega)
  have hwhole := exec_filter_setWindow (o := o) (l := l) hb hc (by omega) hw
  have hbuild := filterAll_build (targets p b.toNat) o.toNat k.toNat s
  have hsecond := exec_filter_setWindow (p := p) (b := b) (s := filterAll (targets p b.toNat) o.toNat k.toNat s) (o := o')
    (l := l') (by rwa [hbuild]) (fun t ht => ((filterAll_coef_conf _ _ _ t.1 t.2 s).2).trans (hc t ht)) (by omega)
    (by rw [hbuild]; omega)
  rw [hsplit] at hsecond
  exact ⟨_, _, _, hfirst, hsecond, hwhole, rfl⟩

end Sys2Proof.Machine
end

section
/-! PROOFS of the statements of 40_biquad.md on what a step does to a band (O39, O40). A step leaves every band, or resets them all,
or has the effect of a command that is ready. -/

namespace Sys2Proof.Machine

/-! ### What a step does to the bands -/

/-- What one transaction or step can do to the bands of `s`, with `reset` telling whether it is a reset. -/
inductive BandChange (s t : State) (reset : Prop) : Prop
  /-- An error, a read, or a write that does not start a command. -/
  | kept (h : ∀ q k, t.band q k = s.band q k)
  | reset (h : reset) (hband : ∀ q k, t.band q k = Band.reset s.build.coefReset)
  /-- A command that is ready, started from a state with the same bands. -/
  | command (i : Instr) (u : State) (hu : ∀ q k, u.band q k = s.band q k) (hready : Ready i u) (ht : t = effect i u)

/-- The bands may be those of another state, and the reset may be named otherwise. -/
theorem BandChange.congr {s u t : State} {reset reset' : Prop} (hbuild : u.build = s.build)
    (hband : ∀ q k, u.band q k = s.band q k) (hreset : reset → reset') (h : BandChange u t reset) : BandChange s t reset' := by
  cases h with
  | kept h => exact .kept fun q k => (h q k).trans (hband q k)
  | reset hr h => exact .reset (hreset hr) fun q k => hbuild ▸ h q k
  | command i v hv hready ht => exact .command i v (fun q k => (hv q k).trans (hband q k)) hready ht

theorem resetCore_band (s : State) (q : Path) (k : Nat) : (resetCore s).band q k = Band.reset s.build.coefReset :=
  resetOf_band s.build q k

theorem bandChange_execute {w : Word} {s t : State} (reset : Prop) (h : execute w s = .next t) : BandChange s t reset := by
  rcases execute_cases w s with ⟨code, info, -, he⟩ | ⟨i, -, hready, he⟩
  · cases he.symm.trans h
    exact .kept fun q k => capture_band code s.cmd info s q k
  · cases he.symm.trans h
    exact .command i s (fun _ _ => rfl) hready rfl

theorem bandChange_writeLoc {l : Loc} {v : Word} {s t : State} (h : writeLoc l v s = .next t) :
    BandChange s t (l = .ctrl ∧ v.getLsbD 1 = true) := by
  cases l with
  | cmd => exact .congr (u := { s with cmd := v }) rfl (fun _ _ => rfl) id (bandChange_execute _ h)
  | ctrl =>
    rw [writeLoc] at h
    split at h
    · cases h; exact .reset ⟨rfl, ‹_›⟩ (resetCore_band s)
    · cases h; exact .kept fun _ _ => rfl
  | inp | out => cases h; exact .kept fun q k => setMem_band s _ q k
  | err => cases h; exact .kept fun q k => clearErr_band s q k
  | _ => cases h; exact .kept fun _ _ => rfl

/-- CTRL lies at one offset only. -/
theorem locate_ctrl {b : Build} {addr : BitVec 20} (h : locate b addr = .ctrl) : addr = 0x008 := by
  have hreg : (addr.toNat, Loc.ctrl) ∈ controlRegs := by
    have hcases := locate_cases b addr
    rw [h] at hcases
    simpa [Loc.readOnly] using hcases
  exact BitVec.eq_of_toNat_eq (by simpa [controlRegs] using hreg)

theorem bandChange_serve {e : PortEvent} {s t : State} (h : serve e s = .next t) : BandChange s t (isReset e = true) := by
  cases e with
  | read addr =>
    rw [serve, busRead] at h
    split at h
    · cases h; exact .kept fun q k => capture_band _ _ _ { s with reply := .data (readWord s addr) } q k
    · cases h; exact .kept fun _ _ => rfl
  | write addr v =>
    by_cases ha : addr.toNat % 4 = 0
    · rw [serve, busWrite_aligned ha] at h
      refine .congr (u := { s with reply := .ack }) rfl (fun _ _ => rfl) (fun hr => ?_) (bandChange_writeLoc h)
      simp [isReset, locate_ctrl hr.1, hr.2]
    · rw [serve, busWrite_misaligned ha] at h
      cases h
      exact .kept fun q k => capture_band _ _ _ { s with reply := .ack } q k
  | rst => cases h; exact .reset rfl (resetCore_band _)

/-- What a step can do to the bands; with nothing at the port it keeps them. -/
theorem bandChange_step {s t : State} (h : step s = .next t) :
    BandChange s t (∃ e rest, s.port = e :: rest ∧ isReset e = true) := by
  rcases step_cases s with hs | ⟨e, rest, hport, hs⟩
  · cases hs.symm.trans h
    exact .kept fun _ _ => rfl
  · exact .congr (u := { s with port := rest }) rfl (fun _ _ => rfl) (fun hr => ⟨e, rest, hport, hr⟩)
      (bandChange_serve (hs.symm.trans h))

/-! ### What a command does to a configured and to an unconfigured band -/

/-- Configuring targets that are all unconfigured leaves a configured band. -/
theorem configureAll_band_of_configured {s : State} {ts : List (Path × Nat)} (hu : s.Unconfigured ts) {q : Path} {k : Nat}
    (hc : (s.band q k).conf = true) (c : Nat → Coef) : (configureAll ts c s).band q k = s.band q k := by
  refine configureAll_band_other c q k ts s fun hmem => ?_
  rw [hu _ hmem] at hc
  cases hc

/-- A command that is ready leaves COEF and CONF of a configured band: what configures has only unconfigured targets. -/
theorem effect_of_configured {i : Instr} {s : State} (hready : Ready i s) {q : Path} {k : Nat}
    (hc : (s.band q k).conf = true) :
    ((effect i s).band q k).coef = (s.band q k).coef ∧ ((effect i s).band q k).conf = (s.band q k).conf := by
  cases i with
  | setBandpass p b =>
    obtain ⟨-, hu, -⟩ := hready
    simp [effect, configureAll_band_of_configured hu hc]
  | writeCoef p b =>
    obtain ⟨-, hu⟩ := hready
    simp [effect, configureAll_band_of_configured hu hc]
  | buildBank p =>
    obtain ⟨hu, -⟩ := hready
    simp [effect, configureAll_band_of_configured hu hc]
  | _ => exact effect_coef_conf (by simp) (by simp) (by simp) s q k

/-- The effect of a command that configures a band leaves its state scalars: FILTER and GENERATE, which write them, configure
nothing. -/
theorem effect_of_becomes_configured {i : Instr} {s : State} {q : Path} {k : Nat} (hc : (s.band q k).conf = false)
    (hc' : ((effect i s).band q k).conf = true) : ((effect i s).band q k).st = (s.band q k).st := by
  cases i with
  | filter | generate =>
    rw [(effect_coef_conf (by simp) (by simp) (by simp) s q k).2, hc] at hc'
    cases hc'
  | _ => exact effect_st (by simp) (by simp) s q k

/-- Settles O39: only a reset and commands change bands, and a command that is ready leaves what is configured. -/
theorem configuredBandKeepsCoefficients : Obligations.ConfiguredBandKeepsCoefficients := by
  intro s t e rest p i hport hreset hstep hc
  cases bandChange_step hstep with
  | kept hband => rw [hband p i]; exact ⟨hc, rfl⟩
  | reset hr =>
    obtain ⟨e', rest', hport', hr⟩ := hr
    obtain ⟨rfl, rfl⟩ := List.cons.inj (hport.symm.trans hport')
    rw [hreset] at hr; cases hr
  | command j u hu hready ht =>
    subst ht
    rw [← hu p i] at hc ⊢
    obtain ⟨hcoef, hconf⟩ := effect_of_configured hready hc
    exact ⟨hconf.trans hc, hcoef⟩

/-- Settles O40: an unconfigured band has its reset value, and what configures it leaves its state scalars. -/
theorem bandIsConfiguredWithZeroState : Obligations.BandIsConfiguredWithZeroState := by
  intro s t p i hinv hstep hc hc'
  obtain ⟨-, -, -, -, hfresh, -⟩ := hinv
  cases bandChange_step hstep with
  | kept hband => rw [hband p i, hc] at hc'; cases hc'
  | reset _ hband => rw [hband p i] at hc'; cases hc'
  | command j u hu hready ht =>
    subst ht
    rw [effect_of_becomes_configured (by rw [hu p i, hc]) hc', hu p i, FreshOk_band hfresh p i hc]
    rfl

end Sys2Proof.Machine
end

section
/-! PROOFS of the statement of 41_filterbank.md on building a bank (O27). BUILD_BANK configures band after band like the commands
of 40_biquad.md, so the facts about `configureAll` say what it leaves. -/

namespace Sys2Proof.Machine

/-- Configuring bands leaves every path that none of them lies in. -/
theorem configureAll_bands_other {q : Path} (c : Nat → Coef) (ts : List (Path × Nat)) :
    ∀ s : State, (∀ t ∈ ts, t.1 ≠ q) → (configureAll ts c s).bands q = s.bands q := by
  induction ts with
  | nil => exact fun _ _ => rfl
  | cons t ts ih =>
    intro s h
    obtain ⟨ht, hts⟩ := List.forall_mem_cons.1 h
    rw [configureAll, List.foldl_cons, ← configureAll, ih _ hts, configure, setBand_bands_other _ _ _ _ _ ht.symm]

/-- Configuring the bands of a bank gives each band its coefficients and its configured bit, and changes nothing else. -/
theorem configureAll_bankTargets (p : PathSel) (c : Nat → Coef) (s : State) (hs : s.SizesOk) :
    let t := configureAll (bankTargets p s.build.n) c s
    (∀ q ∈ pathsOf p, ∀ i < s.build.n, t.band q i = { coef := c i, st := (s.band q i).st, conf := true }) ∧
      (∀ q, q ∉ pathsOf p → t.bands q = s.bands q) ∧
      { t with modBands := s.modBands, carBands := s.carBands } = s := by
  refine ⟨fun q hq i hi => ?_, fun q hq => ?_, eq_of_noBands (noBands_configureAll _ _ s)⟩
  · exact configureAll_band_target c q i _ s hs hi (mem_bankTargets.2 ⟨hq, hi⟩)
  · refine configureAll_bands_other c _ s fun t ht hpath => hq ?_
    exact hpath ▸ (mem_bankTargets.1 ht).1

/-- Settles O27: the arguments computed for a band are `bankCenter` and `bankQ`, and the listed conditions are `rangeValid` and
`bankBandValid`. -/
theorem buildBankConfiguresAllBands : Obligations.BuildBankConfiguresAllBands := by
  rintro p s _ _ _ lower upper fc q rfl rfl rfl hlower hupper hfc hq hs hu hlow hhigh hfs hlowpos hlt hfspos hargs
  have hcenter (i : Nat) : fc i = bankCenter s.build s.arg0 s.arg1 i := by rw [hfc, hlower, hupper]; rfl
  have hq' (i : Nat) : q i = bankQ s.build s.arg0 s.arg1 i := by rw [hq, hcenter, hlower, hupper]; rfl
  simp only [hcenter, hq'] at hargs ⊢
  have hrange := (rangeValid_iff s.arg0 s.arg1 s.fs).2 ⟨hlow, hhigh, hfs, hlowpos, hlt, hfspos⟩
  have hvalid (i : Nat) (hi : i < s.build.n) : bankBandValid s.build s.arg0 s.arg1 s.fs i = true :=
    (bandpassValid_iff _ _ _).2 ⟨hfs, hfspos, hargs i hi⟩
  exact ⟨_, exec_of_ready (i := .buildBank p) ⟨hu, hrange, hvalid⟩, configureAll_bankTargets p _ s hs⟩

end Sys2Proof.Machine
end

section
/-! PROOFS of the statements of 42_engine.md on the single commands (O31 to O35): the running peak of ENVELOPE, and the samples and
the frame of the commands that store one row. -/

namespace Sys2Proof.Machine

/-! ### The peak -/

theorem fgt_iff (a b : Word) : fgt a b = true ↔ isNaN a = false ∧ isNaN b = false ∧ units b < units a := by
  simp only [fgt, flt, Bool.and_eq_true, Bool.not_eq_true', decide_eq_true_eq]
  tauto

theorem fgt_eq_false {a b : Word} (h : units a ≤ units b) : fgt a b = false := by
  rw [Bool.eq_false_iff, ne_eq, fgt_iff]
  omega

theorem fgt_trans {a b c : Word} (hab : fgt a b = true) (hbc : fgt b c = true) : fgt a c = true := by
  rw [fgt_iff] at *
  obtain ⟨ha, -, hab⟩ := hab
  obtain ⟨-, hc, hbc⟩ := hbc
  exact ⟨ha, hc, hbc.trans hab⟩

theorem units_le_peakStep (e x : Word) : units e ≤ units (peakStep e x) := by
  unfold peakStep
  split
  case isTrue h => exact ((fgt_iff x e).1 h).2.2.le
  case isFalse => exact le_rfl

theorem units_le_foldl_peakStep (xs : List Word) : ∀ e, units e ≤ units (xs.foldl peakStep e) := by
  induction xs with
  | nil => exact fun _ => le_rfl
  | cons x xs ih => exact fun e => (units_le_peakStep e x).trans (ih _)

/-- Once a sample was taken into the running peak, it is not greater. -/
theorem not_fgt_peakStep {e : Word} (x : Word) {m : Word} (hn : isNaN e = false) (hm : units (peakStep e x) ≤ units m) :
    fgt x m = false := by
  unfold peakStep at hm
  split at hm
  case isTrue => exact fgt_eq_false hm
  case isFalse h =>
    rw [Bool.eq_false_iff, ne_eq, fgt_iff]
    rintro ⟨hx, -, hlt⟩
    exact h ((fgt_iff x e).2 ⟨hx, hn, hm.trans_lt hlt⟩)

theorem isNaN_peakStep {e : Word} (x : Word) (hn : isNaN e = false) : isNaN (peakStep e x) = false := by
  unfold peakStep
  split
  case isTrue h => exact ((fgt_iff x e).1 h).1
  case isFalse => exact hn

/-- No sample is greater than the final peak. -/
theorem not_fgt_foldl_peakStep (xs : List Word) :
    ∀ e, isNaN e = false → ∀ x ∈ xs, fgt x (xs.foldl peakStep e) = false := by
  induction xs with
  | nil => exact fun _ _ _ hx => absurd hx List.not_mem_nil
  | cons y xs ih =>
    exact fun e hn => List.forall_mem_cons.2
      ⟨not_fgt_peakStep y hn (units_le_foldl_peakStep xs _), ih _ (isNaN_peakStep y hn)⟩

/-- The final peak is the start or a sample greater than it. -/
theorem foldl_peakStep_eq_or (xs : List Word) :
    ∀ e, xs.foldl peakStep e = e ∨ (xs.foldl peakStep e ∈ xs ∧ fgt (xs.foldl peakStep e) e = true) := by
  induction xs with
  | nil => exact fun _ => .inl rfl
  | cons x xs ih =>
    intro e
    rw [List.foldl_cons]
    by_cases hx : fgt x e = true
    · rw [peakStep, if_pos hx]
      rcases ih x with hpeak | ⟨hmem, hgt⟩
      · rw [hpeak]; exact .inr ⟨List.mem_cons_self, hx⟩
      · exact .inr ⟨List.mem_cons_of_mem x hmem, fgt_trans hgt hx⟩
    · rw [peakStep, if_neg hx]
      exact (ih e).imp_right fun ⟨hmem, hgt⟩ => ⟨List.mem_cons_of_mem x hmem, hgt⟩

theorem mem_scrBlock {s : State} {p : Path} {i : Nat} {x : Word} :
    x ∈ s.scrBlock p i ↔ ∃ n < s.build.frames, s.scr p i n = x := by
  simp [scrBlock_eq_map]

/-- Settles O31: the new envelope is the peak of the row, and setting it leaves the other envelopes. -/
theorem envelopeIsPositivePeak : Obligations.EnvelopeIsPositivePeak := by
  intro b s hs hb
  obtain ⟨-, -, henv⟩ := hs
  refine ⟨_, exec_of_ready (i := .envelope b) hb, ?_, fun k hk => setEnv_envAt_other _ _ _ _ hk, rfl⟩
  intro e
  have he : e = peak (s.scrBlock .mod b.toNat) := setEnv_envAt_same _ _ _ (by omega)
  rw [he]
  obtain ⟨hnan, hsign⟩ := peak_legal (s.scrBlock .mod b.toNat)
  refine ⟨hnan, hsign, fun n hn => ?_, (foldl_peakStep_eq_or _ 0).imp_right fun ⟨hmem, hgt⟩ => ?_⟩
  · exact not_fgt_foldl_peakStep _ 0 (by decide) _ (mem_scrBlock.2 ⟨n, hn, rfl⟩)
  · obtain ⟨n, hn, hsample⟩ := mem_scrBlock.1 hmem
    exact ⟨n, hn, hsample.symm, hgt⟩

/-! ### Commands that store one row -/

theorem modulateBand_scr (s : State) (i : Nat) {n : Nat} (h : n < s.build.frames) :
    (modulateBand i s).scr .car i n = fmul (s.scr .car i n) (s.envAt i) := by
  rw [modulateBand, storeScr_scr _ _ _ _ _ (by simpa using h), map_fmul_getD _ _ _ (by simpa using h), scrBlock_getD _ _ _ _ h]

theorem modulateBand_byte_out (s : State) (i a : Nat) (h : a < scrAddr .car i 0 ∨ scrAddr .car i s.build.frames ≤ a) :
    Memory.byte (modulateBand i s).mem a = Memory.byte s.mem a := by
  refine storeScr_byte_out _ _ _ _ _ _ ?_
  rw [List.length_map, scrBlock_length, ← scrAddr_add, Nat.zero_add]
  exact h

/-- Settles O32: MODULATE stores the scaled row. -/
theorem modulateScalesCarrierBand : Obligations.ModulateScalesCarrierBand := by
  intro b s hb
  exact ⟨_, exec_of_ready (i := .modulate b) hb, fun n hn => modulateBand_scr s b.toNat hn,
    fun a ha => modulateBand_byte_out s b.toNat a ha, eq_of_noMem (noMem_modulateBand b.toNat s)⟩

/-- OUT[n] with the first `k` carrier bands added, in ascending band order (42_engine.md R230). -/
def partialMix (s : State) (n k : Nat) : Word := (List.range k).foldl (fun acc i => fadd acc (s.scr .car i n)) (s.out n)

theorem partialMix_succ (s : State) (n k : Nat) : partialMix s n (k + 1) = fadd (partialMix s n k) (s.scr .car k n) := by
  rw [partialMix, List.range_succ, List.foldl_concat, partialMix]

/-- Settles O33: the partial sums are `partialMix`. -/
theorem mixAddsBandsInOrder : Obligations.MixAddsBandsInOrder := by
  intro s
  exact ⟨mixOut s, rfl, execute_ok (show decode 0x00000007 = .ok .mix by decide) s,
    fun n hn => ⟨partialMix s n, rfl, fun i _ => partialMix_succ s n i, mixOut_out s n hn⟩,
    mixOut_byte_out s, eq_of_noMem (noMem_mixOut s)⟩

/-- Settles O34: MAKEUP stores the scaled output block. -/
theorem makeupScalesOut : Obligations.MakeupScalesOut := by
  intro s
  exact ⟨makeupOut s, rfl, execute_ok (show decode 0x00000008 = .ok .makeup by decide) s, makeupOut_out s,
    makeupOut_byte_out s, eq_of_noMem (noMem_makeupOut s)⟩

/-- Settles O35: CLEAR_OUT stores a block of zeros. -/
theorem clearOutZeroesOut : Obligations.ClearOutZeroesOut := by
  intro s
  exact ⟨clearOut s, rfl, execute_ok (show decode 0x0000000A = .ok .clearOut by decide) s, clearOut_out s,
    clearOut_byte_out s, eq_of_noMem (noMem_clearOut s)⟩

end Sys2Proof.Machine
end

section
/-! PROOFS of the statements of 42_engine.md on the order of filtering and on GENERATE (O36, O37, O44): the closed forms of its
loops put together, and the commands it stands for run one after another. -/

namespace Sys2Proof.Machine

/-! ### The order of filtering -/

/-- Settles O44: `filterWindow_comm` on the rows of a build that is a VCORE. -/
theorem filterOrderIsImmaterial : Obligations.FilterOrderIsImmaterial := by
  intro s p q i k off len off' len' hinv hi hk hne hw hw'
  obtain ⟨hbuild, -, ⟨hm, -⟩, -⟩ := hinv
  obtain ⟨-, hn, -, hf⟩ := Build.wf_bounds hbuild
  exact filterWindow_comm hm hne (by simp only; omega) (by simp only; omega) (by omega) (by omega)

/-! ### The results of GENERATE -/

/-- The filtered row of a band over the whole block. -/
def filteredRow (s : State) (q : Path) (i : Nat) : List Word :=
  biquadOuts (s.band q i).coef (s.band q i).st (s.inBlock q 0 s.build.frames)

/-- What GENERATE leaves of `s` before it writes OUT: steps 1 to 3 of 42_engine.md R240. -/
structure Modulated (s t : State) : Prop where
  build : t.build = s.build
  modRow : ∀ i < s.build.n, t.scrBlock .mod i = filteredRow s .mod i
  env : ∀ i < s.build.n, t.envAt i = peak (filteredRow s .mod i)
  carRow : ∀ i < s.build.n, t.scrBlock .car i = (filteredRow s .car i).map (fun x => fmul x (t.envAt i))
  out : ∀ n < 1024, t.out n = s.out n
  band : ∀ q, ∀ i < s.build.n, t.band q i =
    { s.band q i with st := biquadState (s.band q i).coef (s.band q i).st (s.inBlock q 0 s.build.frames) }
  bytes : ∀ a, (∀ q, ∀ i < s.build.n, a < scrAddr q i 0 ∨ scrAddr q i s.build.frames ≤ a) →
    Memory.byte t.mem a = Memory.byte s.mem a

theorem filterBand_out (i : Nat) (s : State) {n : Nat} (h : n < 1024) : (filterBand i s).out n = s.out n := by
  simp only [filterBand, filterWindow, storeScr_out _ _ _ _ _ _ h, setBand_out]

theorem eachBand_modulated {s : State} (hs : s.SizesOk) (hb : s.build.wf = true) :
    Modulated s (eachBand s.build.n modulateBand (eachBand s.build.n envelopeBand (eachBand s.build.n filterBand s))) := by
  obtain ⟨-, hn, -, -⟩ := Build.wf_bounds hb
  have filtered := eachBand_filtered s hs hb s.build.n le_rfl
  have hout : ∀ n < 1024, (eachBand s.build.n filterBand s).out n = s.out n := fun n h =>
    eachBand_keeps (fun t => t.out n) filterBand (fun i t => filterBand_out i t h) _ s
  generalize eachBand s.build.n filterBand s = t1 at *
  have hbuild1 := noBandsMem_build filtered.rest
  have hbuild2 : (eachBand s.build.n envelopeBand t1).build = s.build := (noEnv_build (noEnv_eachBand _ t1)).trans hbuild1
  have hmem2 := noEnv_mem (noEnv_eachBand s.build.n t1)
  have hrow2 := noEnv_scrBlock (noEnv_eachBand s.build.n t1)
  have hband2 (q : Path) (i : Nat) : (eachBand s.build.n envelopeBand t1).band q i = t1.band q i :=
    eachBand_keeps (fun t => t.band q i) envelopeBand (fun j t => envelopeBand_band j t q i) _ t1
  obtain ⟨-, -, henvLen⟩ := filtered.sizes
  obtain ⟨-, henv2, -⟩ := eachBand_envelope t1 s.build.n (by rw [henvLen, hbuild1])
  generalize eachBand s.build.n envelopeBand t1 = t2 at *
  obtain ⟨hrest, hcar, -, hmod, hout3, hbytes⟩ := eachBand_modulate t2 (hbuild2 ▸ hb) s.build.n (by rw [hbuild2])
  have henv3 (i : Nat) : (eachBand s.build.n modulateBand t2).envAt i = t2.envAt i := by
    rw [State.envAt, noMem_env hrest, State.envAt]
  rw [hbuild2] at hbytes
  exact {
    build := (noMem_build hrest).trans hbuild2
    modRow := fun i hi => by rw [hmod i (by omega), hrow2, filtered.rowIn _ _ hi, filteredRow]
    env := fun i hi => by rw [henv3, henv2 i hi, filtered.rowIn _ _ hi, filteredRow]
    carRow := fun i hi => by rw [hcar i hi, henv3, hrow2, filtered.rowIn _ _ hi, filteredRow]
    out := fun n h => by rw [hout3 n h, State.out, hmem2, ← State.out, hout n h]
    band := fun q i hi => by rw [noMem_band hrest, hband2, filtered.bandIn q i hi]
    bytes := fun a ha => by rw [hbytes a (fun i hi => ha .car i hi), hmem2, filtered.bytes a ha] }

/-- GENERATE writes nothing but bands, envelopes and memory. -/
theorem generateBlock_rest (s : State) :
    { generateBlock s with modBands := s.modBands, carBands := s.carBands, env := s.env, mem := s.mem } = s := by
  have hrest : noEnv (noBandsMem (generateBlock s)) = noEnv (noBandsMem s) :=
    generateBlock_keeps (fun t => noEnv (noBandsMem t)) (fun t off len s => by rw [noBandsMem_filterWindow])
      (fun _ _ => rfl) (fun _ _ => rfl) (fun _ => rfl) (fun _ => rfl) s
  exact congrArg (fun t : State => { t with modBands := s.modBands, carBands := s.carBands, env := s.env, mem := s.mem }) hrest

@[simp] theorem mixOut_build (s : State) : (mixOut s).build = s.build := rfl

/-- Steps 4 and 5: the bands mixed into OUT, then the makeup gain. -/
theorem makeupOut_mixOut_out (t : State) {n : Nat} (h : n < t.build.frames) :
    (makeupOut (mixOut t)).out n = fmul (mixSample t n) (makeupGain t.build) := by
  rw [makeupOut_out (mixOut t) n h, mixOut_out t n h, mixOut_build]

/-- Settles O36: steps 4 and 5 leave what steps 1 to 3 gave outside OUT. -/
theorem generateProcessesBlock : Obligations.GenerateProcessesBlock := by
  intro s hb hs hc
  obtain ⟨-, -, -, hf⟩ := Build.wf_bounds hb
  have modulated := eachBand_modulated hs hb
  refine ⟨generateBlock s, exec_of_ready (i := .generate) hc, ?_, generateBlock_rest s⟩
  rw [generateBlock]
  dsimp only
  generalize eachBand s.build.n modulateBand _ = u at modulated ⊢
  have hfu : u.build.frames ≤ 1024 := by rw [modulated.build]; exact hf
  have hrow (q : Path) (i : Nat) : (makeupOut (mixOut u)).scrBlock q i = u.scrBlock q i := by
    rw [makeupOut_scrBlock (mixOut u) hfu, mixOut_scrBlock u hfu]
  have hscr (i n : Nat) : (makeupOut (mixOut u)).scr .car i n = u.scr .car i n := by
    rw [makeupOut, storeOut_scr _ _ _ _ _ (by simpa using hfu), mixOut, storeOut_scr _ _ _ _ _ (by simpa using hfu)]
  refine ⟨fun i hi => ⟨?_, modulated.env i hi, ?_⟩, fun n hn => ?_, modulated.band, fun a ha hrows => ?_⟩
  · rw [hrow, modulated.modRow i hi, filteredRow]
  · rw [hrow, modulated.carRow i hi, filteredRow]; rfl
  · rw [makeupOut_mixOut_out u (by rwa [modulated.build]), mixSample, makeupGain, modulated.build,
      modulated.out n (by omega)]
    simp only [hscr]
  · rw [← modulated.build] at ha
    rw [makeupOut_byte_out (mixOut u) a ha, mixOut_byte_out u a ha, modulated.bytes a hrows]

/-! ### The command sequence of GENERATE -/

theorem execAll_append {is js : List Instr} {t : State} :
    ∀ {s : State}, execAll is s = .next t → execAll (is ++ js) s = execAll js t := by
  induction is with
  | nil => intro s h; cases h; rfl
  | cons i is ih =>
    intro s h
    rw [execAll] at h
    rw [List.cons_append, execAll]
    split at h
    case h_1 u hu => exact ih h
    case h_2 | h_3 => cases h

/-- Commands for the bands 0 to n − 1 do what a loop over the bands does, when each does its step and keeps what they all need. -/
theorem execAll_eachBand {P : State → Prop} {n : Nat} {c : Nat → Instr} {op : Nat → State → State}
    (h : ∀ i < n, ∀ t, P t → exec (c i) t = .next (op i t) ∧ P (op i t)) {s : State} (hs : P s) :
    execAll ((List.range n).map c) s = .next (eachBand n op s) ∧ P (eachBand n op s) := by
  induction n with
  | zero => exact ⟨rfl, hs⟩
  | succ n ih =>
    obtain ⟨hexec, hP⟩ := ih fun i hi => h i (by omega)
    obtain ⟨hlast, hP'⟩ := h n (by omega) _ hP
    rw [eachBand_succ, List.range_succ, List.map_append, execAll_append hexec, List.map_singleton, execAll, hlast]
    exact ⟨rfl, hP'⟩

/-- What the command sequence of GENERATE needs: every band configured and the window over the whole block. -/
structure WholeBlock (b : Build) (t : State) : Prop where
  build : t.build = b
  configured : t.Configured (bankTargets .both b.n)
  off : t.blkOff.toNat = 0
  len : t.blkLen.toNat = b.frames

/-- Commands that configure no band keep it. -/
theorem WholeBlock.effect {b : Build} {t : State} (h : WholeBlock b t) {i : Instr} (hbandpass : ∀ p b, i ≠ .setBandpass p b)
    (hcoef : ∀ p b, i ≠ .writeCoef p b) (hbank : ∀ p, i ≠ .buildBank p) : WholeBlock b (effect i t) := by
  have field {α : Type} (f : State → α) : f (commandFrame (Machine.effect i t)) = f (commandFrame t) :=
    congrArg f (commandFrame_effect i t)
  have hoff : (Machine.effect i t).blkOff = t.blkOff := field State.blkOff
  have hlen : (Machine.effect i t).blkLen = t.blkLen := field State.blkLen
  exact ⟨(field State.build).trans h.build,
    fun u hu => ((effect_coef_conf hbandpass hcoef hbank t u.1 u.2).2).trans (h.configured u hu),
    by rw [hoff, h.off], by rw [hlen, h.len]⟩

theorem toNat_ofNat_of_lt_bandCount {b : Build} (hb : b.wf = true) {i : Nat} (hi : i < b.n) : (BitVec.ofNat 8 i).toNat = i := by
  obtain ⟨-, hn, -, -⟩ := Build.wf_bounds hb
  rw [BitVec.toNat_ofNat]
  omega

/-- A command that is ready and configures no band. -/
theorem WholeBlock.exec_of_ready {b : Build} {t u : State} (h : WholeBlock b t) {i : Instr} (hready : Ready i t)
    (hbandpass : ∀ p b, i ≠ .setBandpass p b) (hcoef : ∀ p b, i ≠ .writeCoef p b) (hbank : ∀ p, i ≠ .buildBank p)
    (hu : Machine.effect i t = u) : exec i t = .next u ∧ WholeBlock b u :=
  hu ▸ ⟨Machine.exec_of_ready hready, h.effect hbandpass hcoef hbank⟩

/-- FILTER.BOTH over the whole block is step 1 of GENERATE for its band. -/
theorem WholeBlock.exec_filter {b : Build} (hb : b.wf = true) {t : State} (h : WholeBlock b t) {i : Nat} (hi : i < b.n) :
    exec (.filter .both (BitVec.ofNat 8 i)) t = .next (filterBand i t) ∧ WholeBlock b (filterBand i t) := by
  obtain ⟨-, -, hf, -⟩ := Build.wf_bounds hb
  have hband := toNat_ofNat_of_lt_bandCount hb hi
  have hconf : t.Configured (targets .both (BitVec.ofNat 8 i).toNat) := by
    rintro ⟨q, k⟩ hq
    obtain ⟨hpath, rfl⟩ := mem_targets.1 hq
    exact h.configured _ (mem_bankTargets.2 ⟨hpath, by rwa [hband]⟩)
  have hwindow : windowOk t = true := (windowOk_iff t).2 (by rw [h.off, h.len, h.build]; omega)
  refine h.exec_of_ready ⟨by rwa [hband, h.build], hconf, hwindow⟩ (by simp) (by simp) (by simp) ?_
  rw [Machine.effect, hband, h.off, h.len, ← h.build]
  rfl

theorem WholeBlock.exec_envelope {b : Build} (hb : b.wf = true) {t : State} (h : WholeBlock b t) {i : Nat} (hi : i < b.n) :
    exec (.envelope (BitVec.ofNat 8 i)) t = .next (envelopeBand i t) ∧ WholeBlock b (envelopeBand i t) := by
  have hband := toNat_ofNat_of_lt_bandCount hb hi
  exact h.exec_of_ready (show _ < _ by rwa [hband, h.build]) (by simp) (by simp) (by simp) (by rw [Machine.effect, hband])

theorem WholeBlock.exec_modulate {b : Build} (hb : b.wf = true) {t : State} (h : WholeBlock b t) {i : Nat} (hi : i < b.n) :
    exec (.modulate (BitVec.ofNat 8 i)) t = .next (modulateBand i t) ∧ WholeBlock b (modulateBand i t) := by
  have hband := toNat_ofNat_of_lt_bandCount hb hi
  exact h.exec_of_ready (show _ < _ by rwa [hband, h.build]) (by simp) (by simp) (by simp) (by rw [Machine.effect, hband])

/-- From a state whose window is the whole block, the command sequence leaves what GENERATE leaves. -/
theorem execAll_pipeline {b : Build} (hb : b.wf = true) {s : State} (h : WholeBlock b s) :
    execAll (pipeline b.n) s = .next (generateBlock s) := by
  obtain ⟨hfilter, h1⟩ := execAll_eachBand (fun i hi t ht => WholeBlock.exec_filter hb ht hi) h
  obtain ⟨henvelope, h2⟩ := execAll_eachBand (fun i hi t ht => WholeBlock.exec_envelope hb ht hi) h1
  obtain ⟨hmodulate, -⟩ := execAll_eachBand (fun i hi t ht => WholeBlock.exec_modulate hb ht hi) h2
  rw [pipeline, List.append_assoc, List.append_assoc, execAll_append hfilter, execAll_append henvelope,
    execAll_append hmodulate, generateBlock, h.build]
  rfl

theorem eachBand_setWindow {op : Nat → State → State} {o : BitVec 11} {l : BitVec 12}
    (h : ∀ i (s : State), op i (s.setWindow o l) = (op i s).setWindow o l) (n : Nat) (s : State) :
    eachBand n op (s.setWindow o l) = (eachBand n op s).setWindow o l := by
  induction n with
  | zero => rfl
  | succ n ih => rw [eachBand_succ, ih, h, eachBand_succ]

/-- GENERATE does not use the window registers. -/
theorem generateBlock_setWindow (s : State) (o : BitVec 11) (l : BitVec 12) :
    generateBlock (s.setWindow o l) = (generateBlock s).setWindow o l := by
  have hfilter (i : Nat) (t : State) : filterBand i (t.setWindow o l) = (filterBand i t).setWindow o l := by
    rw [filterBand, filterWindow_setWindow, filterWindow_setWindow]
    rfl
  rw [generateBlock, eachBand_setWindow hfilter, eachBand_setWindow (fun _ _ => rfl), eachBand_setWindow (fun _ _ => rfl)]
  rfl

/-- Settles O37: the sequence is GENERATE from the state with the window set, and GENERATE leaves the window as it is. -/
theorem generateIsItsCommandSequence : Obligations.GenerateIsItsCommandSequence := by
  intro s hinv hc
  obtain ⟨hb, -⟩ := hinv
  obtain ⟨-, -, -, hf⟩ := Build.wf_bounds hb
  have hwhole : WholeBlock s.build (s.setWindow 0 (BitVec.ofNat 12 s.build.frames)) :=
    ⟨rfl, hc, rfl, by rw [State.setWindow, BitVec.toNat_ofNat]; omega⟩
  have hback := generateBlock_setWindow (s.setWindow 0 (BitVec.ofNat 12 s.build.frames)) s.blkOff s.blkLen
  exact ⟨_, execAll_pipeline hb hwhole, (exec_of_ready (i := .generate) hc).trans (congrArg _ hback)⟩

end Sys2Proof.Machine
end

section
/-! PROOFS of the statement of 42_engine.md on envelope gating (O38): a finite gain divided by the band count is finite,
and a finite value times a zero is a zero. -/

namespace Sys2Proof.Machine

/-! ### The makeup gain is finite -/

theorem magUnits_eq_magValue (a : Word) : magUnits a = magValue (a.toNat % 2 ^ 31) := by
  have hsmall : (BitVec.ofNat 32 (a.toNat % 2 ^ 31)).toNat = a.toNat % 2 ^ 31 := by rw [BitVec.toNat_ofNat]; omega
  have hexp : a.toNat % 2 ^ 31 / 2 ^ 23 % 256 = a.toNat / 2 ^ 23 % 256 := by omega
  have hfrac : a.toNat % 2 ^ 31 % 2 ^ 23 = a.toNat % 2 ^ 23 := by omega
  rw [magValue, magUnits, magUnits, expField_eq, expField_eq, fracField_eq, fracField_eq, hsmall, hexp, hfrac]

/-- A finite magnitude lies below the midpoint from which rounding overflows: it rounds to itself. -/
theorem magUnits_lt_overflow {a : Word} (h : isFinite a = true) : magUnits a < (2 ^ 25 - 1) * 2 ^ 252 := by
  have hm : a.toNat % 2 ^ 31 < infMag := by
    rw [isFinite_iff] at h
    simp only [infMag]
    omega
  obtain ⟨-, hover, -⟩ := roundsToNearestEven (magUnits a) 1 Nat.one_pos
  rw [magUnits_eq_magValue] at hover ⊢
  rw [roundMag_magValue hm, Nat.mul_one] at hover
  exact Nat.lt_of_not_le fun hle => hm.ne (hover.2 hle)

/-- Dividing a finite value by one that is at least 1.0 does not overflow. -/
theorem isFinite_fdiv {a b : Word} (ha : isFinite a = true) (hb : isFinite b = true) (hone : 2 ^ 149 ≤ magUnits b) :
    isFinite (fdiv a b) = true := by
  have hpos : 0 < magUnits b := (Nat.two_pow_pos 149).trans_le hone
  have hz : isZero b = false := Bool.eq_false_iff.2 fun hz => hpos.ne' (magUnits_zero hz)
  rw [fdiv_finite ha hb hz]
  refine isFinite_pack _ (lt_of_le_of_ne (roundMag_le _ _) fun hinf => ?_)
  have hover := (roundsToNearestEven (magUnits a * 2 ^ 149) (magUnits b) hpos).2.1.1 hinf
  have hlt : magUnits a * 2 ^ 149 < (2 ^ 25 - 1) * 2 ^ 252 * magUnits b :=
    Nat.mul_lt_mul_of_lt_of_le (magUnits_lt_overflow ha) hone hpos
  exact absurd hover hlt.not_ge

theorem isFinite_makeupGain {b : Build} (hb : b.wf = true) (hg : isFinite b.g = true) : isFinite (makeupGain b) = true := by
  obtain ⟨hn, hn', -, -⟩ := Build.wf_bounds hb
  obtain ⟨hfinite, hunits⟩ := f32_exact (k := b.n) (by omega)
  refine isFinite_fdiv hg hfinite ?_
  rw [← units_natAbs, hunits]
  omega

/-! ### Zeros through the pipeline -/

theorem isZero_foldl_fadd {f : Nat → Word} {l : List Nat} (hf : ∀ i ∈ l, isZero (f i) = true) :
    ∀ acc, isZero acc = true → isZero (l.foldl (fun acc i => fadd acc (f i)) acc) = true := by
  induction l with
  | nil => exact fun _ h => h
  | cons i l ih =>
    obtain ⟨hi, hl⟩ := List.forall_mem_cons.1 hf
    exact fun acc hacc => ih hl _ (isZero_fadd hacc hi)

theorem fmul_comm (a b : Word) : fmul a b = fmul b a := by
  rw [fmul, fmul, Bool.or_comm (isNaN a), Bool.or_comm (isInf a), Bool.or_comm (isZero a), bne_comm, Nat.mul_comm (magUnits a)]

/-- Settles O38: silent envelopes make every modulated carrier sample a zero, so OUT stays zero through the mix and the gain. -/
theorem silentModulatorGatesOutput : Obligations.SilentModulatorGatesOutput := by
  intro s t hb hs hc hg hout hexec henv hfinite n hn
  obtain ⟨t', hexec', ⟨hrows, hsamples, -, -⟩, hrest⟩ := generateProcessesBlock s hb hs hc
  cases hexec'.symm.trans hexec
  have hbuild : t.build = s.build := by rw [← hrest]
  have hcarrier : ∀ i ∈ List.range s.build.n, isZero (t.scr .car i n) = true := by
    intro i hi
    have hi := List.mem_range.1 hi
    obtain ⟨-, -, hrow⟩ := hrows i hi
    have hmem : t.scr .car i n ∈ t.scrBlock .car i := mem_scrBlock.2 ⟨n, by rwa [hbuild], rfl⟩
    rw [hrow, henv i hi] at hmem
    obtain ⟨x, hx, hsample⟩ := List.mem_map.1 hmem
    rw [← hsample]
    exact isZero_fmul (hfinite i hi x hx) (by decide)
  rw [hsamples n hn, fmul_comm]
  exact isZero_fmul (isFinite_makeupGain hb hg) (isZero_foldl_fadd hcarrier _ (hout n hn))

end Sys2Proof.Machine
end

section
/-! PROOFS of the statements of 43_control.md (O14, O23, O53): NOP, the soft reset and the reset input, and ClearErr. -/

namespace Sys2Proof.Machine

/-- With no error pending the interrupt output is low, whatever IRQ_EN holds (10_state.md R64). -/
theorem irq_eq_false_of_no_error {s : State} (h : s.errCause = none) : s.irq = false := by
  rw [State.irq, State.errPend, h, Option.isSome_none, Bool.and_false]

/-- Settles O14: the write is ClearErr, whatever the value, and leaves no error pending. -/
theorem errWriteClearsCapture : Obligations.ErrWriteClearsCapture := fun s v =>
  ⟨_, serve_write_register s v 0x014 .err, rfl, irq_eq_false_of_no_error (clearErr_errCause _)⟩

/-- The only word that fits NOP, which takes neither PATH nor BAND, is 0. -/
theorem eq_zero_of_fits_nop {w : Word} (h : Op.nop.Fits w) : w = 0 := by
  rw [← ofFields_fields w, h.rsv, h.band_zero rfl, h.path_zero rfl, h.opcode]
  rfl

/-- Settles O23: the word 0 is NOP, and every other word with its opcode does not fit it. -/
theorem nopChangesOnlyCmd : Obligations.NopChangesOnlyCmd := by
  intro s
  refine ⟨rfl, ?_, fun w hop hne => ?_⟩
  · obtain ⟨hdecode, -⟩ := specWordsDecode
    exact (serve_cmd s 0).trans (execute_ok hdecode _)
  · have hnop : opField w = Op.nop.code := BitVec.eq_of_toNat_eq ((opField_toNat w).trans hop)
    exact execute_reservedField (decode_reserved hnop fun hfits => hne (eq_zero_of_fits_nop hfits)) s

/-- Settles O53: a write to CTRL with bit 1 set and the reset input both run `resetCore`. -/
theorem resetsAgree : Obligations.ResetsAgree := by
  intro s v hbit
  refine ⟨?_, rfl⟩
  rw [serve_write_register s v 0x008 .ctrl, writeLoc, if_pos (by rw [getLsbD_one_eq, hbit]; rfl)]
  rfl

end Sys2Proof.Machine
end

section
/-! PROOFS of the statements of 60_exceptions.md (O12, O13, O15): the error capture, what a word written to CMD leaves, and why a
pending error changes nothing else. No check and no effect of a command reads the error registers. -/

namespace Sys2Proof.Machine

/-! ### The capture -/

theorem capture_of_none {s : State} (h : s.errCause = none) (code : ErrCode) (w info : Word) :
    capture code w info s = { s with errCause := some code, errCmd := w, errInfo := info } := by
  rw [capture, h]

theorem capture_of_pending {s : State} (h : s.errCause ≠ none) (code : ErrCode) (w info : Word) :
    capture code w info s = { s with errOvf := true } := by
  obtain ⟨c, hc⟩ := Option.ne_none_iff_exists'.1 h
  rw [capture, hc]

theorem capture_errCause_ne_none (code : ErrCode) (w info : Word) (s : State) : (capture code w info s).errCause ≠ none := by
  by_cases h : s.errCause = none
  · rw [capture_of_none h]; exact Option.some_ne_none code
  · rwa [capture_of_pending h]

theorem forgetErrors_capture (code : ErrCode) (w info : Word) (s : State) :
    forgetErrors (capture code w info s) = forgetErrors s := by
  by_cases h : s.errCause = none
  · rw [capture_of_none h]; rfl
  · rw [capture_of_pending h]; rfl

/-- Settles O12: the two cases of `capture`. -/
theorem captureKeepsFirstError : Obligations.CaptureKeepsFirstError := fun code cmdword info _ =>
  ⟨fun h => capture_of_none h code cmdword info, fun h => capture_of_pending h code cmdword info⟩

/-! ### Commands do not read the error registers -/

/-- The state with the error capture and CTRL.IRQ_EN of another. -/
def State.withErrors (s q : State) : State :=
  { s with irqEn := q.irqEn, errCause := q.errCause, errOvf := q.errOvf, errCmd := q.errCmd, errInfo := q.errInfo }

/-- Two states that differ only in what `forgetErrors` forgets are one state with the errors of two. -/
theorem eq_withErrors_of_forgetErrors {s s' : State} (h : forgetErrors s = forgetErrors s') : s' = s.withErrors s' :=
  (congrArg (fun u => u.withErrors s') h).symm

theorem setBand_withErrors (s q : State) (p : Path) (i : Nat) (b : Band) :
    (s.withErrors q).setBand p i b = (s.setBand p i b).withErrors q := by
  cases p <;> rfl

/-- A loop commutes with replacing the errors when its body does. -/
theorem foldl_withErrors {α : Type} {g : State → α → State} {q : State}
    (h : ∀ u a, g (u.withErrors q) a = (g u a).withErrors q) (l : List α) (s : State) :
    l.foldl g (s.withErrors q) = (l.foldl g s).withErrors q :=
  List.foldl_hom (f := fun u : State => u.withErrors q) h

theorem configureAll_withErrors (ts : List (Path × Nat)) (c : Nat → Coef) (s q : State) :
    configureAll ts c (s.withErrors q) = (configureAll ts c s).withErrors q :=
  foldl_withErrors (fun u t => setBand_withErrors u q t.1 t.2 _) ts s

theorem filterWindow_withErrors (t : Path × Nat) (off len : Nat) (s q : State) :
    filterWindow t off len (s.withErrors q) = (filterWindow t off len s).withErrors q := by
  rw [filterWindow, setBand_withErrors]
  rfl

theorem filterAll_withErrors (ts : List (Path × Nat)) (off len : Nat) (s q : State) :
    filterAll ts off len (s.withErrors q) = (filterAll ts off len s).withErrors q :=
  foldl_withErrors (fun u t => filterWindow_withErrors t off len u q) ts s

theorem eachBand_withErrors {op : Nat → State → State} {q : State}
    (h : ∀ i s, op i (s.withErrors q) = (op i s).withErrors q) (n : Nat) (s : State) :
    eachBand n op (s.withErrors q) = (eachBand n op s).withErrors q :=
  foldl_withErrors (fun u i => h i u) _ s

theorem generateBlock_withErrors (s q : State) : generateBlock (s.withErrors q) = (generateBlock s).withErrors q := by
  have hfilter (i : Nat) (u : State) : filterBand i (u.withErrors q) = (filterBand i u).withErrors q := by
    rw [filterBand, filterWindow_withErrors, filterWindow_withErrors]
    rfl
  rw [generateBlock, eachBand_withErrors hfilter, eachBand_withErrors (fun _ _ => rfl), eachBand_withErrors (fun _ _ => rfl)]
  rfl

/-- A command has the same effect whatever the error registers hold, and leaves them. -/
theorem effect_withErrors (i : Instr) (s q : State) : effect i (s.withErrors q) = (effect i s).withErrors q := by
  cases i with
  | setBandpass p b => exact configureAll_withErrors _ (fun _ => bandpass s.build s.arg0 s.arg1 s.fs) s q
  | writeCoef p b => exact configureAll_withErrors _ (fun _ => s.stg) s q
  | buildBank p => exact configureAll_withErrors _ _ s q
  | filter => exact filterAll_withErrors _ _ _ s q
  | generate => exact generateBlock_withErrors s q
  | nop | envelope | modulate | mix | makeup | clearOut => rfl

theorem effect_errors (i : Instr) (s : State) : effect i s = (effect i s).withErrors s := effect_withErrors i s s

theorem ready_withErrors (i : Instr) (s q : State) : Ready i (s.withErrors q) ↔ Ready i s := by
  cases i <;> rfl

/-! ### Executing a word -/

theorem execute_of_ready {w : Word} {i : Instr} {s : State} (hi : decode w = .ok i) (h : Ready i s) :
    execute w s = .next (effect i s) :=
  (execute_ok hi s).trans (exec_of_ready h)

/-- A word raises an error from both of two states that differ only in their errors, or has one effect from both. -/
theorem execute_withErrors_cases (w : Word) (s q : State) :
    (∃ code info code' info', execute w s = .next (capture code s.cmd info s) ∧
      execute w (s.withErrors q) = .next (capture code' s.cmd info' (s.withErrors q))) ∨
    (∃ i, execute w s = .next (effect i s) ∧ execute w (s.withErrors q) = .next ((effect i s).withErrors q)) := by
  by_cases hr : ∃ i, decode w = .ok i ∧ Ready i s
  · obtain ⟨i, hi, hready⟩ := hr
    refine .inr ⟨i, execute_of_ready hi hready, ?_⟩
    rw [← effect_withErrors]
    exact execute_of_ready hi ((ready_withErrors i s q).2 hready)
  · have hr' : ¬ ∃ i, decode w = .ok i ∧ Ready i (s.withErrors q) := by simpa only [ready_withErrors] using hr
    obtain ⟨code, info, -, he⟩ := (execute_cases w s).resolve_right fun ⟨i, hi, h, _⟩ => hr ⟨i, hi, h⟩
    obtain ⟨code', info', -, he'⟩ := (execute_cases w (s.withErrors q)).resolve_right fun ⟨i, hi, h, _⟩ => hr' ⟨i, hi, h⟩
    exact .inl ⟨code, info, code', info', he, he'⟩

/-- Settles O15: both states raise an error, of which a pending one keeps all but OVF, or both have the same effect, which leaves
the capture. -/
theorem commandsIgnorePendingErrors : Obligations.CommandsIgnorePendingErrors := by
  intro w s s' h
  obtain ⟨q, rfl⟩ : ∃ q, s' = s.withErrors q := ⟨s', eq_withErrors_of_forgetErrors h⟩
  obtain ⟨code, info, code', info', he, he'⟩ | ⟨i, he, he'⟩ := execute_withErrors_cases w s q
  · refine ⟨_, _, he, he', ?_, fun hpending => ?_,
      fun hpending _ => ⟨fun _ => capture_of_pending hpending _ _ _, fun hnone => ?_⟩⟩
    · rw [forgetErrors_capture, forgetErrors_capture, h]
    · rw [capture_of_pending hpending]; exact ⟨rfl, rfl, rfl⟩
    · exact absurd hnone (capture_errCause_ne_none _ _ _ _)
  · have field {α : Type} (f : State → α) : f (effect i s) = f ((effect i s).withErrors s) := congrArg f (effect_errors i s)
    exact ⟨_, _, he, he', rfl, fun _ => ⟨field State.errCause, field State.errCmd, field State.errInfo⟩,
      fun _ hnone => ⟨fun hraised => absurd hnone hraised, fun _ => field State.errOvf⟩⟩

/-- Executing a word leaves CMD, whether it raises an error or not (10_state.md R46). -/
theorem execute_cmd {w : Word} {s t : State} (h : execute w s = .next t) : t.cmd = s.cmd := by
  obtain ⟨code, info, -, he⟩ | ⟨i, -, -, he⟩ := execute_cases w s
  · obtain rfl := Host.Outcome.next.inj (he.symm.trans h)
    exact capture_cmd ..
  · obtain rfl := Host.Outcome.next.inj (he.symm.trans h)
    have hcmd := congrArg State.cmd (commandFrame_effect i s)
    exact hcmd

/-- Settles O13: the word written is executed with CMD holding it; an effect leaves the capture. -/
theorem commandErrorsArePrecise : Obligations.CommandErrorsArePrecise := by
  intro s t w h
  rw [serve_cmd] at h
  have hcmd : t.cmd = w := execute_cmd h
  refine ⟨hcmd, (readWord_register t 0x010 .cmd).trans hcmd, ?_⟩
  obtain ⟨code, info, hcode, he⟩ | ⟨i, -, -, he⟩ := execute_cases w { s with reply := .ack, cmd := w }
  · exact .inr ⟨code, info, hcode, Host.Outcome.next.inj (h.symm.trans he)⟩
  · obtain rfl := Host.Outcome.next.inj (he.symm.trans h)
    have field {α : Type} (f : State → α) := congrArg f (effect_errors i { s with reply := .ack, cmd := w })
    exact .inl ⟨field State.errCause, field State.errOvf, field State.errCmd, field State.errInfo⟩

end Sys2Proof.Machine
end
